-- ==== Sys2Proof/Word.lean ====
section
/-! DEFINITION. Bytes, bus words, and the plain containers the engine's values are made of: extension-field elements
and affine points (00_scope R11 to R13). No arithmetic: that is in Machine/Field.lean and Machine/Curve.lean. -/
namespace Sys2Proof

/-- One byte of a wire byte string (00_scope R11). -/
abbrev Byte := BitVec 8

/-- A 32-bit register or bus data word (10_state R33). -/
abbrev Word := BitVec 32

/-- An element `c0 + c1*t` of a quadratic extension (00_scope R12, 43_pairing R230). -/
structure Quad (F : Type) where
  c0 : F
  c1 : F
deriving DecidableEq, Repr, Inhabited

/-- An element `c0 + c1*t + c2*t^2` of a cubic extension (43_pairing R230). -/
structure Cubic (F : Type) where
  c0 : F
  c1 : F
  c2 : F
deriving DecidableEq, Repr, Inhabited

/-- A point value: `Inf` or `Aff(x, y)` (00_scope R13). -/
inductive Point (F : Type) where
  | inf
  | aff (x y : F)
deriving DecidableEq, Repr, Inhabited

end Sys2Proof
end

