-- ==== Sys2Proof/Config.lean ====
section
/-! DEFINITION. What an implementation fixes (00_scope R7, R8) and the free values the spec leaves open. A constant
declared `opaque` has no body: nothing can be proved of its value. -/
namespace Sys2Proof

/-- Base-field modulus, a 377-bit prime (00_scope R7). -/
abbrev Config.P : Nat :=
  0x01ae3a4617c510eac63b05c06ca1493b1a22d9f300f5138f1ef3622fba094800170b5d44300000008508c00000000001

/-- Prime order of the subgroups G1 and G2 (00_scope R7). -/
def Config.R : Nat := 0x12ab655e9a2ca55660b44d1e5c37b00159aa76fed00000010a11800000000001

/-- Curve seed (00_scope R7). -/
def Config.X : Nat := 0x8508c00000000001

/-- Fq, the integers modulo `P`, held as a value in `[0, P)` (00_scope R12). -/
abbrev Fq := Fin Config.P

/-- Fq2 = Fq[u]/(u^2 - NR), the pair `(c0, c1)` (00_scope R12). -/
abbrev Fq2 := Quad Fq

/-- Fq6 = Fq2[v]/(v^3 - u) (43_pairing R230). -/
abbrev Fq6 := Cubic Fq2

/-- Fq12 = Fq6[w]/(w^2 - v) (43_pairing R230). -/
abbrev Fq12 := Quad Fq6

/-- A G1 value (00_scope R13). -/
abbrev G1 := Point Fq

/-- A G2 value (00_scope R13). -/
abbrev G2 := Point Fq2

/-- G1 curve coefficient (00_scope R7). -/
def Config.B1 : Fq := ⟨1, by decide⟩

/-- Fq2 non-residue, `P - 5` (00_scope R7). -/
def Config.NR : Fq := ⟨Config.P - 5, by decide⟩

/-- G2 curve coefficient `1/u` (00_scope R7). -/
def Config.B2 : Fq2 :=
  ⟨⟨0, by decide⟩,
   ⟨0x010222f6db0fd6f343bd03737460c589dc7b4f91cd5fd889129207b63c6bf8000dd39e5c1ccccccd1c9ed9999999999a,
     by decide⟩⟩

/-- Size of the output buffer (00_scope R8). -/
def Config.outBufBytes : Nat := 256

/-- The smallest input buffer 00_scope R8 allows. -/
def Config.minInBufBytes : Nat := 512

/-- OPEN: some element of a type that has one, and nothing else is known of it. The parameters MILLER_LOOP and FINAL_EXP
are drawn with it from the pairs of functions with the properties of 43_pairing R230 (log 12). -/
opaque Config.freeChoice {α : Type} [Inhabited α] : α

/-- OPEN: which of the sizes 00_scope R8 allows the implementation has (log 5). -/
opaque Config.inBufChoice : Nat

/-- `IN_BUF_BYTES` (00_scope R8): any multiple of 4 from 512 to 0xFFFF_F000; each of them is the value for some
choice, and nothing else is known of it (log 5). -/
def Config.inBufBytes : Nat := Config.minInBufBytes + 4 * (Config.inBufChoice % 1073740673)

/-- `n <= IN_BUF_BYTES`. The first test only spares an evaluation the open parameter where every implementation
agrees; `Laws.fitsInBuf_iff` says that the two sides are the same. -/
def Config.fitsInBuf (n : Nat) : Bool := Nat.ble n Config.minInBufBytes || Nat.ble n Config.inBufBytes

/-- OPEN: the value the ID register reads (00_scope R8, 10_state R34; log 6). -/
opaque Config.idValue : Word

/-- Free value: what byte `a` of IN_BUF holds after power-on reset number `k`, until the host writes it
(70_reset R323, U1; log 7). -/
opaque Config.powerOnByte : (k a : Nat) → Byte

/-- Free value: L_OP after a soft reset or a reset event (44_host_commands R262, U3; log 10). -/
opaque Config.freeLOp : Nat → BitVec 4

/-- Free value: L_LEN after a soft reset or a reset event (44_host_commands R262, U3; log 10). -/
opaque Config.freeLLen : Nat → Word

/-- Free value: ACC_G1 after a soft reset or a reset event (44_host_commands R262, U3; log 10). -/
opaque Config.freeAccG1 : Nat → G1

/-- Free value: ACC_G2 after a soft reset or a reset event (44_host_commands R262, U3; log 10). -/
opaque Config.freeAccG2 : Nat → G2

/-- Free value: ACC_F after a soft reset or a reset event (44_host_commands R262, U3; log 10). -/
opaque Config.freeAccF : Nat → Fq12

/-- Free value: the data of a read that gets the ERROR response (20_memory R75, U7; log 11). -/
opaque Config.freeReadData : Nat → Word

end Sys2Proof
end

