-- ==== Sys2Proof/Syntax.lean ====
section
/-! DEFINITION. The instructions of spec/opcode_table.json and the host's bus accesses (30_encoding R100 to R103, R127). -/
namespace Sys2Proof

/-- One constructor per row of the opcode table. The seven operations carry IN_LEN, the one other field of an engine
instruction beside its code and the frame that stands in IN_BUF (30_encoding R101); the commands carry the bits of
the written word that the table names as fields. -/
inductive Instr where
  /-- G1ADD, OP_CODE 0x1 (42_dispatch R210). -/
  | g1add (inLen : Nat)
  /-- G1MUL, OP_CODE 0x2 (42_dispatch R211). -/
  | g1mul (inLen : Nat)
  /-- G1MULTIEXP, OP_CODE 0x3 (42_dispatch R212). -/
  | g1multiexp (inLen : Nat)
  /-- G2ADD, OP_CODE 0x4 (42_dispatch R213). -/
  | g2add (inLen : Nat)
  /-- G2MUL, OP_CODE 0x5 (42_dispatch R214). -/
  | g2mul (inLen : Nat)
  /-- G2MULTIEXP, OP_CODE 0x6 (42_dispatch R215). -/
  | g2multiexp (inLen : Nat)
  /-- PAIRING, OP_CODE 0x7 (43_pairing R232). -/
  | pairing (inLen : Nat)
  /-- START with the IE bit of the same write (44_host_commands R260, R264). -/
  | start (ie : Bool)
  /-- SRST with the START bit it ignores and the IE bit (44_host_commands R262, R264). -/
  | srst (start ie : Bool)
  /-- A CTRL write with no command bit set (44_host_commands R264). -/
  | ieWrite (ie : Bool)
  /-- A STATUS write with bit 1 set (44_host_commands R263). -/
  | doneClr
deriving DecidableEq, Repr

/-- A host bus access, the tuple (kind, offset, width in bytes, data) of 30_encoding R127 (20_memory R75). -/
inductive Access where
  | read (off w : Nat)
  | write (off w : Nat) (data : Word)
deriving DecidableEq, Repr

/-- An instruction's encoding, in the three formats of the opcode table. -/
inductive Encoding where
  /-- Format OP: the values of the OP and IN_LEN registers (30_encoding R101). -/
  | op (opReg inLen : Word)
  /-- Format CTRL_WRITE: the word written to CTRL (30_encoding R102). -/
  | ctrlWrite (v : Word)
  /-- Format STATUS_WRITE: the word written to STATUS (30_encoding R103). -/
  | statusWrite (v : Word)
deriving DecidableEq, Repr

end Sys2Proof
end

