-- ==== Sys2Proof/Machine/State.lean ====
section
/-! DEFINITION. The engine's state (10_state), the reasons a step can stop, and the state after power-on reset
(70_reset R320). -/
namespace Sys2Proof.Machine

/-- Bytes by address, in canonical form: addresses strictly rising, no entry equal to what an unlisted address reads as
(`Memory.wf`, Machine/Ops.lean). -/
abbrev Memory := List Host.Cell

/-- The sequencer's phases (10_state R48). -/
inductive Phase where
  | idle
  | validate
  | compute
  | finalExp
  | writeback
deriving DecidableEq, Repr

/-- What the port answered to the access served last (20_memory R75; log 11). -/
inductive Reply where
  /-- No access served since reset. -/
  | none
  /-- OKAY to a read, with its data. -/
  | readOkay (data : Word)
  /-- ERROR to a read; the data is any value. -/
  | readError (data : Word)
  /-- OKAY to a write. -/
  | writeOkay
  /-- ERROR to a write. -/
  | writeError
deriving DecidableEq, Repr

/-- What happens next at the engine, in the one order of 20_memory R81 (log 1). -/
inductive Event where
  /-- A host access reaches the port (20_memory R75). -/
  | access (a : Access)
  /-- The sequencer takes its turn; it does something only while BUSY (10_state R30). -/
  | sequencer
  /-- The platform asserts and releases the reset input (70_reset R320; log 13). -/
  | powerOn
deriving DecidableEq, Repr

/-- The whole machine. The first group is the register window, the second the buffers, the third the sequencer's
internal state, the last the model's own (INVENTORY.md, State). -/
structure State where
  /-- CTRL.IE (10_state R35). -/
  ie : Bool
  /-- OP.OP_CODE (10_state R36). -/
  opCode : BitVec 4
  /-- IN_LEN (10_state R37). -/
  inLen : Word
  /-- STATUS.BUSY (10_state R38). -/
  busy : Bool
  /-- STATUS.DONE (10_state R38). -/
  done : Bool
  /-- STATUS.ERR (10_state R38). -/
  err : Bool
  /-- STATUS.ERR_KIND (10_state R38, 60_exceptions R280). -/
  errKind : BitVec 3
  /-- STATUS.ERR_DETAIL (10_state R38, 60_exceptions R284). -/
  errDetail : Bool
  /-- ERR_POS (10_state R39). -/
  errPos : Word
  /-- OUT_LEN (10_state R40). -/
  outLen : Word
  /-- IN_BUF (10_state R43), keyed by the index in the buffer; a byte is listed exactly when the host has written it since
  power-on, so this list is WRITTEN (10_state R52) as well (log 7). -/
  inBuf : Memory
  /-- OUT_BUF (10_state R44), keyed by the index in the buffer; an unlisted byte is 0. -/
  outBuf : Memory
  /-- L_OP (10_state R47). -/
  lOp : BitVec 4
  /-- L_LEN (10_state R47). -/
  lLen : Word
  /-- PHASE (10_state R48). -/
  phase : Phase
  /-- IDX (10_state R49; log 14). -/
  idx : Nat
  /-- ACC_G1 (10_state R50). -/
  accG1 : G1
  /-- ACC_G2 (10_state R50). -/
  accG2 : G2
  /-- ACC_F (10_state R51). -/
  accF : Fq12
  /-- How many power-on resets there have been after the first (log 7). -/
  resets : Nat
  /-- How many free values have been drawn (log 10). -/
  draws : Nat
  /-- The port's response to the access served last (log 11). -/
  reply : Reply
  /-- The events still to come, first to come first (log 1). -/
  inputs : List Event
deriving DecidableEq, Repr

/-- Why the machine stops. -/
inductive Fault where
  /-- `ModelFault(UnwrittenInput)`: raised by every operation whose input, once its length and capacity are right, has a
  byte the host never wrote (10_state R52, 42_dispatch R208, 60_exceptions R286). Safe: the hardware computes on an
  unknown byte and the model gives no result (log 8). -/
  | unwrittenInput
deriving DecidableEq, Repr

/-- Why an instruction has no meaning. -/
inductive Refusal where
  /-- An arm of `exec` that has no meaning yet. Safe; no arm of this model answers it. -/
  | notModelled (mnemonic : String)
deriving DecidableEq, Repr

/-- The one element of Fq12 that 43_pairing R231 calls 1, the value of ACC_F when PAIRING enters COMPUTE (10_state R51). -/
def fq12One : Fq12 :=
  ⟨⟨⟨⟨1, by decide⟩, ⟨0, by decide⟩⟩, ⟨⟨0, by decide⟩, ⟨0, by decide⟩⟩, ⟨⟨0, by decide⟩, ⟨0, by decide⟩⟩⟩,
   ⟨⟨⟨0, by decide⟩, ⟨0, by decide⟩⟩, ⟨⟨0, by decide⟩, ⟨0, by decide⟩⟩, ⟨⟨0, by decide⟩, ⟨0, by decide⟩⟩⟩⟩

/-- The machine right after power-on reset (70_reset R320). L_OP, L_LEN and ACC_* are unspecified there; the values here
are the model's (DESIGN CHOICE, log 9). No event is pending (log 1). -/
def State.reset : State where
  ie := false
  opCode := 0
  inLen := 0
  busy := false
  done := false
  err := false
  errKind := 0
  errDetail := false
  errPos := 0
  outLen := 0
  inBuf := []
  outBuf := []
  lOp := 0
  lLen := 0
  phase := .idle
  idx := 0
  accG1 := .inf
  accG2 := .inf
  accF := fq12One
  resets := 0
  draws := 0
  reply := .none
  inputs := []

end Sys2Proof.Machine
end

