-- ==== Sys2Proof/Machine/Flags.lean ====
section
/-! DEFINITION. The STATUS and CTRL words, the error codes and the interrupt line (10_state R33 to R38, R45, R46,
44_host_commands R265, 60_exceptions R280, R284, R289). -/
namespace Sys2Proof.Machine

/-- The kinds an operation's error can have (60_exceptions R280). -/
inductive ErrKind where
  | invalidInputLength
  | invalidFieldEncoding
  | pointNotOnCurve
  | incorrectSubgroup
  | invalidOperation
  | capacityExceeded
deriving DecidableEq, Repr

/-- The code of a kind in STATUS.ERR_KIND (60_exceptions R280). -/
def errCode : ErrKind → BitVec 3
  | .invalidInputLength => 1
  | .invalidFieldEncoding => 2
  | .pointNotOnCurve => 3
  | .incorrectSubgroup => 4
  | .invalidOperation => 5
  | .capacityExceeded => 6

/-- `Err(kind, pos, detail)` (00_scope R16). -/
structure OpError where
  kind : ErrKind
  pos : Nat
  detail : Bool
deriving DecidableEq, Repr

/-- `irq = STATUS.DONE AND CTRL.IE` (10_state R46). -/
def State.irq (s : State) : Bool := s.done && s.ie

/-- What a read of CTRL returns: IE in bit 2, the rest 0 (10_state R35). -/
def ctrlWord (s : State) : Word := BitVec.ofNat 32 (4 * s.ie.toNat)

/-- What a read of OP returns: OP_CODE in bits [3:0], the rest 0 (10_state R36). -/
def opWord (s : State) : Word := s.opCode.setWidth 32

/-- What a read of STATUS returns: BUSY | DONE<<1 | ERR<<2 | ERR_KIND<<4 | ERR_DETAIL<<8 (44_host_commands R265). -/
def statusWord (s : State) : Word :=
  BitVec.ofNat 32
    (s.busy.toNat + 2 * s.done.toNat + 4 * s.err.toNat + 16 * s.errKind.toNat + 256 * s.errDetail.toNat)

end Sys2Proof.Machine
end

