-- ==== Sys2Proof/Machine/Ops.lean ====
section
/-! DEFINITION. The named operations over memory and registers: reading and writing a byte array, what the sequencer and
the port read and write, the start of an operation, its two ends (a result, or an error: the one shared operation that
stands for taking an exception, 60_exceptions R291), the return from an error (R292), soft reset and reset. -/
namespace Sys2Proof.Machine

/-! ## Byte arrays (20_memory R71) -/

/-- The engine's two byte arrays (20_memory R71). -/
inductive Region where
  | inBuf
  | outBuf
deriving DecidableEq, Repr

/-- What an unlisted byte reads as: in IN_BUF nothing, the byte was never written (10_state R52, log 7); in OUT_BUF 0,
its reset content (10_state R44). -/
def Memory.unlisted : Region → Option Byte
  | .inBuf => none
  | .outBuf => some 0

/-- The byte at `a`. -/
def Memory.get (r : Region) : Memory → Nat → Option Byte
  | [], _ => Memory.unlisted r
  | c :: m, a => bif Nat.beq c.1 a then some c.2 else Memory.get r m a

/-- The cell that makes address `a` read as `b`, or none where an unlisted byte reads so. -/
def Memory.cell (r : Region) (a : Nat) (b : Byte) : Memory :=
  if Memory.unlisted r = some b then [] else [(a, b)]

/-- `m` with the byte `b` at `a`; the canonical form is kept. -/
def Memory.set (r : Region) : Memory → Nat → Byte → Memory
  | [], a, b => Memory.cell r a b
  | c :: m, a, b =>
    bif Nat.blt a c.1 then Memory.cell r a b ++ c :: m
    else bif Nat.beq a c.1 then Memory.cell r a b ++ m
    else c :: Memory.set r m a b

/-- `m` with the bytes of `bs` at `a`, `a + 1`, … -/
def Memory.setBytes (r : Region) (m : Memory) (a : Nat) : List Byte → Memory
  | [] => m
  | b :: bs => Memory.setBytes r (Memory.set r m a b) (a + 1) bs

/-- The canonical form: addresses strictly rising from `lo`, no entry that an unlisted address reads as. -/
def Memory.wfFrom (r : Region) : (lo : Nat) → Memory → Bool
  | _, [] => true
  | lo, c :: m => decide (lo ≤ c.1) && decide (Memory.unlisted r ≠ some c.2) && Memory.wfFrom r (c.1 + 1) m

/-- The canonical form of a byte array. -/
def Memory.wf (r : Region) (m : Memory) : Bool := Memory.wfFrom r 0 m

/-- Every listed address is below `size`. -/
def Memory.below (size : Nat) (m : Memory) : Prop := ∀ c ∈ m, c.1 < size

/-! ## What the sequencer reads (00_scope R15, 10_state R52) -/

/-- `WRITTEN[i]` (10_state R52). -/
def State.written (s : State) (i : Nat) : Bool := (Memory.get .inBuf s.inBuf i).isSome

/-- `WRITTEN[i]` for every `i < n` (42_dispatch R208). -/
def State.allWritten (s : State) (n : Nat) : Bool := (List.range n).all s.written

/-- `IN_BUF[i]`: the byte written, or the free value the byte has held since the last power-on (70_reset R323). -/
def State.inByte (s : State) (i : Nat) : Byte :=
  match Memory.get .inBuf s.inBuf i with
  | some b => b
  | none => Config.powerOnByte s.resets i

/-- `OUT_BUF[i]` (10_state R44). -/
def State.outByte (s : State) (i : Nat) : Byte :=
  match Memory.get .outBuf s.outBuf i with
  | some b => b
  | none => 0

/-- `MemRead(a, n)`: the bytes `IN_BUF[a..a+n)` (00_scope R15). -/
def State.memRead (s : State) (a n : Nat) : List Byte := (List.range n).map fun j => s.inByte (a + j)

/-! ## Registers -/

def State.setReply (s : State) (r : Reply) : State := { s with reply := r }
/-- `CTRL.IE <- v` (44_host_commands R264). -/
def State.setIe (s : State) (v : Bool) : State := { s with ie := v }
/-- `OP.OP_CODE <- v` (44_host_commands R267). -/
def State.setOpCode (s : State) (v : BitVec 4) : State := { s with opCode := v }
/-- `IN_LEN <- v` (44_host_commands R267). -/
def State.setInLen (s : State) (v : Word) : State := { s with inLen := v }
/-- Store bytes into IN_BUF; a stored byte is written (44_host_commands R268). -/
def State.storeIn (s : State) (a : Nat) (bs : List Byte) : State :=
  { s with inBuf := Memory.setBytes .inBuf s.inBuf a bs }
def State.setPhase (s : State) (p : Phase) : State := { s with phase := p }
def State.setIdx (s : State) (i : Nat) : State := { s with idx := i }
def State.setAccG1 (s : State) (q : G1) : State := { s with accG1 := q }
def State.setAccG2 (s : State) (q : G2) : State := { s with accG2 := q }
def State.setAccF (s : State) (f : Fq12) : State := { s with accF := f }
/-- One more free value drawn (log 10). -/
def State.draw (s : State) : State := { s with draws := s.draws + 1 }
def State.setInputs (s : State) (es : List Event) : State := { s with inputs := es }

/-! ## Start of an operation -/

/-- An accepted START, before the IE write (44_host_commands R260): the operation and its length are latched, the results
of the operation before are cleared, BUSY is set. -/
def State.begin (s : State) : State :=
  { s with
    lOp := s.opCode, lLen := s.inLen
    done := false, err := false, errKind := 0, errDetail := false
    errPos := 0, outLen := 0, outBuf := []
    phase := .validate, idx := 0, busy := true }

/-! ## End of an operation (44_host_commands R266) -/

/-- The last lines of the completion: `PHASE <- IDLE ; IDX <- 0 ; BUSY <- 0 ; DONE <- 1`. -/
def State.finish (s : State) : State := { s with phase := .idle, idx := 0, busy := false, done := true }

/-- The completion of a successful operation: `MemWrite(0, |S|, S) ; OUT_LEN <- |S|`, then idle and done
(44_host_commands R266, 42_dispatch R209). -/
def State.finishOk (s : State) (out : List Byte) : State :=
  State.finish { s with
    outBuf := Memory.setBytes .outBuf s.outBuf 0 out
    outLen := BitVec.ofNat 32 out.length }

/-- The completion of a failed operation, the engine's one way of taking an exception: the error is recorded, OUT_BUF and
OUT_LEN stay, then idle and done (44_host_commands R266, 60_exceptions R291). -/
def State.finishErr (s : State) (e : OpError) : State :=
  State.finish { s with
    err := true, errKind := errCode e.kind, errDetail := e.detail, errPos := BitVec.ofNat 32 e.pos }

/-- `STATUS.DONE <- 0`: the acknowledgement, the return from an error or a result (44_host_commands R263,
60_exceptions R292). -/
def State.clearDone (s : State) : State := { s with done := false }

/-! ## Resets -/

/-- What the two resets share (44_host_commands R262, 70_reset R320, R321): every register at its reset value, OUT_BUF
zero, the sequencer idle, L_OP, L_LEN and ACC_* unspecified: free values (U3, log 10). IN_BUF keeps its bytes. -/
def State.clearAll (s : State) : State :=
  { s with
    ie := false, opCode := 0, inLen := 0
    busy := false, done := false, err := false, errKind := 0, errDetail := false
    errPos := 0, outLen := 0, outBuf := []
    phase := .idle, idx := 0
    lOp := Config.freeLOp s.draws, lLen := Config.freeLLen s.draws
    accG1 := Config.freeAccG1 s.draws, accG2 := Config.freeAccG2 s.draws, accF := Config.freeAccF s.draws
    draws := s.draws + 1 }

/-- A reset event (70_reset R320): as above, and IN_BUF holds new unspecified bytes, none of them written (log 7, 13). -/
def State.powerOn (s : State) : State :=
  { s.clearAll with inBuf := [], resets := s.resets + 1, reply := .none }

end Sys2Proof.Machine
end

