-- ==== Sys2Proof/Machine/Commands.lean ====
section
/-! DEFINITION. The host commands (44_host_commands R260 to R264). -/
namespace Sys2Proof.Machine

/-- The end of every CTRL write: `CTRL.IE <- v[2]`, `resp <- OKAY` (44_host_commands R264). -/
def ctrlWriteEnd (ie : Bool) (s : State) : Host.Outcome State Fault Refusal := .next ((s.setIe ie).setReply .writeOkay)

/-- START: accepted while idle, ignored while BUSY; IE is written either way (44_host_commands R260). -/
def execStart (ie : Bool) (s : State) : Host.Outcome State Fault Refusal :=
  ctrlWriteEnd ie (bif s.busy then s else s.begin)

/-- SRST: soft reset, the START bit ignored, IE written after it (44_host_commands R262). -/
def execSrst (_start ie : Bool) (s : State) : Host.Outcome State Fault Refusal := ctrlWriteEnd ie s.clearAll

/-- A CTRL write with no command: IE alone (44_host_commands R264). -/
def execIeWrite (ie : Bool) (s : State) : Host.Outcome State Fault Refusal := ctrlWriteEnd ie s

/-- DONE clear (44_host_commands R263). -/
def execDoneClr (s : State) : Host.Outcome State Fault Refusal := .next (s.clearDone.setReply .writeOkay)

end Sys2Proof.Machine
end

