-- ==== Sys2Proof/Machine/Field.lean ====
section
/-! DEFINITION. Exact arithmetic of Fq and Fq2 (42_dispatch R200, R201). -/
namespace Sys2Proof.Machine

/-- The operations a group law needs of its field. A dictionary passed to the shared group law, so that it is written
once for Fq and Fq2 (42_dispatch R203). -/
structure FieldOps (F : Type) where
  add : F → F → F
  sub : F → F → F
  mul : F → F → F
  div : F → F → F
  /-- An integer constant of a formula (42_dispatch R201). -/
  ofNat : Nat → F

/-- The binary digits of `n`, least significant first, at most `fuel` of them. -/
def digits : (fuel : Nat) → Nat → List Bool
  | 0, _ => []
  | fuel + 1, n => Nat.beq (n % 2) 1 :: digits fuel (n / 2)

/-- The binary digits of `n`, least significant first. -/
def binary (n : Nat) : List Bool := digits (n.log2 + 1) n

/-- Square-and-multiply (double-and-add) of `a`, the top digit first: the `n`-fold product of `a` when `op` is
associative with neutral element `e` (log 15). -/
def iterOp {α : Type} (op : α → α → α) (e a : α) (n : Nat) : α :=
  (binary n).foldr (fun d acc => bif d then op (op acc acc) a else op acc acc) e

/-- The Fq value `n mod P` (42_dispatch R201). -/
def fqOfNat (n : Nat) : Fq := ⟨n % Config.P, Nat.mod_lt _ (by decide)⟩

def fqAdd (a b : Fq) : Fq := fqOfNat (a.val + b.val)
def fqMul (a b : Fq) : Fq := fqOfNat (a.val * b.val)
def fqSub (a b : Fq) : Fq := fqOfNat (a.val + (Config.P - b.val))

/-- `b^(P-2)`, the inverse of a non-zero `b` (42_dispatch R201). -/
def fqInv (b : Fq) : Fq := iterOp fqMul (fqOfNat 1) b (Config.P - 2)

/-- `a / b = a * b^(P-2) mod P` (42_dispatch R201). -/
def fqDiv (a b : Fq) : Fq := fqMul a (fqInv b)

/-- Fq (42_dispatch R201). -/
def fqOps : FieldOps Fq := ⟨fqAdd, fqSub, fqMul, fqDiv, fqOfNat⟩

def fq2Add (a b : Fq2) : Fq2 := ⟨fqAdd a.c0 b.c0, fqAdd a.c1 b.c1⟩
def fq2Sub (a b : Fq2) : Fq2 := ⟨fqSub a.c0 b.c0, fqSub a.c1 b.c1⟩

/-- `(a0*b0 + NR*a1*b1, a0*b1 + a1*b0)` (42_dispatch R201). -/
def fq2Mul (a b : Fq2) : Fq2 :=
  ⟨fqAdd (fqMul a.c0 b.c0) (fqMul (fqMul Config.NR a.c1) b.c1), fqAdd (fqMul a.c0 b.c1) (fqMul a.c1 b.c0)⟩

/-- `a * (b0/d, -b1/d)` with `d = b0*b0 - NR*b1*b1` (42_dispatch R201). -/
def fq2Div (a b : Fq2) : Fq2 :=
  let d := fqSub (fqMul b.c0 b.c0) (fqMul (fqMul Config.NR b.c1) b.c1)
  fq2Mul a ⟨fqDiv b.c0 d, fqDiv (fqSub (fqOfNat 0) b.c1) d⟩

/-- An integer constant in Fq2 is `(c mod P, 0)` (42_dispatch R201). -/
def fq2OfNat (n : Nat) : Fq2 := ⟨fqOfNat n, fqOfNat 0⟩

/-- Fq2 (42_dispatch R201). -/
def fq2Ops : FieldOps Fq2 := ⟨fq2Add, fq2Sub, fq2Mul, fq2Div, fq2OfNat⟩

end Sys2Proof.Machine
end

