-- ==== Sys2Proof/Machine/Curve.lean ====
section
/-! DEFINITION. Curve equation, group law, scalar multiplication and subgroup test, each once over a field dictionary
(41_validator R173, R175, 42_dispatch R203 to R205). -/
namespace Sys2Proof.Machine

variable {F : Type} [DecidableEq F]

/-- `y*y = x*x*x + b` (41_validator R173); `Inf` passes (R172). -/
def onCurve (K : FieldOps F) (b : F) : Point F → Bool
  | .inf => true
  | .aff x y => decide (K.mul y y = K.add (K.mul (K.mul x x) x) b)

/-- `-Inf = Inf`, `-Aff(x, y) = Aff(x, -y)` (42_dispatch R203). -/
def pointNeg (K : FieldOps F) : Point F → Point F
  | .inf => .inf
  | .aff x y => .aff x (K.sub (K.ofNat 0) y)

/-- The slope of the line through two affine points, or of the tangent where `x1 = x2` (42_dispatch R203). -/
def slope (K : FieldOps F) (x1 y1 x2 y2 : F) : F :=
  if x1 = x2 then K.div (K.mul (K.mul (K.ofNat 3) x1) x1) (K.mul (K.ofNat 2) y1)
  else K.div (K.sub y2 y1) (K.sub x2 x1)

/-- The group law (42_dispatch R203). -/
def pointAdd (K : FieldOps F) : Point F → Point F → Point F
  | .inf, q => q
  | .aff x1 y1, .inf => .aff x1 y1
  | .aff x1 y1, .aff x2 y2 =>
    if x1 = x2 ∧ y1 = K.sub (K.ofNat 0) y2 then .inf
    else
      let lam := slope K x1 y1 x2 y2
      let x3 := K.sub (K.sub (K.mul lam lam) x1) x2
      .aff x3 (K.sub (K.mul lam (K.sub x1 x3)) y1)

/-- `[s]Q`, the scalar not reduced (42_dispatch R204), by doubling and adding (log 15). -/
def pointMul (K : FieldOps F) (s : Nat) (q : Point F) : Point F := iterOp (pointAdd K) .inf q s

/-- `[R]Q = Inf`, the subgroup test for a point on its curve (41_validator R175). -/
def inSubgroup (K : FieldOps F) (q : Point F) : Bool := decide (pointMul K Config.R q = .inf)

end Sys2Proof.Machine
end

