-- ==== Sys2Proof/Machine/Operands.lean ====
section
/-! DEFINITION. The byte codec, every operand and result form (30_encoding R104 to R109, 40_codec R140 to R150), and the
frames: input lengths and operand lists (30_encoding R120 to R123). -/
namespace Sys2Proof.Machine

/-! ## Byte strings (00_scope R11) -/

/-- `be(S)`, the big-endian value. -/
def be (bs : List Byte) : Nat := bs.foldl (fun v b => 256 * v + b.toNat) 0

/-- `be_n(v)`, the `n`-byte string whose big-endian value is `v`. -/
def beBytes : (n : Nat) → Nat → List Byte
  | 0, _ => []
  | n + 1, v => beBytes n (v / 256) ++ [BitVec.ofNat 8 v]

/-- `0^n`. -/
def zeros (n : Nat) : List Byte := List.replicate n 0

/-- Every byte is zero: the infinity sentinel's test and the padding test. -/
def allZero (bs : List Byte) : Bool := bs.all fun b => decide (b = 0)

/-! ## Decoding (40_codec R140 to R144) -/

/-- `decode_fq` (40_codec R140): padding before range. -/
def decodeFq (w : List Byte) (pos : Nat) : Except OpError Fq :=
  if allZero (w.take 16) then
    if h : be (w.drop 16) < Config.P then .ok ⟨be (w.drop 16), h⟩
    else .error ⟨.invalidFieldEncoding, pos, true⟩
  else .error ⟨.invalidFieldEncoding, pos, false⟩

/-- Two operands decoded in wire order, the first error winning (40_codec R141, R143, R144). -/
def decodePair {α β : Type} (first : Except OpError α) (second : Except OpError β) : Except OpError (α × β) :=
  match first with
  | .error e => .error e
  | .ok a =>
    match second with
    | .error e => .error e
    | .ok b => .ok (a, b)

/-- `decode_fq2` (40_codec R141): c0 first. -/
def decodeFq2 (bs : List Byte) (pos : Nat) : Except OpError Fq2 :=
  match decodePair (decodeFq (bs.take 64) pos) (decodeFq (bs.drop 64) (pos + 64)) with
  | .ok (c0, c1) => .ok ⟨c0, c1⟩
  | .error e => .error e

/-- `decode_fr` (40_codec R142): not reduced, no failure. -/
def decodeFr (bs : List Byte) : Nat := be bs

/-- `decode_g1` (40_codec R143): the sentinel first, then x, then y. -/
def decodeG1 (bs : List Byte) (pos : Nat) : Except OpError G1 :=
  if allZero bs then .ok .inf
  else
    match decodePair (decodeFq (bs.take 64) pos) (decodeFq (bs.drop 64) (pos + 64)) with
    | .ok (x, y) => .ok (.aff x y)
    | .error e => .error e

/-- `decode_g2` (40_codec R144): the sentinel first, then x, then y. -/
def decodeG2 (bs : List Byte) (pos : Nat) : Except OpError G2 :=
  if allZero bs then .ok .inf
  else
    match decodePair (decodeFq2 (bs.take 128) pos) (decodeFq2 (bs.drop 128) (pos + 128)) with
    | .ok (x, y) => .ok (.aff x y)
    | .error e => .error e

/-! ## Encoding (40_codec R146 to R150) -/

/-- `encode_fq` (40_codec R146). -/
def encodeFq (v : Fq) : List Byte := zeros 16 ++ beBytes 48 v.val

/-- `encode_fq2` (40_codec R147). -/
def encodeFq2 (v : Fq2) : List Byte := encodeFq v.c0 ++ encodeFq v.c1

/-- `encode_g1` (40_codec R148). -/
def encodeG1 : G1 → List Byte
  | .inf => zeros 128
  | .aff x y => encodeFq x ++ encodeFq y

/-- `encode_g2` (40_codec R149). -/
def encodeG2 : G2 → List Byte
  | .inf => zeros 256
  | .aff x y => encodeFq2 x ++ encodeFq2 y

/-- `encode_bool32` (40_codec R150). -/
def encodeBool32 (t : Bool) : List Byte := zeros 31 ++ [if t then 1 else 0]

/-! ## Frames (30_encoding R120 to R123) -/

/-- The seven operations (30_encoding R100). -/
inductive Operation where
  | g1add
  | g1mul
  | g1multiexp
  | g2add
  | g2mul
  | g2multiexp
  | pairing
deriving DecidableEq, Repr

/-- The types of operand (30_encoding R122). -/
inductive OperandType where
  | g1pt
  | g2pt
  | scalar
deriving DecidableEq, Repr

/-- One operand, a type and a byte offset in the input (30_encoding R122). -/
structure Operand where
  type : OperandType
  off : Nat
deriving DecidableEq, Repr

/-- The bytes of one frame: the input length of a fixed-length operation, `unit(op)` of the others (30_encoding R120). -/
def frameBytes : Operation → Nat
  | .g1add => 256
  | .g1mul => 160
  | .g1multiexp => 160
  | .g2add => 512
  | .g2mul => 288
  | .g2multiexp => 288
  | .pairing => 384

/-- The operations that take exactly one frame (30_encoding R120). -/
def fixedLength : Operation → Bool
  | .g1add | .g1mul | .g2add | .g2mul => true
  | .g1multiexp | .g2multiexp | .pairing => false

/-- `length_ok(op, n)` (30_encoding R120). -/
def lengthOk (op : Operation) (n : Nat) : Bool :=
  bif fixedLength op then Nat.beq n (frameBytes op)
  else Nat.beq (n % frameBytes op) 0 && Nat.ble (frameBytes op) n

/-- `k`, the number of frames (30_encoding R120, R124). -/
def pairCount (op : Operation) (n : Nat) : Nat := n / frameBytes op

/-- The operands of one frame, at offsets in the frame (30_encoding R122, R123). -/
def frameOperands : Operation → List Operand
  | .g1add => [⟨.g1pt, 0⟩, ⟨.g1pt, 128⟩]
  | .g1mul | .g1multiexp => [⟨.g1pt, 0⟩, ⟨.scalar, 128⟩]
  | .g2add => [⟨.g2pt, 0⟩, ⟨.g2pt, 256⟩]
  | .g2mul | .g2multiexp => [⟨.g2pt, 0⟩, ⟨.scalar, 256⟩]
  | .pairing => [⟨.g1pt, 0⟩, ⟨.g2pt, 128⟩]

/-- `operands(op, n)`, in input order (30_encoding R122). -/
def operands (op : Operation) (n : Nat) : List Operand :=
  (List.range (pairCount op n)).flatMap fun i =>
    (frameOperands op).map fun o => ⟨o.type, frameBytes op * i + o.off⟩

end Sys2Proof.Machine
end

