-- ==== Sys2Proof/Machine/Group.lean ====
section
/-! DEFINITION. What the two groups differ in, as a dictionary (42_dispatch R202), so that validation and the group
operations are written once. -/
namespace Sys2Proof.Machine

/-- One of the two groups: its field, curve coefficient, codec and accumulator register. -/
structure CurveGroup (F : Type) where
  ops : FieldOps F
  coeffB : F
  /-- Bytes of an encoded point (30_encoding R107, R108). -/
  pointBytes : Nat
  decodePoint : List Byte → Nat → Except OpError (Point F)
  encodePoint : Point F → List Byte
  acc : State → Point F
  setAcc : State → Point F → State

/-- G1: Fq, `B1`, 128-byte points, ACC_G1. -/
def groupG1 : CurveGroup Fq where
  ops := fqOps
  coeffB := Config.B1
  pointBytes := 128
  decodePoint := decodeG1
  encodePoint := encodeG1
  acc := State.accG1
  setAcc := State.setAccG1

/-- G2: Fq2, `B2`, 256-byte points, ACC_G2. -/
def groupG2 : CurveGroup Fq2 where
  ops := fq2Ops
  coeffB := Config.B2
  pointBytes := 256
  decodePoint := decodeG2
  encodePoint := encodeG2
  acc := State.accG2
  setAcc := State.setAccG2

/-- The point operand at input offset `off` (40_codec R143, R144). -/
def readPoint {F : Type} (G : CurveGroup F) (s : State) (off : Nat) : Except OpError (Point F) :=
  G.decodePoint (s.memRead off G.pointBytes) off

/-- The scalar operand at input offset `off` (40_codec R142). -/
def readScalar (s : State) (off : Nat) : Nat := decodeFr (s.memRead off 32)

end Sys2Proof.Machine
end

