-- ==== Sys2Proof/Machine/Validate.lean ====
section
/-! DEFINITION. The checks of one operand, their order, and the evaluation of an operation up to its result
(41_validator, 42_dispatch R208). -/
namespace Sys2Proof.Machine

/-- The checks of one decoded point at `pos`: on-curve, then, where `sub` asks it, subgroup; `Inf` passes both
(41_validator R172, R174, R176). -/
def checkPoint {F : Type} [DecidableEq F] (G : CurveGroup F) (sub : Bool) (pos : Nat) (q : Point F) : Except OpError Unit :=
  if q = .inf then .ok ()
  else bif onCurve G.ops G.coeffB q then
    bif sub && !inSubgroup G.ops q then .error ⟨.incorrectSubgroup, pos, false⟩ else .ok ()
  else .error ⟨.pointNotOnCurve, pos, false⟩

/-- Decode one point operand and check it (41_validator R180). -/
def validatePoint {F : Type} [DecidableEq F] (G : CurveGroup F) (sub : Bool) (s : State) (off : Nat) :
    Except OpError Unit :=
  match readPoint G s off with
  | .error e => .error e
  | .ok q => checkPoint G sub off q

/-- Every check of one operand; a scalar has none (41_validator R177, R180). -/
def validateOperand (sub : Bool) (s : State) (o : Operand) : Except OpError Unit :=
  match o.type with
  | .scalar => .ok ()
  | .g1pt => validatePoint groupG1 sub s o.off
  | .g2pt => validatePoint groupG2 sub s o.off

/-- The operands in input order; the first error ends the scan (41_validator R180, R184). -/
def validateAll (sub : Bool) (s : State) : List Operand → Except OpError Unit
  | [] => .ok ()
  | o :: os =>
    match validateOperand sub s o with
    | .error e => .error e
    | .ok () => validateAll sub s os

/-- Only PAIRING asks for the subgroup (41_validator R176, R187). -/
def needsSubgroup (op : Operation) : Bool := decide (op = .pairing)

/-- `validate(op, n)` (41_validator R180). -/
def validate (op : Operation) (n : Nat) (s : State) : Except OpError Unit :=
  validateAll (needsSubgroup op) s (operands op n)

/-- The result of an evaluation (00_scope R16): the output with the sequencer's registers as the computation leaves them,
an error, or the model fault. -/
inductive Evaluation where
  | ok (s : State) (out : List Byte)
  | err (e : OpError)
  | unwritten
deriving DecidableEq, Repr

/-- A computation over a validated input of `n` bytes: the state with the accumulators it leaves, and the output. Its
operands are decoded again (42_dispatch R208); an error of that second decoding cannot occur. -/
abbrev Compute := Nat → State → Except OpError (State × List Byte)

/-- `evaluate(op, n)` for an operation code that selects `op` (42_dispatch R208): length, capacity, written input,
validation, computation. -/
def evaluate (op : Operation) (compute : Compute) (n : Nat) (s : State) : Evaluation :=
  bif !lengthOk op n then .err ⟨.invalidInputLength, 0, false⟩
  else bif !Config.fitsInBuf n then .err ⟨.capacityExceeded, 0, false⟩
  else bif !s.allWritten n then .unwritten
  else
    match validate op n s with
    | .error e => .err e
    | .ok () =>
      match compute n (s.setPhase .compute) with
      | .error e => .err e
      | .ok (s', out) => .ok (s'.setPhase .writeback) out

/-- The completion step with the result of an evaluation (44_host_commands R266). -/
def complete (s : State) : Evaluation → Host.Outcome State Fault Refusal
  | .ok s' out => .next (s'.finishOk out)
  | .err e => .next (s.finishErr e)
  | .unwritten => .fault .unwrittenInput

/-- The completion step of the operation `op` (44_host_commands R266). -/
def runOperation (op : Operation) (compute : Compute) (n : Nat) (s : State) : Host.Outcome State Fault Refusal :=
  complete s (evaluate op compute n s)

/-- The completion step of a reserved operation code: `InvalidOperation`, before every other check (42_dispatch R208,
30_encoding R125). -/
def completeReserved (s : State) : Host.Outcome State Fault Refusal :=
  complete s (.err ⟨.invalidOperation, 0, false⟩)

end Sys2Proof.Machine
end

