-- ==== Sys2Proof/Machine/GroupOps.lean ====
section
/-! DEFINITION. The six group operations (42_dispatch R210 to R215). -/
namespace Sys2Proof.Machine

variable {F : Type} [DecidableEq F]

/-- `ACC <- ACC + q`. -/
def accumulate (G : CurveGroup F) (s : State) (q : Point F) : State := G.setAcc s (pointAdd G.ops (G.acc s) q)

/-- ADD (42_dispatch R210, R213): both points, `ACC <- Inf`, then their sum. -/
def addCompute (G : CurveGroup F) : Compute := fun _ s =>
  match decodePair (readPoint G s 0) (readPoint G s G.pointBytes) with
  | .error e => .error e
  | .ok (a, b) =>
    let s := accumulate G (accumulate G (G.setAcc s .inf) a) b
    .ok (s, G.encodePoint (G.acc s))

/-- MUL (42_dispatch R211, R214): `ACC <- [s]Q`, the scalar not reduced. -/
def mulCompute (G : CurveGroup F) : Compute := fun _ s =>
  match readPoint G s 0 with
  | .error e => .error e
  | .ok q =>
    let s := G.setAcc s (pointMul G.ops (readScalar s G.pointBytes) q)
    .ok (s, G.encodePoint (G.acc s))

/-- The pairs of a MULTIEXP in input order, `IDX <- i`, `ACC <- ACC + [s_i]Q_i` (42_dispatch R212, R215). -/
def multiExpLoop (G : CurveGroup F) (unit : Nat) : List Nat → State → Except OpError State
  | [], s => .ok s
  | i :: is, s =>
    match readPoint G s (unit * i) with
    | .error e => .error e
    | .ok q =>
      let term := pointMul G.ops (readScalar s (unit * i + G.pointBytes)) q
      multiExpLoop G unit is (accumulate G (s.setIdx i) term)

/-- MULTIEXP over frames of `unit` bytes (42_dispatch R212, R215). -/
def multiExpCompute (G : CurveGroup F) (unit : Nat) : Compute := fun n s =>
  match multiExpLoop G unit (List.range (n / unit)) (G.setAcc s .inf) with
  | .error e => .error e
  | .ok s => .ok (s, G.encodePoint (G.acc s))

/-- G1ADD (42_dispatch R210). -/
def execG1Add (inLen : Nat) (s : State) : Host.Outcome State Fault Refusal :=
  runOperation .g1add (addCompute groupG1) inLen s

/-- G1MUL (42_dispatch R211). -/
def execG1Mul (inLen : Nat) (s : State) : Host.Outcome State Fault Refusal :=
  runOperation .g1mul (mulCompute groupG1) inLen s

/-- G1MULTIEXP (42_dispatch R212). -/
def execG1MultiExp (inLen : Nat) (s : State) : Host.Outcome State Fault Refusal :=
  runOperation .g1multiexp (multiExpCompute groupG1 160) inLen s

/-- G2ADD (42_dispatch R213). -/
def execG2Add (inLen : Nat) (s : State) : Host.Outcome State Fault Refusal :=
  runOperation .g2add (addCompute groupG2) inLen s

/-- G2MUL (42_dispatch R214). -/
def execG2Mul (inLen : Nat) (s : State) : Host.Outcome State Fault Refusal :=
  runOperation .g2mul (mulCompute groupG2) inLen s

/-- G2MULTIEXP (42_dispatch R215). -/
def execG2MultiExp (inLen : Nat) (s : State) : Host.Outcome State Fault Refusal :=
  runOperation .g2multiexp (multiExpCompute groupG2 288) inLen s

end Sys2Proof.Machine
end

