-- ==== Sys2Proof/Laws/Basic.lean ====
section
/-! SUPPORT. The Boolean tests the model evaluates, as propositions. -/
namespace Sys2Proof

theorem natBeq_eq (a b : Nat) : Nat.beq a b = decide (a = b) := by
  rw [Bool.eq_iff_iff]; simp [Nat.beq_eq]

theorem natBlt_eq (a b : Nat) : Nat.blt a b = decide (a < b) := by
  rw [Bool.eq_iff_iff]; simp [Nat.blt_eq]

theorem natBle_eq (a b : Nat) : Nat.ble a b = decide (a ≤ b) := by
  rw [Bool.eq_iff_iff]; simp [Nat.ble_eq]

@[simp] theorem cond_natBeq {α : Type} (a b : Nat) (x y : α) :
    (bif Nat.beq a b then x else y) = if a = b then x else y := by
  rw [natBeq_eq, Bool.cond_decide]

@[simp] theorem cond_natBlt {α : Type} (a b : Nat) (x y : α) :
    (bif Nat.blt a b then x else y) = if a < b then x else y := by
  rw [natBlt_eq, Bool.cond_decide]

end Sys2Proof
end

