-- ==== Sys2Proof/Laws/Prime.lean ====
section
/-! SUPPORT. `Config.P` is prime (00_scope R7 calls it so): every prime divisor of it is 1 modulo a large known divisor of
`P - 1`, and no product of two such numbers is `P`. -/
namespace Sys2Proof

/-- `a^n mod m` by squaring, the digits of `n` consumed from the lowest. -/
def powMod (m : Nat) : (fuel : Nat) → (a n acc : Nat) → Nat
  | 0, _, _, acc => acc
  | fuel + 1, a, n, acc => powMod m fuel (a * a % m) (n / 2) (bif Nat.beq (n % 2) 1 then acc * a % m else acc)

theorem powMod_cast {m fuel a n acc : Nat} (h : n < 2 ^ fuel) :
    ((powMod m fuel a n acc : Nat) : ZMod m) = (acc : ZMod m) * (a : ZMod m) ^ n := by
  induction fuel generalizing a n acc with
  | zero => obtain rfl : n = 0 := by simpa using h
            simp [powMod]
  | succ fuel ih =>
    rw [powMod, ih (by rw [pow_succ] at h; omega)]
    have hn : n = 2 * (n / 2) + n % 2 := by omega
    have hbit : n % 2 = 0 ∨ n % 2 = 1 := by omega
    rcases hbit with hb | hb
    · rw [hb]
      conv_rhs => rw [hn, hb, add_zero, pow_mul]
      simp [pow_two, show Nat.beq 0 1 = false from rfl]
    · rw [hb]
      conv_rhs => rw [hn, hb, pow_succ, pow_mul]
      simp [pow_two]
      ring

/-- A witness `a` with `a^(N-1) = 1` and `a^((N-1)/q) - 1` invertible mod `N` for the primes `q` of `F` makes every
prime divisor of `N` be 1 mod `F` (Pocklington). -/
theorem dvd_sub_one_of_witness {N F a : Nat} (hF : F ∣ N - 1) (hN : 1 < N) (hpow : (a : ZMod N) ^ (N - 1) = 1)
    (hq : ∀ q, q.Prime → q ∣ F → ∃ u : ZMod N, ((a : ZMod N) ^ ((N - 1) / q) - 1) * u = 1) {p : Nat} (hp : p.Prime)
    (hpN : p ∣ N) : F ∣ p - 1 := by
  have : Fact p.Prime := ⟨hp⟩
  obtain ⟨C, hC⟩ := hF
  have hC0 : 0 < F := by rcases Nat.eq_zero_or_pos F with h | h
                         · rw [h] at hC; omega
                         · exact h
  let f : ZMod N →+* ZMod p := ZMod.castHom hpN (ZMod p)
  have h1 : ((f a) ^ C) ^ F = 1 := by
    rw [← pow_mul, mul_comm C F, ← hC, ← map_pow, hpow, map_one]
  have h2 : ∀ q, q.Prime → q ∣ F → ((f a) ^ C) ^ (F / q) ≠ 1 := by
    intro q hqp hqF h
    obtain ⟨u, hu⟩ := hq q hqp hqF
    have he : C * (F / q) = (N - 1) / q := by
      rw [hC, mul_comm F C, Nat.mul_div_assoc _ hqF]
    rw [← pow_mul, he] at h
    have := congrArg f hu
    rw [map_mul, map_sub, map_pow, map_one, h, sub_self, zero_mul] at this
    exact zero_ne_one this
  have ho := orderOf_eq_of_pow_and_pow_div_prime hC0 h1 h2
  rw [← ho]
  have hne : (f a) ^ C ≠ 0 := by
    intro h
    rw [h, zero_pow (by omega)] at h1
    exact zero_ne_one h1
  exact orderOf_dvd_of_pow_eq_one (ZMod.pow_card_sub_one_eq_one hne)

/-- The largest small prime of `P - 1`. -/
theorem prime_6633514200929891813 : Nat.Prime 6633514200929891813 := by
  refine lucas_primality _ (2 : ZMod 6633514200929891813) ?_ fun q hq hd => ?_
  · have := powMod_cast (m := 6633514200929891813) (fuel := 64) (a := 2) (n := 6633514200929891812) (acc := 1) (by decide)
    rw [show powMod 6633514200929891813 64 2 6633514200929891812 1 = 1 by decide +kernel] at this
    simpa using this.symm
  · have hq' : q = 2 ∨ q = 19 ∨ q = 47521 ∨ q = 25537 ∨ q = 71924131 := by
      have : q ∣ 2 * (2 * (19 * (47521 * (25537 * 71924131)))) := by simpa using hd
      simp only [hq.dvd_mul] at this
      rw [Nat.prime_dvd_prime_iff_eq hq (by norm_num), Nat.prime_dvd_prime_iff_eq hq (by norm_num),
        Nat.prime_dvd_prime_iff_eq hq (by norm_num), Nat.prime_dvd_prime_iff_eq hq (by norm_num),
        Nat.prime_dvd_prime_iff_eq hq (by norm_num)] at this
      tauto
    have key : ∀ n r, n < 2 ^ 64 → powMod 6633514200929891813 64 2 n 1 = r → r ≠ 1 → r < 6633514200929891813 →
        (2 : ZMod 6633514200929891813) ^ n ≠ 1 := by
      intro n r hn hr h1 hlt h
      have := powMod_cast (m := 6633514200929891813) (fuel := 64) (a := 2) (n := n) (acc := 1) hn
      rw [hr, Nat.cast_one, one_mul, Nat.cast_ofNat, h, ← Nat.cast_one, ZMod.natCast_eq_natCast_iff'] at this
      rw [Nat.mod_eq_of_lt hlt] at this
      exact h1 this
    rcases hq' with rfl | rfl | rfl | rfl | rfl
    all_goals exact key _ _ (by decide) rfl (by decide +kernel) (by decide +kernel)

/-- The known divisor of `P - 1`. -/
def knownDivisor : Nat := 2 ^ 46 * (3 * (7 * (13 * (53 * (409 * (499 * (2557 * 6633514200929891813)))))))

theorem prime_dvd_knownDivisor {q : Nat} (hq : q.Prime) (hd : q ∣ knownDivisor) :
    q = 2 ∨ q = 3 ∨ q = 7 ∨ q = 13 ∨ q = 53 ∨ q = 409 ∨ q = 499 ∨ q = 2557 ∨ q = 6633514200929891813 := by
  rw [knownDivisor] at hd
  simp only [hq.dvd_mul] at hd
  have e {r : Nat} (hr : r.Prime) : q ∣ r ↔ q = r := Nat.prime_dvd_prime_iff_eq hq hr
  rw [e (r := 3) (by norm_num), e (r := 7) (by norm_num), e (r := 13) (by norm_num), e (r := 53) (by norm_num),
    e (r := 409) (by norm_num), e (r := 499) (by norm_num), e (r := 2557) (by norm_num),
    e prime_6633514200929891813] at hd
  have h2 : q ∣ 2 ^ 46 → q = 2 := fun h => (Nat.prime_dvd_prime_iff_eq hq Nat.prime_two).mp (hq.dvd_of_dvd_pow h)
  tauto

/-- `a^n` modulo `P`, evaluated. -/
theorem P_pow {a n r : Nat} (hn : n < 2 ^ 380) (hr : powMod Config.P 380 a n 1 = r) :
    (a : ZMod Config.P) ^ n = (r : ZMod Config.P) := by
  rw [← hr, powMod_cast hn, Nat.cast_one, one_mul]

/-- 15 is a witness for `P` and the known divisor. -/
theorem P_witness {q : Nat} (hq : q.Prime) (hd : q ∣ knownDivisor) :
    ∃ u : ZMod Config.P, (((15 : Nat) : ZMod Config.P) ^ ((Config.P - 1) / q) - 1) * u = 1 := by
  have key : ∀ n r, n < 2 ^ 380 → powMod Config.P 380 15 n 1 = r → Nat.Coprime (r + (Config.P - 1)) Config.P →
      ∃ u : ZMod Config.P, (((15 : Nat) : ZMod Config.P) ^ n - 1) * u = 1 := by
    intro n r hn hr hc
    refine ⟨((r + (Config.P - 1) : Nat) : ZMod Config.P)⁻¹, ?_⟩
    rw [P_pow hn hr]
    have : (r : ZMod Config.P) - 1 = ((r + (Config.P - 1) : Nat) : ZMod Config.P) := by
      rw [Nat.cast_add, Nat.cast_sub (by decide), ZMod.natCast_self]; ring
    rw [this]
    exact ZMod.coe_mul_inv_eq_one _ hc
  rcases prime_dvd_knownDivisor hq hd with rfl | rfl | rfl | rfl | rfl | rfl | rfl | rfl | rfl
  all_goals exact key _ _ (by decide +kernel) rfl (by decide +kernel)

theorem P_prime : Nat.Prime Config.P := by
  have h1 : (((15 : Nat) : ZMod Config.P)) ^ (Config.P - 1) = 1 := by
    rw [P_pow (n := Config.P - 1) (r := 1) (by decide +kernel) (by decide +kernel), Nat.cast_one]
  have key : ∀ {p}, p.Prime → p ∣ Config.P → knownDivisor ∣ p - 1 := fun hp hd =>
    dvd_sub_one_of_witness (N := Config.P) (F := knownDivisor) (a := 15) (by decide +kernel) (by decide) h1
      (fun q hq hd => P_witness hq hd) hp hd
  have hm := Nat.minFac_prime (n := Config.P) (by decide)
  obtain ⟨a, ha⟩ := key hm (Nat.minFac_dvd _)
  obtain ⟨n, hn⟩ := Nat.minFac_dvd Config.P
  have h2 := hm.two_le
  generalize Nat.minFac Config.P = m at *
  clear key h1
  obtain ⟨C, hC, hC1, hC2⟩ : ∃ C, Config.P = knownDivisor * C + 1 ∧ C / knownDivisor + 1 < C % knownDivisor ∧
      C < knownDivisor * knownDivisor := ⟨(Config.P - 1) / knownDivisor, by decide +kernel, by decide +kernel, by decide +kernel⟩
  have hF : 2 < knownDivisor := by decide +kernel
  generalize knownDivisor = F at *
  generalize Config.P = N at *
  obtain rfl : m = F * a + 1 := by omega
  obtain ⟨b, rfl⟩ : ∃ b, n = F * b + 1 := by
    have h : n % F = 1 := by
      have h' := congrArg (· % F) (hC.symm.trans hn)
      simp only [Nat.mul_add_mod, add_mul, one_mul, mul_assoc] at h'
      rw [← h', Nat.mod_eq_of_lt (by omega)]
    exact ⟨n / F, by have := Nat.div_add_mod n F; omega⟩
  rcases Nat.eq_zero_or_pos b with rfl | hb
  · rw [hn, Nat.mul_zero, Nat.zero_add, Nat.mul_one]; exact hm
  exfalso
  have ha : 0 < a := by rcases Nat.eq_zero_or_pos a with rfl | h
                        · simp at h2
                        · exact h
  have hCab : C = F * (a * b) + (a + b) := by
    have : F * C = F * (F * (a * b) + (a + b)) := by
      have := hC.symm.trans hn
      have h3 : F * C + 1 = F * (F * (a * b) + (a + b)) + 1 := by rw [this]; ring
      omega
    exact Nat.eq_of_mul_eq_mul_left (by omega) this
  have hs : a + b ≤ a * b + 1 := by nlinarith
  have hab : a * b < F := by
    by_contra hge
    have : F * F ≤ F * (a * b) := Nat.mul_le_mul_left _ (by omega)
    omega
  have hab' : a + b < F ∨ a + b = F := by omega
  have hdiv : a * b ≤ C / F := (Nat.le_div_iff_mul_le (by omega)).mpr (by rw [hCab, mul_comm]; omega)
  rcases hab' with h | h
  · rw [hCab, Nat.mul_add_mod, Nat.mod_eq_of_lt h, ← hCab] at hC1
    omega
  · rw [hCab, h, Nat.mul_add_mod, Nat.mod_self] at hC1
    exact Nat.not_lt_zero _ hC1

/-! ## The subgroup order -/

theorem X_prime : Nat.Prime Config.X := by
  have key : ∀ n r, n < 2 ^ 64 → powMod Config.X 64 11 n 1 = r → r ≠ 1 → r < Config.X →
      ((11 : Nat) : ZMod Config.X) ^ n ≠ 1 := by
    intro n r hn hr h1 hlt h
    have := powMod_cast (m := Config.X) (fuel := 64) (a := 11) (n := n) (acc := 1) hn
    rw [hr, Nat.cast_one, one_mul, h, ← Nat.cast_one, ZMod.natCast_eq_natCast_iff', Nat.mod_eq_of_lt hlt] at this
    exact h1 this
  refine lucas_primality _ ((11 : Nat) : ZMod Config.X) ?_ fun q hq hd => ?_
  · have := powMod_cast (m := Config.X) (fuel := 64) (a := 11) (n := Config.X - 1) (acc := 1) (by decide +kernel)
    rw [show powMod Config.X 64 11 (Config.X - 1) 1 = 1 by decide +kernel] at this
    simpa using this.symm
  · have hq' : q = 2 ∨ q = 3 ∨ q = 7 ∨ q = 13 ∨ q = 499 := by
      rw [show Config.X - 1 = 2 ^ 46 * (3 * (7 * (13 * 499))) by decide +kernel] at hd
      simp only [hq.dvd_mul] at hd
      have e {r : Nat} (hr : r.Prime) : q ∣ r ↔ q = r := Nat.prime_dvd_prime_iff_eq hq hr
      rw [e (r := 3) (by norm_num), e (r := 7) (by norm_num), e (r := 13) (by norm_num), e (r := 499) (by norm_num)] at hd
      have h2 : q ∣ 2 ^ 46 → q = 2 := fun h => (Nat.prime_dvd_prime_iff_eq hq Nat.prime_two).mp (hq.dvd_of_dvd_pow h)
      tauto
    rcases hq' with rfl | rfl | rfl | rfl | rfl
    all_goals exact key _ _ (by decide +kernel) rfl (by decide +kernel) (by decide +kernel)

/-- `R` is prime (00_scope R7): `X^2` divides `R - 1` and exceeds the square root of `R`. -/
theorem R_prime : Nat.Prime Config.R := by
  have hpow : ∀ n r, n < 2 ^ 254 → powMod Config.R 254 2 n 1 = r → ((2 : Nat) : ZMod Config.R) ^ n = (r : ZMod Config.R) := by
    intro n r hn hr
    rw [← hr, powMod_cast hn, Nat.cast_one, one_mul]
  have key : ∀ {p}, p.Prime → p ∣ Config.R → Config.X ^ 2 ∣ p - 1 := by
    intro p hp hd
    refine dvd_sub_one_of_witness (N := Config.R) (a := 2) (by decide +kernel) (by decide)
      (by rw [hpow (Config.R - 1) 1 (by decide +kernel) (by decide +kernel), Nat.cast_one]) (fun q hq hqX => ?_) hp hd
    obtain rfl : q = Config.X := (Nat.prime_dvd_prime_iff_eq hq X_prime).mp (hq.dvd_of_dvd_pow hqX)
    generalize hr : powMod Config.R 254 2 ((Config.R - 1) / Config.X) 1 = r
    refine ⟨((r + (Config.R - 1) : Nat) : ZMod Config.R)⁻¹, ?_⟩
    rw [hpow _ r (by decide +kernel) hr]
    have h : (r : ZMod Config.R) - 1 = ((r + (Config.R - 1) : Nat) : ZMod Config.R) := by
      rw [Nat.cast_add, Nat.cast_sub (by decide), ZMod.natCast_self]; ring
    rw [h]
    exact ZMod.coe_mul_inv_eq_one _ (by rw [← hr]; decide +kernel)
  have hm := Nat.minFac_prime (n := Config.R) (by decide)
  have h1 : ¬ Nat.Prime Config.R → Nat.minFac Config.R ^ 2 ≤ Config.R := Nat.minFac_sq_le_self (by decide)
  have h2 := key hm (Nat.minFac_dvd _)
  have h3 : Config.R < (Config.X ^ 2 + 1) ^ 2 := by decide +kernel
  clear key hpow
  generalize Nat.minFac Config.R = m at *
  generalize Config.R = N at *
  generalize Config.X ^ 2 = Y at *
  by_contra hn
  have h4 := hm.two_le
  have h5 := Nat.le_of_dvd (by omega) h2
  exact absurd (Nat.pow_le_pow_left (show Y + 1 ≤ m by omega) 2) (by have := h1 hn; omega)

end Sys2Proof
end

