-- ==== Sys2Proof/Laws/FieldLaws.lean ====
section
/-! SUPPORT. The two field dictionaries compute in fields: Fq in the integers modulo `P`, Fq2 in their quadratic extension
by a square root of -5 (42_dispatch R200, R201). -/
namespace Sys2Proof.Machine

/-! ## Square-and-multiply -/

/-- The number a list of binary digits stands for, least significant first. -/
def ofDigits : List Bool → Nat
  | [] => 0
  | d :: ds => 2 * ofDigits ds + d.toNat

theorem ofDigits_digits {fuel n : Nat} (h : n < 2 ^ fuel) : ofDigits (digits fuel n) = n := by
  induction fuel generalizing n with
  | zero => obtain rfl : n = 0 := by simpa using h
            rfl
  | succ fuel ih =>
    rw [digits, ofDigits, ih (by rw [pow_succ] at h; omega), natBeq_eq]
    by_cases hb : n % 2 = 1 <;> simp [hb] <;> omega

theorem ofDigits_binary (n : Nat) : ofDigits (binary n) = n := ofDigits_digits Nat.lt_log2_self

/-- Where `ψ` carries `op` to the product of a monoid, `iterOp` computes a power. -/
theorem iterOp_map {α M : Type} [Monoid M] {op : α → α → α} {e a : α} {ψ : α → M} {S : α → Prop} (he : S e) (ha : S a)
    (hS : ∀ x y, S x → S y → S (op x y)) (h1 : ψ e = 1) (hop : ∀ x y, S x → S y → ψ (op x y) = ψ x * ψ y) (n : Nat) :
    S (iterOp op e a n) ∧ ψ (iterOp op e a n) = ψ a ^ n := by
  unfold iterOp
  obtain ⟨ds, hds, hn⟩ : ∃ ds, binary n = ds ∧ n = ofDigits ds := ⟨_, rfl, (ofDigits_binary n).symm⟩
  rw [hds, hn]
  clear hds hn
  induction ds with
  | nil => exact ⟨he, by simpa [ofDigits] using h1⟩
  | cons d ds ih =>
    obtain ⟨h2, h3⟩ := ih
    rw [List.foldr_cons]
    cases d
    · refine ⟨hS _ _ h2 h2, ?_⟩
      simp only [cond_false, hop _ _ h2 h2, h3, ofDigits, Bool.toNat_false, add_zero, two_mul, pow_add]
    · refine ⟨hS _ _ (hS _ _ h2 h2) ha, ?_⟩
      simp only [cond_true, hop _ _ (hS _ _ h2 h2) ha, hop _ _ h2 h2, h3, ofDigits, Bool.toNat_true, two_mul, pow_add,
        pow_one]

/-! ## The dictionaries -/

/-- `φ` carries the operations of a dictionary to those of a field, and tells its elements apart. -/
structure FieldOps.Realizes {F k : Type} [Field k] (K : FieldOps F) (φ : F → k) : Prop where
  inj : Function.Injective φ
  add : ∀ a b, φ (K.add a b) = φ a + φ b
  sub : ∀ a b, φ (K.sub a b) = φ a - φ b
  mul : ∀ a b, φ (K.mul a b) = φ a * φ b
  div : ∀ a b, φ (K.div a b) = φ a / φ b
  ofNat : ∀ n, φ (K.ofNat n) = (n : k)

/-- The integers modulo `P`. -/
abbrev Zq := ZMod Config.P

/-- An Fq value as an integer modulo `P`. -/
def toZq (a : Fq) : Zq := (a.val : Zq)

theorem toZq_injective : Function.Injective toZq := by
  intro a b h
  have h' : ((a.val : Nat) : ZMod Config.P) = ((b.val : Nat) : ZMod Config.P) := h
  rw [ZMod.natCast_eq_natCast_iff', Nat.mod_eq_of_lt a.isLt, Nat.mod_eq_of_lt b.isLt] at h'
  exact Fin.ext h'

theorem toZq_fqOfNat (n : Nat) : toZq (fqOfNat n) = (n : Zq) := by
  unfold toZq fqOfNat
  exact ZMod.natCast_mod n Config.P

theorem toZq_add (a b : Fq) : toZq (fqAdd a b) = toZq a + toZq b := by
  rw [fqAdd, toZq_fqOfNat, Nat.cast_add]; rfl

theorem toZq_mul (a b : Fq) : toZq (fqMul a b) = toZq a * toZq b := by
  rw [fqMul, toZq_fqOfNat, Nat.cast_mul]; rfl

theorem toZq_sub (a b : Fq) : toZq (fqSub a b) = toZq a - toZq b := by
  rw [fqSub, toZq_fqOfNat, Nat.cast_add, Nat.cast_sub b.isLt.le, ZMod.natCast_self, zero_sub, sub_eq_add_neg]; rfl

theorem toZq_inv [Fact (Nat.Prime Config.P)] (b : Fq) : toZq (fqInv b) = (toZq b)⁻¹ := by
  have h := (iterOp_map (op := fqMul) (e := fqOfNat 1) (a := b) (ψ := toZq) (S := fun _ => True) trivial trivial
    (fun _ _ _ _ => trivial) (by rw [toZq_fqOfNat, Nat.cast_one]) (fun x y _ _ => toZq_mul x y) (Config.P - 2)).2
  rw [fqInv, h]
  by_cases hb : toZq b = 0
  · rw [hb, zero_pow (by decide), inv_zero]
  · have := ZMod.pow_card_sub_one_eq_one hb
    rw [show Config.P - 1 = (Config.P - 2) + 1 by decide, pow_succ] at this
    exact eq_inv_of_mul_eq_one_left this

theorem fqOps_realizes [Fact (Nat.Prime Config.P)] : fqOps.Realizes toZq where
  inj := toZq_injective
  add := toZq_add
  sub := toZq_sub
  mul := toZq_mul
  div a b := by
    show toZq (fqMul a (fqInv b)) = _
    rw [toZq_mul, toZq_inv, div_eq_mul_inv]
  ofNat := toZq_fqOfNat

/-! ## Fq2 -/

theorem toZq_NR : toZq Config.NR = -5 := by
  show ((Config.P - 5 : Nat) : ZMod Config.P) = -5
  rw [Nat.cast_sub (by decide), ZMod.natCast_self, zero_sub]; rfl

/-- -5 is no square modulo `P` (00_scope R7: NR is a non-residue). -/
theorem neg_five_not_square [Fact (Nat.Prime Config.P)] (r : Zq) : r ^ 2 ≠ -5 := by
  intro h
  have hr : r ≠ 0 := by
    rintro rfl
    have h0 : toZq Config.NR = toZq (fqOfNat 0) := by
      rw [toZq_NR, toZq_fqOfNat, ← h]; simp
    exact absurd (toZq_injective h0) (by decide)
  have h1 := ZMod.pow_card_sub_one_eq_one hr
  rw [show Config.P - 1 = 2 * ((Config.P - 1) / 2) by decide, pow_mul, h, ← toZq_NR] at h1
  have h2 := P_pow (a := Config.P - 5) (n := (Config.P - 1) / 2) (r := Config.P - 1) (by decide +kernel) (by decide +kernel)
  have h3 : ((Config.P - 1 : Nat) : ZMod Config.P) = ((1 : Nat) : ZMod Config.P) := by
    rw [← h2, Nat.cast_one]; exact h1
  rw [ZMod.natCast_eq_natCast_iff'] at h3
  exact absurd h3 (by decide +kernel)

/-- The quadratic extension by a square root of -5. -/
abbrev Zq2 := QuadraticAlgebra Zq (-5) 0

/-- An Fq2 value as an element of the extension. -/
def toZq2 (a : Fq2) : Zq2 := ⟨toZq a.c0, toZq a.c1⟩

theorem toZq2_injective : Function.Injective toZq2 := by
  intro a b h
  have h1 := congrArg QuadraticAlgebra.re h
  have h2 := congrArg QuadraticAlgebra.im h
  obtain ⟨a0, a1⟩ := a
  obtain ⟨b0, b1⟩ := b
  exact congrArg₂ Quad.mk (toZq_injective h1) (toZq_injective h2)

theorem toZq2_add (a b : Fq2) : toZq2 (fq2Add a b) = toZq2 a + toZq2 b := by
  ext <;> simp [toZq2, fq2Add, toZq_add]

theorem toZq2_sub (a b : Fq2) : toZq2 (fq2Sub a b) = toZq2 a - toZq2 b := by
  ext <;> simp [toZq2, fq2Sub, toZq_sub]

theorem toZq2_mul (a b : Fq2) : toZq2 (fq2Mul a b) = toZq2 a * toZq2 b := by
  ext <;> simp [toZq2, fq2Mul, toZq_add, toZq_mul, toZq_NR]

theorem toZq2_ofNat (n : Nat) : toZq2 (fq2OfNat n) = (n : Zq2) := by
  ext <;> simp [toZq2, fq2OfNat, toZq_fqOfNat]

/-- The extension is a field. -/
theorem neg_five_fact [Fact (Nat.Prime Config.P)] : Fact (∀ r : Zq, r ^ 2 ≠ -5 + 0 * r) :=
  ⟨fun r => by rw [zero_mul, add_zero]; exact neg_five_not_square r⟩

theorem fq2Ops_realizes [Fact (Nat.Prime Config.P)] [Fact (∀ r : Zq, r ^ 2 ≠ -5 + 0 * r)] :
    fq2Ops.Realizes toZq2 where
  inj := toZq2_injective
  add := toZq2_add
  sub := toZq2_sub
  mul := toZq2_mul
  div a b := by
    show toZq2 (fq2Mul a ⟨fqDiv b.c0 _, fqDiv (fqSub (fqOfNat 0) b.c1) _⟩) = _
    rw [toZq2_mul, div_eq_mul_inv]
    congr 1
    have hd : toZq (fqSub (fqMul b.c0 b.c0) (fqMul (fqMul Config.NR b.c1) b.c1)) = QuadraticAlgebra.norm (toZq2 b) := by
      simp [toZq_sub, toZq_mul, toZq_NR, QuadraticAlgebra.norm, toZq2]
    have hdiv : ∀ x y, toZq (fqDiv x y) = toZq x * (toZq y)⁻¹ := fun x y => by rw [fqDiv, toZq_mul, toZq_inv]
    ext
    · simp only [toZq2, hdiv, hd]
      simp [QuadraticAlgebra.inv_def]
      ring
    · simp only [toZq2, hdiv, hd, toZq_sub, toZq_fqOfNat]
      simp [QuadraticAlgebra.inv_def]
      ring
  ofNat := toZq2_ofNat

end Sys2Proof.Machine
end

