-- ==== Sys2Proof/Machine/Reference.lean ====
section
/-! DEFINITION. The spec's own recursive definitions, beside the ones the machine runs: claims say that the two agree. -/
namespace Sys2Proof.Machine

/-- `[0]Q = Inf`, `[s]Q = [s-1]Q + Q` (42_dispatch R204). -/
def pointMulRec {F : Type} [DecidableEq F] (K : FieldOps F) (q : Point F) : Nat → Point F
  | 0 => .inf
  | s + 1 => pointAdd K (pointMulRec K q s) q

/-- `[s_0]Q_0 + … + [s_(k-1)]Q_(k-1)`, summed in input order (42_dispatch R205, R212). -/
def multiExpSum {F : Type} [DecidableEq F] (K : FieldOps F) (terms : List (Point F × Nat)) : Point F :=
  terms.foldl (fun acc t => pointAdd K acc (pointMul K t.2 t.1)) .inf

/-- The instruction of an operation with its length (30_encoding R101). -/
def instrOf : Operation → Nat → Instr
  | .g1add, n => .g1add n
  | .g1mul, n => .g1mul n
  | .g1multiexp, n => .g1multiexp n
  | .g2add, n => .g2add n
  | .g2mul, n => .g2mul n
  | .g2multiexp, n => .g2multiexp n
  | .pairing, n => .pairing n

/-- The bytes an operand of a type takes (30_encoding R122). -/
def operandBytes : OperandType → Nat
  | .g1pt => 128
  | .g2pt => 256
  | .scalar => 32

/-- The output length of each operation (30_encoding R121). -/
def resultBytes : Operation → Nat
  | .g1add | .g1mul | .g1multiexp => 128
  | .g2add | .g2mul | .g2multiexp => 256
  | .pairing => 32

/-- The operands stand one after the other from `lo` to `hi`, with no gap and no overlap (30_encoding R122). -/
def Tiles (lo hi : Nat) : List Operand → Prop
  | [] => lo = hi
  | o :: os => o.off = lo ∧ Tiles (lo + operandBytes o.type) hi os

end Sys2Proof.Machine
end

