-- ==== Sys2Proof/Laws/CurveLaws.lean ====
section
/-! SUPPORT. The group law of 42_dispatch R203 is the group law of Mathlib's Weierstrass curve `y^2 = x^3 + b`. -/
namespace Sys2Proof.Machine

variable {F k : Type} [Field k]

/-- The curve `y^2 = x^3 + b`. -/
def curveOf (b : k) : WeierstrassCurve.Affine k := ⟨0, 0, 0, 0, b⟩

theorem curveOf_equation {b x y : k} : (curveOf b).Equation x y ↔ y * y = x * x * x + b := by
  rw [WeierstrassCurve.Affine.equation_iff]
  simp only [curveOf]
  ring_nf

theorem curveOf_nonsingular {b x y : k} (hb : 432 * b ^ 2 ≠ 0) :
    (curveOf b).Nonsingular x y ↔ y * y = x * x * x + b := by
  rw [← curveOf_equation, WeierstrassCurve.Affine.equation_iff_nonsingular_of_Δ_ne_zero]
  intro h
  apply hb
  rw [WeierstrassCurve.Δ, WeierstrassCurve.b₂, WeierstrassCurve.b₄, WeierstrassCurve.b₆, WeierstrassCurve.b₈] at h
  simp only [curveOf] at h
  linear_combination -h

/-- A point value as a point of the curve. -/
noncomputable def toPoint (φ : F → k) (b : k) : Point F → (curveOf b).Point
  | .inf => .zero
  | .aff x y =>
    open Classical in if h : (curveOf b).Nonsingular (φ x) (φ y) then .some _ _ h else .zero

/-- What is asked of a dictionary, a map into a field and a curve coefficient. -/
structure CurveMap (K : FieldOps F) (φ : F → k) (b : F) : Prop where
  real : K.Realizes φ
  disc : 432 * φ b ^ 2 ≠ 0

variable {K : FieldOps F} {φ : F → k} {b : F}

theorem toPoint_inf : toPoint φ (φ b) .inf = 0 := rfl

theorem map_negOp (hK : CurveMap K φ b) (y : F) : φ (K.sub (K.ofNat 0) y) = -φ y := by
  rw [hK.real.sub, hK.real.ofNat, Nat.cast_zero, zero_sub]

variable [DecidableEq F]

theorem onCurve_aff (hK : CurveMap K φ b) {x y : F} :
    onCurve K b (.aff x y) = true ↔ (curveOf (φ b)).Nonsingular (φ x) (φ y) := by
  rw [curveOf_nonsingular hK.disc, onCurve, decide_eq_true_eq, ← hK.real.inj.eq_iff]
  simp only [hK.real.mul, hK.real.add]

theorem toPoint_aff (hK : CurveMap K φ b) {x y : F} (h : onCurve K b (.aff x y) = true) :
    toPoint φ (φ b) (.aff x y) = .some _ _ ((onCurve_aff hK).mp h) := by
  rw [toPoint, dif_pos]

theorem toPoint_injective (hK : CurveMap K φ b) {p q : Point F} (hp : onCurve K b p = true)
    (hq : onCurve K b q = true) (h : toPoint φ (φ b) p = toPoint φ (φ b) q) : p = q := by
  cases p with
  | inf =>
    cases q with
    | inf => rfl
    | aff x y => rw [toPoint_aff hK hq, toPoint_inf] at h; exact absurd h.symm (by rintro (_ | _))
  | aff x y =>
    cases q with
    | inf => rw [toPoint_aff hK hp, toPoint_inf] at h; exact absurd h (by rintro (_ | _))
    | aff x' y' =>
      rw [toPoint_aff hK hp, toPoint_aff hK hq, WeierstrassCurve.Affine.Point.some.injEq] at h
      rw [hK.real.inj h.1, hK.real.inj h.2]

theorem negY_curveOf (b x y : k) : (curveOf b).negY x y = -y := by
  simp [WeierstrassCurve.Affine.negY, curveOf]

variable [DecidableEq k]

/-- The slope of 42_dispatch R203 is the slope of the curve. -/
theorem map_slope (hK : CurveMap K φ b) {x1 y1 x2 y2 : F} (h : ¬ (x1 = x2 ∧ y1 = K.sub (K.ofNat 0) y2)) :
    φ (slope K x1 y1 x2 y2) = (curveOf (φ b)).slope (φ x1) (φ x2) (φ y1) (φ y2) := by
  unfold slope
  split
  · rename_i hx
    have hy : φ y1 ≠ (curveOf (φ b)).negY (φ x2) (φ y2) := by
      rw [negY_curveOf, ← map_negOp hK]
      exact fun hy => h ⟨hx, hK.real.inj hy⟩
    rw [WeierstrassCurve.Affine.slope_of_Y_ne (by rw [hx]) hy, negY_curveOf]
    simp only [hK.real.div, hK.real.mul, hK.real.ofNat, curveOf]
    congr 1 <;> push_cast <;> ring
  · rename_i hx
    rw [WeierstrassCurve.Affine.slope_of_X_ne (fun h => hx (hK.real.inj h))]
    simp only [hK.real.div, hK.real.sub]
    rw [← neg_sub (φ y1), ← neg_sub (φ x1), neg_div_neg_eq]

/-- The group law stays on the curve and is the curve's addition. -/
theorem pointAdd_map (hK : CurveMap K φ b) {p q : Point F} (hp : onCurve K b p = true) (hq : onCurve K b q = true) :
    onCurve K b (pointAdd K p q) = true ∧
      toPoint φ (φ b) (pointAdd K p q) = toPoint φ (φ b) p + toPoint φ (φ b) q := by
  cases p with
  | inf => exact ⟨hq, (zero_add _).symm⟩
  | aff x1 y1 =>
    cases q with
    | inf => exact ⟨hp, (add_zero _).symm⟩
    | aff x2 y2 =>
      rw [toPoint_aff hK hp, toPoint_aff hK hq]
      by_cases h : x1 = x2 ∧ y1 = K.sub (K.ofNat 0) y2
      · rw [pointAdd, if_pos h]
        refine ⟨rfl, ?_⟩
        rw [WeierstrassCurve.Affine.Point.add_of_Y_eq (by rw [h.1])]
        · rfl
        · rw [negY_curveOf, h.2, map_negOp hK]
      · rw [pointAdd, if_neg h]
        have hxy : ¬ (φ x1 = φ x2 ∧ φ y1 = (curveOf (φ b)).negY (φ x2) (φ y2)) := by
          rw [negY_curveOf, ← map_negOp hK]
          exact fun hh => h ⟨hK.real.inj hh.1, hK.real.inj hh.2⟩
        rw [WeierstrassCurve.Affine.Point.add_some hxy]
        have hX : φ (K.sub (K.sub (K.mul (slope K x1 y1 x2 y2) (slope K x1 y1 x2 y2)) x1) x2) =
            (curveOf (φ b)).addX (φ x1) (φ x2) ((curveOf (φ b)).slope (φ x1) (φ x2) (φ y1) (φ y2)) := by
          simp only [hK.real.sub, hK.real.mul, map_slope hK h, WeierstrassCurve.Affine.addX, curveOf]
          ring
        have hY : φ (K.sub (K.mul (slope K x1 y1 x2 y2)
              (K.sub x1 (K.sub (K.sub (K.mul (slope K x1 y1 x2 y2) (slope K x1 y1 x2 y2)) x1) x2))) y1) =
            (curveOf (φ b)).addY (φ x1) (φ x2) (φ y1) ((curveOf (φ b)).slope (φ x1) (φ x2) (φ y1) (φ y2)) := by
          rw [WeierstrassCurve.Affine.addY, negY_curveOf, WeierstrassCurve.Affine.negAddY, ← hX]
          simp only [hK.real.sub, hK.real.mul, map_slope hK h]
          ring
        have hns := WeierstrassCurve.Affine.nonsingular_add ((onCurve_aff hK).mp hp) ((onCurve_aff hK).mp hq) hxy
        rw [← hX, ← hY] at hns
        have hon := (onCurve_aff hK).mpr hns
        refine ⟨hon, ?_⟩
        rw [toPoint_aff hK hon, WeierstrassCurve.Affine.Point.some.injEq]
        exact ⟨hX, hY⟩

omit [DecidableEq k] in
/-- Negation stays on the curve and is the curve's negation. -/
theorem pointNeg_map (hK : CurveMap K φ b) {p : Point F} (hp : onCurve K b p = true) :
    onCurve K b (pointNeg K p) = true ∧ toPoint φ (φ b) (pointNeg K p) = -toPoint φ (φ b) p := by
  cases p with
  | inf => exact ⟨rfl, rfl⟩
  | aff x y =>
    have hon : onCurve K b (.aff x (K.sub (K.ofNat 0) y)) = true := by
      rw [onCurve_aff hK, map_negOp hK, ← negY_curveOf (φ b) (φ x), WeierstrassCurve.Affine.nonsingular_neg]
      exact (onCurve_aff hK).mp hp
    refine ⟨hon, ?_⟩
    rw [pointNeg, toPoint_aff hK hp, toPoint_aff hK hon, WeierstrassCurve.Affine.Point.neg_some,
      WeierstrassCurve.Affine.Point.some.injEq, negY_curveOf, map_negOp hK]
    exact ⟨rfl, rfl⟩

/-- Doubling and adding multiplies. -/
theorem pointMul_map (hK : CurveMap K φ b) (s : Nat) {q : Point F} (hq : onCurve K b q = true) :
    onCurve K b (pointMul K s q) = true ∧ toPoint φ (φ b) (pointMul K s q) = s • toPoint φ (φ b) q := by
  have h := iterOp_map (op := pointAdd K) (e := .inf) (a := q)
    (ψ := fun p => Multiplicative.ofAdd (toPoint φ (φ b) p)) (S := fun p => onCurve K b p = true) rfl hq
    (fun x y hx hy => (pointAdd_map hK hx hy).1) rfl
    (fun x y hx hy => congrArg Multiplicative.ofAdd (pointAdd_map hK hx hy).2) s
  exact ⟨h.1, Multiplicative.ofAdd.injective h.2⟩

/-! ## The two curves -/

theorem curveMap_g1 [Fact (Nat.Prime Config.P)] : CurveMap fqOps toZq Config.B1 where
  real := fqOps_realizes
  disc := by
    have : (432 : Zq) * toZq Config.B1 ^ 2 = toZq (fqOfNat 432) := by
      rw [toZq_fqOfNat]
      show (432 : Zq) * ((1 : Nat) : Zq) ^ 2 = ((432 : Nat) : Zq)
      norm_num
    rw [this]
    intro h
    have h0 : toZq (fqOfNat 432) = toZq (fqOfNat 0) := by rw [h, toZq_fqOfNat, Nat.cast_zero]
    exact absurd (toZq_injective h0) (by decide)

theorem curveMap_g2 [Fact (Nat.Prime Config.P)] [Fact (∀ r : Zq, r ^ 2 ≠ -5 + 0 * r)] :
    CurveMap fq2Ops toZq2 Config.B2 where
  real := fq2Ops_realizes
  disc := by
    have : (432 : Zq2) * toZq2 Config.B2 ^ 2 = toZq2 (fq2Mul (fq2OfNat 432) (fq2Mul Config.B2 Config.B2)) := by
      rw [toZq2_mul, toZq2_mul, toZq2_ofNat, pow_two]; rfl
    rw [this]
    intro h
    have h0 : toZq2 (fq2Mul (fq2OfNat 432) (fq2Mul Config.B2 Config.B2)) = toZq2 (fq2OfNat 0) := by
      rw [h, toZq2_ofNat, Nat.cast_zero]
    exact absurd (toZq2_injective h0) (by decide +kernel)

end Sys2Proof.Machine
end

