-- ==== Sys2Proof/Laws/PointCount.lean ====
section
/-! SUPPORT. How many points `y^2 = x^3 + b` has over a finite field: within a small multiple of the field's square root of its
size plus one, by the second moment of the character sums of its sextic twists. -/
namespace Sys2Proof.Machine
open Finset

variable {k : Type} [Field k] [Fintype k] [DecidableEq k]

/-- The character sum of the curve `y^2 = x^3 + b`. -/
def cubicSum (b : k) : ℤ := ∑ x : k, quadraticChar k (x ^ 3 + b)

theorem sum_quadraticChar_mul (hk : ringChar k ≠ 2) (c d : k) :
    ∑ b : k, quadraticChar k (c + b) * quadraticChar k (d + b) = if c = d then (Fintype.card k : ℤ) - 1 else -1 := by
  split
  · rename_i h
    subst h
    have h1 : ∀ b : k, quadraticChar k (c + b) * quadraticChar k (c + b) = if b = -c then 0 else 1 := by
      intro b
      split
      · rename_i h; rw [h]; simp
      · rename_i h
        have : c + b ≠ 0 := fun h' => h (by linear_combination h')
        rw [← pow_two, quadraticChar_sq_one this]
    rw [sum_congr rfl fun b _ => h1 b]
    simp [sum_ite, filter_ne', card_erase_of_mem]
    have := Fintype.card_pos (α := k)
    omega
  · rename_i h
    have he : c - d ≠ 0 := sub_ne_zero.mpr h
    have hJ := jacobiSum_nontrivial_inv (quadraticChar_ne_one hk)
    rw [quadraticChar_isQuadratic k |>.inv] at hJ
    have h1 : ∑ b : k, quadraticChar k (c + b) * quadraticChar k (d + b) =
        ∑ x : k, quadraticChar k (-1) * (quadraticChar k x * quadraticChar k (1 - x)) := by
      refine (Fintype.sum_equiv ((Equiv.mulLeft₀ (c - d) he).trans (Equiv.addRight (-c))) _ _ fun x => ?_).symm
      have e1 : c + ((c - d) * x + -c) = (c - d) * x := by ring
      have e2 : d + ((c - d) * x + -c) = (-1) * ((c - d) * (1 - x)) := by ring
      show _ = quadraticChar k (c + ((c - d) * x + -c)) * quadraticChar k (d + ((c - d) * x + -c))
      rw [e1, e2]
      simp only [map_mul]
      have := quadraticChar_sq_one he
      linear_combination (- quadraticChar k (-1) * quadraticChar k x * quadraticChar k (1 - x)) * this
    rw [h1, ← mul_sum]
    have : ∑ x : k, quadraticChar k x * quadraticChar k (1 - x) = jacobiSum (quadraticChar k) (quadraticChar k) := rfl
    rw [this, hJ]
    have := quadraticChar_sq_one (F := k) (a := -1) (by simp)
    linear_combination -this

/-- At most three `x` have a given cube, one if it is zero. -/
theorem card_cube_roots (y : k) : ((univ.filter fun x : k => x ^ 3 = y ^ 3).card : ℤ) ≤ if y = 0 then 1 else 3 := by
  split
  · rename_i h
    subst h
    have : (univ.filter fun x : k => x ^ 3 = 0 ^ 3) = {0} := by ext x; simp
    rw [this]; simp
  · have h1 : (univ.filter fun x : k => x ^ 3 = y ^ 3) ⊆ (Polynomial.nthRoots 3 (y ^ 3)).toFinset := by
      intro x hx
      simp at hx
      simp [Polynomial.mem_nthRoots, hx]
    have h2 := card_le_card h1
    have h3 := Multiset.toFinset_card_le (Polynomial.nthRoots 3 (y ^ 3))
    have h4 := Polynomial.card_nthRoots 3 (y ^ 3)
    exact_mod_cast h2.trans (h3.trans h4)

theorem sum_cubicSum_sq (hk : ringChar k ≠ 2) :
    ∑ b : k, cubicSum b ^ 2 ≤ 2 * (Fintype.card k : ℤ) * ((Fintype.card k : ℤ) - 1) := by
  have h1 : ∑ b : k, cubicSum b ^ 2 = ∑ y : k, ∑ x : k, if x ^ 3 = y ^ 3 then (Fintype.card k : ℤ) - 1 else -1 := by
    have h : ∀ b : k, cubicSum b ^ 2 = ∑ y : k, ∑ x : k, quadraticChar k (x ^ 3 + b) * quadraticChar k (y ^ 3 + b) := by
      intro b
      rw [pow_two, cubicSum, sum_mul_sum, sum_comm]
    simp only [h]
    rw [sum_comm]
    refine sum_congr rfl fun y _ => ?_
    rw [sum_comm]
    exact sum_congr rfl fun x _ => sum_quadraticChar_mul hk _ _
  have h2 : ∀ y : k, (∑ x : k, if x ^ 3 = y ^ 3 then (Fintype.card k : ℤ) - 1 else -1) ≤
      (Fintype.card k : ℤ) * (if y = 0 then 1 else 3) - (Fintype.card k : ℤ) := by
    intro y
    have h3 : (∑ x : k, if x ^ 3 = y ^ 3 then (Fintype.card k : ℤ) - 1 else -1) =
        (Fintype.card k : ℤ) * ((univ.filter fun x : k => x ^ 3 = y ^ 3).card : ℤ) - (Fintype.card k : ℤ) := by
      have : ∀ x : k, (if x ^ 3 = y ^ 3 then (Fintype.card k : ℤ) - 1 else -1) =
          (Fintype.card k : ℤ) * (if x ^ 3 = y ^ 3 then 1 else 0) - 1 := by intro x; split <;> ring
      simp only [this, sum_sub_distrib, ← mul_sum, sum_boole]
      simp
    rw [h3]
    have h4 := card_cube_roots y
    have h5 : (0 : ℤ) ≤ Fintype.card k := by positivity
    nlinarith [mul_le_mul_of_nonneg_left h4 h5]
  rw [h1]
  refine (sum_le_sum fun y _ => h2 y).trans (le_of_eq ?_)
  have h6 : ∀ y : k, ((Fintype.card k : ℤ) * (if y = 0 then 1 else 3) - (Fintype.card k : ℤ)) =
      2 * (Fintype.card k : ℤ) - if y = 0 then 2 * (Fintype.card k : ℤ) else 0 := by intro y; split <;> ring
  simp only [h6, sum_sub_distrib, sum_ite_eq', mem_univ, if_true, sum_const, card_univ, nsmul_eq_mul]
  ring

theorem cubicSum_sixth {b c : k} (hc : c ≠ 0) : cubicSum (b * c ^ 6) = cubicSum b := by
  refine (Fintype.sum_equiv (Equiv.mulLeft₀ (c ^ 2) (pow_ne_zero 2 hc)) _ _ fun x => ?_).symm
  show _ = quadraticChar k ((c ^ 2 * x) ^ 3 + b * c ^ 6)
  rw [show (c ^ 2 * x) ^ 3 + b * c ^ 6 = (c ^ 3) ^ 2 * (x ^ 3 + b) by ring, map_mul, map_pow,
    quadraticChar_sq_one (pow_ne_zero 3 hc), one_mul]

/-- A weak form of Hasse's bound for `y^2 = x^3 + b`: `(Σ χ(x^3 + b))^2 ≤ 12 |k|`. -/
theorem cubicSum_sq_le (hk : ringChar k ≠ 2) {b : k} (hb : b ≠ 0) : cubicSum b ^ 2 ≤ 12 * (Fintype.card k : ℤ) := by
  have h1 : ∑ c ∈ univ.erase (0 : k), cubicSum (b * c ^ 6) ^ 2 = ((Fintype.card k : ℤ) - 1) * cubicSum b ^ 2 := by
    rw [sum_congr rfl fun c hc => by rw [cubicSum_sixth (ne_of_mem_erase hc)], sum_const, card_erase_of_mem (mem_univ _),
      card_univ, nsmul_eq_mul, Nat.cast_sub Fintype.card_pos, Nat.cast_one]
  have h2 : ∑ c ∈ univ.erase (0 : k), cubicSum (b * c ^ 6) ^ 2 ≤ 6 * ∑ d : k, cubicSum d ^ 2 := by
    rw [← sum_fiberwise (univ.erase (0 : k)) (fun c => b * c ^ 6), mul_sum]
    refine sum_le_sum fun d _ => ?_
    rw [sum_congr rfl fun c hc => by rw [(mem_filter.mp hc).2], sum_const, nsmul_eq_mul]
    refine mul_le_mul_of_nonneg_right ?_ (sq_nonneg _)
    have h3 : (univ.erase (0 : k)).filter (fun c => b * c ^ 6 = d) ⊆ (Polynomial.nthRoots 6 (d / b)).toFinset := by
      intro c hc
      have := (mem_filter.mp hc).2
      simp [Polynomial.mem_nthRoots, eq_div_iff hb, ← this, mul_comm]
    have h4 := (card_le_card h3).trans ((Multiset.toFinset_card_le _).trans (Polynomial.card_nthRoots 6 (d / b)))
    exact_mod_cast h4
  have h3 := sum_cubicSum_sq (k := k) hk
  have h4 : (1 : ℤ) < Fintype.card k := by exact_mod_cast Fintype.one_lt_card
  rw [h1] at h2
  have h5 : ((Fintype.card k : ℤ) - 1) * cubicSum b ^ 2 ≤ ((Fintype.card k : ℤ) - 1) * (12 * (Fintype.card k : ℤ)) := by
    linarith
  exact le_of_mul_le_mul_left h5 (by linarith)

/-- The affine points of the curve. -/
def pointEquiv {b : k} (hb : 432 * b ^ 2 ≠ 0) :
    (curveOf b).Point ≃ Option (Σ x : k, {y : k // y ^ 2 = x ^ 3 + b}) where
  toFun
    | .zero => none
    | .some x y h => some ⟨x, y, by rw [pow_two, (curveOf_nonsingular hb).mp h]; ring⟩
  invFun
    | none => .zero
    | some ⟨x, y, h⟩ => .some x y ((curveOf_nonsingular hb).mpr (by rw [← pow_two, h]; ring))
  left_inv p := by cases p <;> rfl
  right_inv o := by rcases o with _ | ⟨x, y, h⟩ <;> rfl

theorem card_point (hk : ringChar k ≠ 2) {b : k} (hb : 432 * b ^ 2 ≠ 0) :
    (Nat.card (curveOf b).Point : ℤ) = Fintype.card k + 1 + cubicSum b := by
  rw [Nat.card_congr (pointEquiv hb), Nat.card_eq_fintype_card, Fintype.card_option, Fintype.card_sigma]
  have h : ∀ x : k, (Fintype.card {y : k // y ^ 2 = x ^ 3 + b} : ℤ) = quadraticChar k (x ^ 3 + b) + 1 := by
    intro x
    rw [← quadraticChar_card_sqrts hk, Set.toFinset_card]
    rfl
  push_cast
  rw [sum_congr rfl fun x _ => h x, sum_add_distrib, cubicSum]
  simp
  ring

omit [DecidableEq k] in
theorem finite_point {b : k} (hb : 432 * b ^ 2 ≠ 0) : Finite (curveOf b).Point := Finite.of_equiv _ (pointEquiv hb).symm

/-- In a finite group whose order `r^2` does not divide, the points of prime order `r` are the multiples of any one. -/
theorem exists_nsmul_eq {A : Type} [AddCommGroup A] [Finite A] {r : ℕ} (hr : r.Prime) (hc : ¬ r ^ 2 ∣ Nat.card A) {g q : A}
    (hg : r • g = 0) (hg0 : g ≠ 0) (hq : r • q = 0) : ∃ a, a < r ∧ q = a • g := by
  have : Fact r.Prime := ⟨hr⟩
  have hog : addOrderOf g = r := addOrderOf_eq_prime hg hg0
  by_cases hm : q ∈ AddSubgroup.zmultiples g
  · classical
    rw [mem_zmultiples_iff_mem_range_addOrderOf, hog] at hm
    obtain ⟨a, ha, h⟩ := Finset.mem_image.mp hm
    exact ⟨a, Finset.mem_range.mp ha, h.symm⟩
  · refine absurd ?_ hc
    have h1 : addOrderOf (QuotientAddGroup.mk q : A ⧸ AddSubgroup.zmultiples g) = r :=
      addOrderOf_eq_prime (by rw [← QuotientAddGroup.mk_nsmul, hq]; rfl) (fun h => hm ((QuotientAddGroup.eq_zero_iff q).mp h))
    have h2 := addOrderOf_dvd_natCard (QuotientAddGroup.mk q : A ⧸ AddSubgroup.zmultiples g)
    rw [AddSubgroup.card_eq_card_quotient_mul_card_addSubgroup (AddSubgroup.zmultiples g), Nat.card_zmultiples, hog, pow_two]
    rw [h1] at h2
    exact Nat.mul_dvd_mul_right h2 r

/-- `s + 1 + d` with `d^2 ≤ 12 s` is no multiple of `m`, where `s + 1` is far enough from one. -/
theorem not_dvd_of_bound {s m t : ℤ} {d : ℤ} (hd : d ^ 2 ≤ 12 * s) (ht : (s + 1) % m = t) (hm : 0 < m) (h1 : 12 * s < t ^ 2) (h2 : 12 * s < (m - t) ^ 2) :
    ¬ m ∣ s + 1 + d := by
  rintro ⟨c, hc⟩
  have h0 := Int.emod_nonneg (s + 1) hm.ne'
  have h3 := Int.emod_lt_of_pos (s + 1) hm
  rw [ht] at h0 h3
  have h4 := Int.emod_add_mul_ediv (s + 1) m
  rw [ht] at h4
  obtain ⟨e, he⟩ : ∃ e, d = m * e - t := ⟨c - (s + 1) / m, by rw [mul_sub]; linarith⟩
  rw [he] at hd
  rcases le_or_gt e 0 with h | h
  · nlinarith [mul_nonneg hm.le (neg_nonneg.mpr h)]
  · nlinarith [mul_nonneg hm.le (sub_nonneg.mpr (show (1 : ℤ) ≤ e from h))]

end Sys2Proof.Machine
end

