-- ==== Sys2Proof/Machine/Tower.lean ====
section
/-! DEFINITION. The extension Fq12 in which PAIRING multiplies (43_pairing R230, R231), over the tower the spec names:
`Fq6 = Fq2[v]/(v^3 - u)` and `Fq12 = Fq6[w]/(w^2 - v)`. -/
namespace Sys2Proof.Machine

/-- `u * a` in Fq2. -/
def fq2MulU (a : Fq2) : Fq2 := ⟨fqMul Config.NR a.c1, a.c0⟩

def fq6Add (a b : Fq6) : Fq6 := ⟨fq2Add a.c0 b.c0, fq2Add a.c1 b.c1, fq2Add a.c2 b.c2⟩

/-- The product modulo `v^3 = u`. -/
def fq6Mul (a b : Fq6) : Fq6 :=
  ⟨fq2Add (fq2Mul a.c0 b.c0) (fq2MulU (fq2Add (fq2Mul a.c1 b.c2) (fq2Mul a.c2 b.c1))),
   fq2Add (fq2Add (fq2Mul a.c0 b.c1) (fq2Mul a.c1 b.c0)) (fq2MulU (fq2Mul a.c2 b.c2)),
   fq2Add (fq2Add (fq2Mul a.c0 b.c2) (fq2Mul a.c1 b.c1)) (fq2Mul a.c2 b.c0)⟩

/-- `v * a` in Fq6. -/
def fq6MulV (a : Fq6) : Fq6 := ⟨fq2MulU a.c2, a.c0, a.c1⟩

/-- The product modulo `w^2 = v`. -/
def fq12Mul (a b : Fq12) : Fq12 :=
  ⟨fq6Add (fq6Mul a.c0 b.c0) (fq6MulV (fq6Mul a.c1 b.c1)), fq6Add (fq6Mul a.c0 b.c1) (fq6Mul a.c1 b.c0)⟩

/-- Square-and-multiply. -/
def fq12Pow (a : Fq12) (n : Nat) : Fq12 := iterOp fq12Mul fq12One a n

/-- The zero of Fq12, the one element outside Fq12* (43_pairing R230). -/
def fq12Zero : Fq12 := ⟨⟨fq2OfNat 0, fq2OfNat 0, fq2OfNat 0⟩, ⟨fq2OfNat 0, fq2OfNat 0, fq2OfNat 0⟩⟩

/-- `is_one(f)` (43_pairing R231). -/
def isOne (f : Fq12) : Bool := decide (f = fq12One)

end Sys2Proof.Machine
end

