-- ==== Sys2Proof/Laws/TowerLaws.lean ====
section
/-! SUPPORT. The product of Fq12 (43_pairing R230, R231) is commutative and associative, and FINAL_EXP respects it. -/
namespace Sys2Proof.Machine

/-! ## The product over any commutative ring, with `v^3 = u` and `w^2 = v` -/

/-- The product modulo `v^3 = u`. -/
def cubicMul {A : Type} [CommRing A] (u : A) (a b : Cubic A) : Cubic A :=
  ⟨a.c0 * b.c0 + u * (a.c1 * b.c2 + a.c2 * b.c1), a.c0 * b.c1 + a.c1 * b.c0 + u * (a.c2 * b.c2),
    a.c0 * b.c2 + a.c1 * b.c1 + a.c2 * b.c0⟩

/-- The sum. -/
def cubicAdd {A : Type} [CommRing A] (a b : Cubic A) : Cubic A := ⟨a.c0 + b.c0, a.c1 + b.c1, a.c2 + b.c2⟩

/-- The product modulo `w^2 = v`. -/
def towerMul {A : Type} [CommRing A] (u : A) (a b : Quad (Cubic A)) : Quad (Cubic A) :=
  ⟨cubicAdd (cubicMul u a.c0 b.c0) (cubicMul u ⟨0, 1, 0⟩ (cubicMul u a.c1 b.c1)),
    cubicAdd (cubicMul u a.c0 b.c1) (cubicMul u a.c1 b.c0)⟩

theorem towerMul_comm {A : Type} [CommRing A] (u : A) (a b : Quad (Cubic A)) : towerMul u a b = towerMul u b a := by
  simp only [towerMul, cubicMul, cubicAdd, Quad.mk.injEq, Cubic.mk.injEq]
  refine ⟨⟨?_, ?_, ?_⟩, ?_, ?_, ?_⟩ <;> ring

theorem towerMul_assoc {A : Type} [CommRing A] (u : A) (a b c : Quad (Cubic A)) :
    towerMul u (towerMul u a b) c = towerMul u a (towerMul u b c) := by
  simp only [towerMul, cubicMul, cubicAdd, Quad.mk.injEq, Cubic.mk.injEq]
  refine ⟨⟨?_, ?_, ?_⟩, ?_, ?_, ?_⟩ <;> ring

/-! ## Fq12 inside it -/

/-- An Fq6 value with its coordinates in the extension. -/
def toTower6 (a : Fq6) : Cubic Zq2 := ⟨toZq2 a.c0, toZq2 a.c1, toZq2 a.c2⟩

/-- An Fq12 value with its coordinates in the extension. -/
def toTower (a : Fq12) : Quad (Cubic Zq2) := ⟨toTower6 a.c0, toTower6 a.c1⟩

theorem toTower_injective : Function.Injective toTower := by
  rintro ⟨⟨a0, a1, a2⟩, ⟨a3, a4, a5⟩⟩ ⟨⟨b0, b1, b2⟩, ⟨b3, b4, b5⟩⟩ h
  simp only [toTower, toTower6, Quad.mk.injEq, Cubic.mk.injEq] at h
  obtain ⟨⟨h0, h1, h2⟩, h3, h4, h5⟩ := h
  rw [toZq2_injective h0, toZq2_injective h1, toZq2_injective h2, toZq2_injective h3, toZq2_injective h4,
    toZq2_injective h5]

theorem toZq2_mulU (a : Fq2) : toZq2 (fq2MulU a) = (⟨0, 1⟩ : Zq2) * toZq2 a := by
  ext <;> simp [toZq2, fq2MulU, toZq_mul, toZq_NR]

theorem toTower6_mul (a b : Fq6) : toTower6 (fq6Mul a b) = cubicMul ⟨0, 1⟩ (toTower6 a) (toTower6 b) := by
  simp only [toTower6, fq6Mul, cubicMul, toZq2_add, toZq2_mul, toZq2_mulU]

theorem toTower6_add (a b : Fq6) : toTower6 (fq6Add a b) = cubicAdd (toTower6 a) (toTower6 b) := by
  simp only [toTower6, fq6Add, cubicAdd, toZq2_add]

theorem toTower6_mulV (a : Fq6) : toTower6 (fq6MulV a) = cubicMul ⟨0, 1⟩ ⟨0, 1, 0⟩ (toTower6 a) := by
  simp [toTower6, fq6MulV, cubicMul, toZq2_mulU]

theorem toTower_mul (a b : Fq12) : toTower (fq12Mul a b) = towerMul ⟨0, 1⟩ (toTower a) (toTower b) := by
  simp only [toTower, fq12Mul, towerMul, toTower6_add, toTower6_mul, toTower6_mulV]

theorem fq12Mul_comm (a b : Fq12) : fq12Mul a b = fq12Mul b a :=
  toTower_injective (by rw [toTower_mul, toTower_mul, towerMul_comm])

theorem fq12Mul_assoc (a b c : Fq12) : fq12Mul (fq12Mul a b) c = fq12Mul a (fq12Mul b c) :=
  toTower_injective (by simp only [toTower_mul, towerMul_assoc])

theorem fq12One_mul_one : fq12Mul fq12One fq12One = fq12One := by decide +kernel

end Sys2Proof.Machine
end

