-- ==== Sys2Proof/Machine/AteInstance.lean ====
section
/-! DEFINITION. The usual instance of the pairing functions, the optimal ate pairing, which 43_pairing R230 names for
information. The machine does not run it: PAIRING uses the parameters of Machine/Pairing.lean (log 12). -/
namespace Sys2Proof.Machine

/-- The line through `(x1, y1)` and `(x2, y2)` of the twist, carried to the curve by `(x, y) ↦ (x w^2, y w^3)` and taken at
the G1 point `(px, py)`: `py - lam*px*w + (lam*x1 - y1)*w^3`. -/
def lineAt (x1 y1 x2 y2 : Fq2) (px py : Fq) : Fq12 :=
  let lam := slope fq2Ops x1 y1 x2 y2
  let zero := fq2OfNat 0
  ⟨⟨⟨py, fqOfNat 0⟩, zero, zero⟩,
   ⟨fq2Sub zero (fq2Mul lam ⟨px, fqOfNat 0⟩), fq2Sub (fq2Mul lam x1) y1, zero⟩⟩

/-- The line of two twist points at a G1 point; a line through `Inf`, and a vertical one, gives 1. -/
def ateLine : G2 → G2 → G1 → Fq12
  | .aff x1 y1, .aff x2 y2, .aff px py =>
    if x1 = x2 ∧ y1 = fq2Sub (fq2OfNat 0) y2 then fq12One else lineAt x1 y1 x2 y2 px py
  | _, _, _ => fq12One

/-- One digit of the loop: square, multiply by the tangent and double; on a 1, multiply by the chord and add. -/
def ateStep (p : G1) (q : G2) (d : Bool) (ft : Fq12 × G2) : Fq12 × G2 :=
  let f := fq12Mul (fq12Mul ft.1 ft.1) (ateLine ft.2 ft.2 p)
  let t := pointAdd fq2Ops ft.2 ft.2
  bif d then (fq12Mul f (ateLine t q p), pointAdd fq2Ops t q) else (f, t)

/-- The instance's Miller loop, over the digits of the seed below its top one. -/
def ateMillerLoop (p : G1) (q : G2) : Fq12 :=
  ((binary Config.X).dropLast.foldr (ateStep p q) (fq12One, q)).1

/-- The instance's final exponentiation, `f^((P^12 - 1)/R)`. -/
def ateFinalExp (f : Fq12) : Fq12 := fq12Pow f ((Config.P ^ 12 - 1) / Config.R)

end Sys2Proof.Machine
end

