-- ==== Sys2Proof/Laws/TowerField.lean ====
section
/-! SUPPORT. Fq6 and Fq12 are fields of `P^6` and `P^12` elements (43_pairing R230), and the power by `(P^12 - 1)/R` maps Fq12*
into the subgroup of order R. -/
namespace Sys2Proof.Machine

/-! ## `u` is neither a square nor a cube of Fq2 -/

/-- `u`, the square root of -5. -/
abbrev uZq2 : Zq2 := ⟨0, 1⟩

theorem uZq2_sq : uZq2 ^ 2 = algebraMap Zq Zq2 (toZq Config.NR) := by
  rw [toZq_NR, pow_two]
  ext <;> simp [uZq2, QuadraticAlgebra.algebraMap_eq]

theorem card_zq2 [Fact (Nat.Prime Config.P)] : Nat.card Zq2 = Config.P ^ 2 := by
  rw [Module.natCard_eq_pow_finrank (K := Zq), QuadraticAlgebra.finrank_eq_two, Nat.card_zmod]

/-- `NR^(m(P+1))` modulo `P` from two evaluated powers. -/
theorem NR_pow {m r r' : Nat} (hm : m < 2 ^ 380) (hr : powMod Config.P 380 (Config.P - 5) m 1 = r)
    (hr' : powMod Config.P 380 r (Config.P + 1) 1 = r') : (toZq Config.NR) ^ (m * (Config.P + 1)) = (r' : Zq) := by
  have h1 := P_pow (a := Config.P - 5) (n := m) hm hr
  have h2 := P_pow (a := r) (n := Config.P + 1) (by decide +kernel) hr'
  rw [pow_mul, ← h2, ← h1]
  rfl

theorem zq_natCast_ne_one {r : Nat} (h : r % Config.P ≠ 1) : (r : Zq) ≠ 1 := by
  intro h1
  have h2 : ((r : Nat) : ZMod Config.P) = ((1 : Nat) : ZMod Config.P) := by rw [Nat.cast_one]; exact h1
  rw [ZMod.natCast_eq_natCast_iff'] at h2
  exact h (h2.trans (by decide))

section
variable [Fact (Nat.Prime Config.P)] [Fact (∀ r : Zq, r ^ 2 ≠ -5 + 0 * r)]

theorem pow_card_zq2 {b : Zq2} (hb : b ≠ 0) : b ^ (Config.P ^ 2 - 1) = 1 := by
  have : Finite Zq2 := Module.finite_of_finite Zq
  have : Fintype Zq2 := Fintype.ofFinite _
  have h := FiniteField.pow_card_sub_one_eq_one b hb
  rwa [← Nat.card_eq_fintype_card, card_zq2] at h

/-- An `e`-th root of `u` would make `NR^((P^2-1)/(2e))` be 1. -/
theorem no_root_of_u {e m r : Nat} (he : Config.P ^ 2 - 1 = e * (2 * (m * (Config.P + 1)))) (h0 : e ≠ 0)
    (hr : (toZq Config.NR) ^ (m * (Config.P + 1)) = (r : Zq)) (h1 : r % Config.P ≠ 1) (b : Zq2) : b ^ e ≠ uZq2 := by
  intro hb
  have hb0 : b ≠ 0 := by
    rintro rfl
    rw [zero_pow h0] at hb
    exact zero_ne_one (congrArg QuadraticAlgebra.im hb)
  have h := pow_card_zq2 hb0
  rw [he, pow_mul, hb, pow_mul, uZq2_sq, ← map_pow, hr, ← map_one (algebraMap Zq Zq2)] at h
  exact zq_natCast_ne_one h1 (FaithfulSMul.algebraMap_injective Zq Zq2 h)

theorem u_not_square (b : Zq2) : b ^ 2 ≠ uZq2 :=
  no_root_of_u (m := (Config.P - 1) / 4) (by decide +kernel) (by decide)
    (NR_pow (r := powMod Config.P 380 (Config.P - 5) ((Config.P - 1) / 4) 1) (r' := Config.P - 1) (by decide +kernel) rfl
      (by decide +kernel)) (by decide +kernel) b

theorem u_not_cube (b : Zq2) : b ^ 3 ≠ uZq2 :=
  no_root_of_u (m := (Config.P - 1) / 6)
    (r := powMod Config.P 380 (powMod Config.P 380 (Config.P - 5) ((Config.P - 1) / 6) 1) (Config.P + 1) 1)
    (by decide +kernel) (by decide)
    (NR_pow (r := powMod Config.P 380 (Config.P - 5) ((Config.P - 1) / 6) 1) (by decide +kernel) rfl rfl)
    (by decide +kernel) b

/-! ## Fq6 as a field -/

open Polynomial in
/-- The polynomial `v^3 - u`. -/
noncomputable abbrev towerPoly : Zq2[X] := X ^ 3 - C uZq2

theorem towerPoly_irreducible : Irreducible towerPoly :=
  X_pow_sub_C_irreducible_of_prime Nat.prime_three u_not_cube

theorem towerPoly_fact : Fact (Irreducible towerPoly) := ⟨towerPoly_irreducible⟩

theorem towerPoly_ne_zero : towerPoly ≠ 0 := towerPoly_irreducible.ne_zero

theorem towerPoly_degree : towerPoly.natDegree = 3 := Polynomial.natDegree_X_pow_sub_C

/-- Fq6. -/
abbrev Zq6 := AdjoinRoot towerPoly

/-- An Fq6 value as an element of the field. -/
noncomputable def toZq6 (a : Cubic Zq2) : Zq6 :=
  AdjoinRoot.mk towerPoly (Polynomial.C a.c0 + Polynomial.C a.c1 * Polynomial.X + Polynomial.C a.c2 * Polynomial.X ^ 2)

theorem toZq6_eq (a : Cubic Zq2) : toZq6 a = AdjoinRoot.of towerPoly a.c0 + AdjoinRoot.of towerPoly a.c1 * AdjoinRoot.root towerPoly +
    AdjoinRoot.of towerPoly a.c2 * AdjoinRoot.root towerPoly ^ 2 := by
  simp [toZq6]

theorem root_cube : AdjoinRoot.root towerPoly ^ 3 = AdjoinRoot.of towerPoly uZq2 := by
  have h := AdjoinRoot.eval₂_root towerPoly
  simpa [sub_eq_zero] using h

theorem toZq6_mul (a b : Cubic Zq2) : toZq6 (cubicMul uZq2 a b) = toZq6 a * toZq6 b := by
  simp only [toZq6_eq, cubicMul, map_add, map_mul]
  rw [← root_cube]
  ring

theorem toZq6_add (a b : Cubic Zq2) : toZq6 (cubicAdd a b) = toZq6 a + toZq6 b := by
  simp only [toZq6_eq, cubicAdd, map_add]
  ring

theorem toZq6_eq_zero {a : Cubic Zq2} (h : toZq6 a = 0) : a.c0 = 0 ∧ a.c1 = 0 ∧ a.c2 = 0 := by
  rw [toZq6, AdjoinRoot.mk_eq_zero] at h
  have h0 := Polynomial.eq_zero_of_dvd_of_natDegree_lt h (by
    rw [towerPoly_degree]
    refine lt_of_le_of_lt (b := 2) ?_ (by decide)
    compute_degree)
  have hc := fun i => congrArg (fun p => Polynomial.coeff p i) h0
  refine ⟨?_, ?_, ?_⟩
  · simpa [Polynomial.coeff_X, Polynomial.coeff_X_pow] using hc 0
  · simpa [Polynomial.coeff_X, Polynomial.coeff_C, Polynomial.coeff_X_pow] using hc 1
  · simpa [Polynomial.coeff_X, Polynomial.coeff_C, Polynomial.coeff_X_pow] using hc 2

theorem toZq6_injective : Function.Injective toZq6 := by
  rintro ⟨a0, a1, a2⟩ ⟨b0, b1, b2⟩ h
  have h1 : toZq6 ⟨a0 - b0, a1 - b1, a2 - b2⟩ = 0 := by
    simp only [toZq6_eq, map_sub] at h ⊢
    linear_combination h
  obtain ⟨h2, h3, h4⟩ := toZq6_eq_zero h1
  rw [sub_eq_zero.mp h2, sub_eq_zero.mp h3, sub_eq_zero.mp h4]

theorem pow_card_zq6 [Fact (Irreducible towerPoly)] {b : Zq6} (hb : b ≠ 0) : b ^ (Config.P ^ 6 - 1) = 1 := by
  let pb := AdjoinRoot.powerBasis towerPoly_ne_zero
  have hd : pb.dim = 3 := by
    rw [AdjoinRoot.powerBasis_dim, towerPoly_degree]
  have : Finite Zq2 := Module.finite_of_finite Zq
  have : Module.Finite Zq2 Zq6 := pb.finite
  have : Finite Zq6 := Module.finite_of_finite Zq2
  have : Fintype Zq6 := Fintype.ofFinite _
  have h := FiniteField.pow_card_sub_one_eq_one b hb
  rwa [← Nat.card_eq_fintype_card, Module.natCard_eq_pow_finrank (K := Zq2), pb.finrank, hd, card_zq2, ← pow_mul] at h

/-! ## Fq12 over it -/

/-- The norm `c0^2 - v c1^2` of Fq12 over Fq6. -/
noncomputable def norm12 (f : Fq12) : Zq6 :=
  toZq6 (toTower6 f.c0) ^ 2 - AdjoinRoot.root towerPoly * toZq6 (toTower6 f.c1) ^ 2

theorem toZq6_v : toZq6 ⟨0, 1, 0⟩ = AdjoinRoot.root towerPoly := by simp [toZq6_eq]

theorem mul_c0 (a b : Fq12) : toZq6 (toTower6 (fq12Mul a b).c0) = toZq6 (toTower6 a.c0) * toZq6 (toTower6 b.c0) +
    AdjoinRoot.root towerPoly * (toZq6 (toTower6 a.c1) * toZq6 (toTower6 b.c1)) := by
  show toZq6 (toTower (fq12Mul a b)).c0 = _
  rw [toTower_mul]
  simp only [towerMul, toZq6_add, toZq6_mul, toZq6_v, toTower]

theorem mul_c1 (a b : Fq12) : toZq6 (toTower6 (fq12Mul a b).c1) = toZq6 (toTower6 a.c0) * toZq6 (toTower6 b.c1) +
    toZq6 (toTower6 a.c1) * toZq6 (toTower6 b.c0) := by
  show toZq6 (toTower (fq12Mul a b)).c1 = _
  rw [toTower_mul]
  simp only [towerMul, toZq6_add, toZq6_mul, toTower]

theorem norm12_mul (a b : Fq12) : norm12 (fq12Mul a b) = norm12 a * norm12 b := by
  simp only [norm12, mul_c0, mul_c1]
  ring

theorem one_c0 : toZq6 (toTower6 fq12One.c0) = 1 := by
  have : toTower6 fq12One.c0 = ⟨1, 0, 0⟩ := by
    have h0 := toZq2_ofNat 0
    have h1 := toZq2_ofNat 1
    rw [Nat.cast_zero] at h0
    rw [Nat.cast_one] at h1
    exact congr (congrArg₂ Cubic.mk h1 h0) h0
  rw [this, toZq6_eq]
  simp

theorem one_c1 : toZq6 (toTower6 fq12One.c1) = 0 := by
  have : toTower6 fq12One.c1 = ⟨0, 0, 0⟩ := by
    have h0 := toZq2_ofNat 0
    rw [Nat.cast_zero] at h0
    exact congr (congrArg₂ Cubic.mk h0 h0) h0
  rw [this, toZq6_eq]
  simp

theorem fq12Mul_one (f : Fq12) : fq12Mul f fq12One = f := by
  refine toTower_injective (congrArg₂ Quad.mk (toZq6_injective ?_) (toZq6_injective ?_))
  · rw [mul_c0, one_c0, one_c1]; ring
  · rw [mul_c1, one_c0, one_c1]; ring

theorem norm12_one : norm12 fq12One = 1 := by
  rw [norm12, one_c0, one_c1]
  ring

/-- The final power is 1 on a non-zero element of Fq6. -/
theorem ateFinalExp_of_fq6 {f : Fq12} (h0 : toZq6 (toTower6 f.c0) ≠ 0) (h1 : toZq6 (toTower6 f.c1) = 0) :
    ateFinalExp f = fq12One := by
  have : Fact (Irreducible towerPoly) := towerPoly_fact
  obtain ⟨h2, h3⟩ := iterOp_map (op := fq12Mul) (e := fq12One) (a := f) (ψ := fun g => toZq6 (toTower6 g.c0))
    (S := fun g => toZq6 (toTower6 g.c1) = 0) one_c1 h1
    (fun x y hx hy => by rw [mul_c1, hx, hy]; ring) one_c0
    (fun x y hx hy => by rw [mul_c0, hx, hy]; ring) ((Config.P ^ 12 - 1) / Config.R)
  have he : (Config.P ^ 12 - 1) / Config.R = (Config.P ^ 6 - 1) * ((Config.P ^ 6 + 1) / Config.R) := by decide +kernel
  rw [he, pow_mul, pow_card_zq6 h0, one_pow, ← one_c0] at h3
  rw [← one_c1] at h2
  rw [ateFinalExp, fq12Pow, he]
  rw [he] at h2
  have e0 := toZq6_injective h3
  have e1 := toZq6_injective h2
  exact toTower_injective (congrArg₂ Quad.mk e0 e1)

/-! ## Fq12 as a field -/

theorem root_pow_six : AdjoinRoot.root towerPoly ^ 6 = algebraMap Zq Zq6 (toZq Config.NR) := by
  rw [show 6 = 3 * 2 by rfl, pow_mul, root_cube, ← map_pow, uZq2_sq]
  rfl

/-- `v` is no square of Fq6. -/
theorem v_not_square (b : Zq6) : b ^ 2 ≠ AdjoinRoot.root towerPoly := by
  have : Fact (Irreducible towerPoly) := towerPoly_fact
  intro hb
  have hb0 : b ≠ 0 := by
    rintro rfl
    have h := root_pow_six
    rw [← hb, zero_pow two_ne_zero, zero_pow (by decide), ← map_zero (algebraMap Zq Zq6)] at h
    have h' := FaithfulSMul.algebraMap_injective Zq Zq6 h
    rw [← Nat.cast_zero, ← toZq_fqOfNat] at h'
    exact absurd (toZq_injective h') (by decide)
  have h := pow_card_zq6 hb0
  have he : Config.P ^ 6 - 1 =
      2 * (6 * ((Config.P - 1) / 12 * (Config.P + 1) * (Config.P ^ 4 + Config.P ^ 2 + 1))) := by decide +kernel
  rw [he, pow_mul, hb, pow_mul, root_pow_six, ← map_pow, pow_mul,
    NR_pow (m := (Config.P - 1) / 12) (r := powMod Config.P 380 (Config.P - 5) ((Config.P - 1) / 12) 1)
      (r' := powMod Config.P 380 (powMod Config.P 380 (Config.P - 5) ((Config.P - 1) / 12) 1) (Config.P + 1) 1)
      (by decide +kernel) rfl rfl,
    pow_succ, pow_add, show Config.P ^ 4 = Config.P * Config.P * Config.P * Config.P by ring,
    show Config.P ^ 2 = Config.P * Config.P by ring] at h
  simp only [pow_mul, ZMod.pow_card] at h
  rw [← map_one (algebraMap Zq Zq6), ← Nat.cast_mul, ← Nat.cast_mul] at h
  exact zq_natCast_ne_one (by decide +kernel) (FaithfulSMul.algebraMap_injective Zq Zq6 h)

/-- A non-zero element of Fq12 has a non-zero norm. -/
theorem norm12_ne_zero {f : Fq12} (h : f ≠ fq12Zero) :
    norm12 f ≠ 0 := by
  have : Fact (Irreducible towerPoly) := towerPoly_fact
  intro h0
  have hz : toZq2 (fq2OfNat 0) = 0 := by rw [toZq2_ofNat, Nat.cast_zero]
  have hz6 : toZq6 (toTower6 ⟨fq2OfNat 0, fq2OfNat 0, fq2OfNat 0⟩) = 0 := by simp [toZq6_eq, toTower6, hz]
  have h1 : toZq6 (toTower6 f.c1) = 0 := by
    by_contra hc
    refine v_not_square (toZq6 (toTower6 f.c0) / toZq6 (toTower6 f.c1)) ?_
    rw [div_pow, div_eq_iff (pow_ne_zero 2 hc)]
    exact sub_eq_zero.mp h0
  have h2 : toZq6 (toTower6 f.c0) = 0 := by
    rw [norm12, h1, zero_pow two_ne_zero, mul_zero, sub_zero] at h0
    exact pow_eq_zero_iff two_ne_zero |>.mp h0
  exact h (toTower_injective (congrArg₂ Quad.mk (toZq6_injective (h2.trans hz6.symm)) (toZq6_injective (h1.trans hz6.symm))))

open Polynomial in
/-- The polynomial `w^2 - v`. -/
noncomputable abbrev topPoly : Zq6[X] := X ^ 2 - C (AdjoinRoot.root towerPoly)

theorem topPoly_irreducible [Fact (Irreducible towerPoly)] : Irreducible topPoly :=
  X_pow_sub_C_irreducible_of_prime Nat.prime_two v_not_square

/-- Fq12. -/
abbrev Zq12 := AdjoinRoot topPoly

/-- An Fq12 value as an element of the field. -/
noncomputable def toZq12 (f : Fq12) : Zq12 :=
  AdjoinRoot.of topPoly (toZq6 (toTower6 f.c0)) + AdjoinRoot.of topPoly (toZq6 (toTower6 f.c1)) * AdjoinRoot.root topPoly

theorem topRoot_sq : AdjoinRoot.root topPoly ^ 2 = AdjoinRoot.of topPoly (AdjoinRoot.root towerPoly) := by
  have h := AdjoinRoot.eval₂_root topPoly
  simpa [sub_eq_zero] using h

theorem toZq12_mul (a b : Fq12) : toZq12 (fq12Mul a b) = toZq12 a * toZq12 b := by
  simp only [toZq12, mul_c0, mul_c1, map_add, map_mul]
  rw [← topRoot_sq]
  ring

theorem toZq12_one : toZq12 fq12One = 1 := by
  rw [toZq12, one_c0, one_c1]
  simp

theorem toZq12_injective [Fact (Irreducible towerPoly)] : Function.Injective toZq12 := by
  intro a b h
  have hd : toZq12 a - toZq12 b = AdjoinRoot.mk topPoly (Polynomial.C (toZq6 (toTower6 a.c0) - toZq6 (toTower6 b.c0)) +
      Polynomial.C (toZq6 (toTower6 a.c1) - toZq6 (toTower6 b.c1)) * Polynomial.X) := by
    simp [toZq12]
    ring
  rw [h, sub_self] at hd
  have h0 := Polynomial.eq_zero_of_dvd_of_natDegree_lt (AdjoinRoot.mk_eq_zero.mp hd.symm) (by
    rw [Polynomial.natDegree_X_pow_sub_C]
    refine lt_of_le_of_lt (b := 1) ?_ (by decide)
    compute_degree)
  have hc := fun i => congrArg (fun p => Polynomial.coeff p i) h0
  have h1 : toZq6 (toTower6 a.c0) - toZq6 (toTower6 b.c0) = 0 := by simpa [Polynomial.coeff_X] using hc 0
  have h2 : toZq6 (toTower6 a.c1) - toZq6 (toTower6 b.c1) = 0 := by
    simpa [Polynomial.coeff_X, Polynomial.coeff_C] using hc 1
  exact toTower_injective
    (congrArg₂ Quad.mk (toZq6_injective (sub_eq_zero.mp h1)) (toZq6_injective (sub_eq_zero.mp h2)))

theorem card_zq6 : Nat.card Zq6 = Config.P ^ 6 := by
  let pb := AdjoinRoot.powerBasis towerPoly_ne_zero
  have hd : pb.dim = 3 := by
    rw [AdjoinRoot.powerBasis_dim, towerPoly_degree]
  have : Module.Finite Zq2 Zq6 := pb.finite
  rw [Module.natCard_eq_pow_finrank (K := Zq2), pb.finrank, hd, card_zq2, ← pow_mul]

theorem pow_card_zq12 [Fact (Irreducible towerPoly)] [Fact (Irreducible topPoly)] {b : Zq12} (hb : b ≠ 0) :
    b ^ (Config.P ^ 12 - 1) = 1 := by
  let pb := AdjoinRoot.powerBasis topPoly_irreducible.ne_zero
  have hd : pb.dim = 2 := by
    rw [AdjoinRoot.powerBasis_dim, Polynomial.natDegree_X_pow_sub_C]
  have : Finite Zq6 := Nat.finite_of_card_ne_zero (by rw [card_zq6]; decide)
  have : Module.Finite Zq6 Zq12 := pb.finite
  have : Finite Zq12 := Module.finite_of_finite Zq6
  have : Fintype Zq12 := Fintype.ofFinite _
  have h := FiniteField.pow_card_sub_one_eq_one b hb
  rwa [← Nat.card_eq_fintype_card, Module.natCard_eq_pow_finrank (K := Zq6), pb.finrank, hd, card_zq6, ← pow_mul] at h

theorem toZq12_pow (f : Fq12) (n : Nat) : toZq12 (fq12Pow f n) = toZq12 f ^ n :=
  (iterOp_map (op := fq12Mul) (e := fq12One) (a := f) (ψ := toZq12) (S := fun _ => True) trivial trivial
    (fun _ _ _ _ => trivial) toZq12_one (fun x y _ _ => toZq12_mul x y) n).2

/-- The final power maps a non-zero element into the subgroup of order R (43_pairing R230, FE-hom). -/
theorem ateFinalExp_order {f : Fq12} (h : norm12 f ≠ 0) : fq12Pow (ateFinalExp f) Config.R = fq12One := by
  have : Fact (Irreducible towerPoly) := towerPoly_fact
  have : Fact (Irreducible topPoly) := ⟨topPoly_irreducible⟩
  apply toZq12_injective
  rw [toZq12_pow, ateFinalExp, toZq12_pow, ← pow_mul, toZq12_one,
    show (Config.P ^ 12 - 1) / Config.R * Config.R = Config.P ^ 12 - 1 by decide +kernel]
  apply pow_card_zq12
  intro h0
  apply h
  have hc : toZq12 f * toZq12 ⟨f.c0, ⟨fq2Sub (fq2OfNat 0) f.c1.c0, fq2Sub (fq2OfNat 0) f.c1.c1, fq2Sub (fq2OfNat 0) f.c1.c2⟩⟩ =
      AdjoinRoot.of topPoly (norm12 f) := by
    have hn : toZq6 (toTower6 ⟨fq2Sub (fq2OfNat 0) f.c1.c0, fq2Sub (fq2OfNat 0) f.c1.c1, fq2Sub (fq2OfNat 0) f.c1.c2⟩) =
        -toZq6 (toTower6 f.c1) := by
      simp only [toZq6_eq, toTower6, toZq2_sub, toZq2_ofNat, Nat.cast_zero, map_sub, map_zero]
      ring
    simp only [toZq12, hn, norm12, map_sub, map_mul, map_neg, map_pow]
    rw [← topRoot_sq]
    ring
  rw [h0, zero_mul] at hc
  exact (map_eq_zero (AdjoinRoot.of topPoly)).mp hc.symm

end
end Sys2Proof.Machine
end

