-- ==== Sys2Proof/Machine/PairingParameters.lean ====
section
/-! DEFINITION. What MILLER_LOOP and FINAL_EXP are: two functions with the four properties 43_pairing R230 names, and nothing
else known of them (00_scope R7, D26; log 12). Below it two functions that have the properties, which show that the
parameters exist; no claim rests on them. -/
namespace Sys2Proof.Machine

/-- A value of the group G1: on its curve and of order R (42_dispatch R202). -/
def InG1 (p : G1) : Prop := onCurve fqOps Config.B1 p = true ∧ inSubgroup fqOps p = true

/-- A value of the group G2 (42_dispatch R202). -/
def InG2 (q : G2) : Prop := onCurve fq2Ops Config.B2 q = true ∧ inSubgroup fq2Ops q = true

/-- MILLER_LOOP and FINAL_EXP with the properties a model may assume (43_pairing R230). -/
structure PairingParameters where
  millerLoop : G1 → G2 → Fq12
  finalExp : Fq12 → Fq12
  /-- (ML): a Miller value is an element of Fq12*. -/
  ml : ∀ p q, InG1 p → InG2 q → p ≠ .inf → q ≠ .inf → millerLoop p q ≠ fq12Zero
  /-- (FE-hom): FINAL_EXP maps Fq12* into GT, the subgroup of order R. -/
  feOrder : ∀ a, a ≠ fq12Zero → fq12Pow (finalExp a) Config.R = fq12One
  /-- (FE-hom): FINAL_EXP is a homomorphism. -/
  feMul : ∀ a b, a ≠ fq12Zero → b ≠ fq12Zero → finalExp (fq12Mul a b) = fq12Mul (finalExp a) (finalExp b)
  /-- (FE-hom): `FINAL_EXP(1) = 1`. -/
  feOne : finalExp fq12One = fq12One
  /-- (BIL): `e([a]P, Q) = e(P, Q)^a = e(P, [a]Q)`. -/
  bil : ∀ p q (a : Nat), InG1 p → InG2 q → pointMul fqOps a p ≠ .inf → pointMul fq2Ops a q ≠ .inf →
    finalExp (millerLoop (pointMul fqOps a p) q) = fq12Pow (finalExp (millerLoop p q)) a ∧
    finalExp (millerLoop p (pointMul fq2Ops a q)) = fq12Pow (finalExp (millerLoop p q)) a
  /-- (NDG): `e(P, Q) ≠ 1` for every `P ≠ Inf` and `Q ≠ Inf`. -/
  ndg : ∀ p q, InG1 p → InG2 q → p ≠ .inf → q ≠ .inf → finalExp (millerLoop p q) ≠ fq12One

/-- The usual generator of G1 (93_implementation_defined I6). -/
def g1Generator : G1 := .aff
  (fqOfNat 0x008848defe740a67c8fc6225bf87ff5485951e2caa9d41bb188282c8bd37cb5cd5481512ffcd394eeab9b16eb21be9ef)
  (fqOfNat 0x01914a69c5102eff1f674f5d30afeec4bd7fb348ca3e52d96d182ad44fb82305c2fe3d3634a9591afd82de55559c8ea6)

/-- The usual generator of G2 (93_implementation_defined I6). -/
def g2Generator : G2 := .aff
  ⟨fqOfNat 0x018480be71c785fec89630a2a3841d01c565f071203e50317ea501f557db6b9b71889f52bb53540274e3e48f7c005196,
   fqOfNat 0x00ea6040e700403170dc5a51b1b140d5532777ee6651cecbe7223ece0799c9de5cf89984bff76fe6b26bfefa6ea16afe⟩
  ⟨fqOfNat 0x00690d665d446f7bd960736bcbb2efb4de03ed7274b49a58e458c282f832d204f2cf88886d8c7c2ef094094409fd4ddf,
   fqOfNat 0x00f8169fd28355189e549da3151a70aa61ef11ac3d591bf12463b01acee304c24279b83f5e52270bd9a1cdd185eb8f93⟩

/-! ## Functions that have the properties -/

/-- The last number below `n` that passes the test, or 0. -/
def searchBelow (test : Nat → Bool) : (n : Nat) → Nat
  | 0 => 0
  | n + 1 => bif test n then n else searchBelow test n

/-- The number `a < R` with `[a]g = q`, for a `q` that has one. -/
def pointLog {F : Type} [DecidableEq F] (K : FieldOps F) (g q : Point F) : Nat :=
  searchBelow (fun a => decide (pointMul K a g = q)) Config.R

/-- Every element of Fq, by value. -/
def fqAll : List Fq := List.finRange Config.P

/-- The pairs of the elements of a list. -/
def quadAll {F : Type} (l : List F) : List (Quad F) := l.flatMap fun a => l.map fun b => ⟨a, b⟩

/-- The triples of the elements of a list. -/
def cubicAll {F : Type} (l : List F) : List (Cubic F) := l.flatMap fun a => l.flatMap fun b => l.map fun c => ⟨a, b, c⟩

/-- An element of Fq12* whose power by the final exponent is not 1. -/
def gtPreimage : Fq12 :=
  ((quadAll (cubicAll (quadAll fqAll))).find? fun f => decide (f ≠ fq12Zero) && !isOne (ateFinalExp f)).getD fq12One

/-- A bilinear map by logarithms: the power of one element by the product of the two logarithms. -/
def logMillerLoop (p : G1) (q : G2) : Fq12 :=
  fq12Pow gtPreimage (pointLog fqOps g1Generator p * pointLog fq2Ops g2Generator q)

end Sys2Proof.Machine
end

