-- ==== Sys2Proof/Laws/Subgroups.lean ====
section
/-! SUPPORT. G1 and G2 are cyclic of order R (42_dispatch R202, 43_pairing R236): every point of order R is a multiple of the
usual generator. -/
namespace Sys2Proof.Machine

section
variable {F k : Type} [Field k] [DecidableEq k] {K : FieldOps F} {φ : F → k} {b : F}

/-- `R^2` does not divide the number of points, given the size of the field. -/
theorem not_R_sq_dvd_card [Fintype k] (hK : CurveMap K φ b) (h2 : K.ofNat 2 ≠ K.ofNat 0) (hb : φ b ≠ 0) {s t : ℤ}
    (hs : (Fintype.card k : ℤ) = s) (ht : (s + 1) % ((Config.R : ℤ) ^ 2) = t) (h3 : 12 * s < t ^ 2)
    (h4 : 12 * s < ((Config.R : ℤ) ^ 2 - t) ^ 2) : ¬ Config.R ^ 2 ∣ Nat.card (curveOf (φ b)).Point := by
  have hk : ringChar k ≠ 2 := by
    intro h
    have h0 := ringChar.Nat.cast_ringChar (R := k)
    rw [h, ← hK.real.ofNat, ← Nat.cast_zero, ← hK.real.ofNat] at h0
    exact h2 (hK.real.inj h0)
  intro hd
  have hd' : ((Config.R : ℤ) ^ 2) ∣ (Nat.card (curveOf (φ b)).Point : ℤ) := by exact_mod_cast hd
  rw [card_point hk hK.disc, hs] at hd'
  have h5 := cubicSum_sq_le hk hb
  rw [hs] at h5
  refine not_dvd_of_bound h5 ht ?_ h3 h4 hd'
  have := R_prime.pos
  positivity

variable [DecidableEq F]

/-- A point of order R is a multiple of any other. -/
theorem exists_pointMul_eq [Fintype k] (hK : CurveMap K φ b) (hc : ¬ Config.R ^ 2 ∣ Nat.card (curveOf (φ b)).Point) {g q : Point F}
    (hg : onCurve K b g = true) (hgR : inSubgroup K g = true) (hg0 : g ≠ .inf) (hq : onCurve K b q = true)
    (hqR : inSubgroup K q = true) : ∃ a, a < Config.R ∧ pointMul K a g = q := by
  have := finite_point hK.disc
  have hm : ∀ {p : Point F}, onCurve K b p = true → inSubgroup K p = true → Config.R • toPoint φ (φ b) p = 0 := by
    intro p hp hpR
    rw [← (pointMul_map hK Config.R hp).2, of_decide_eq_true hpR, toPoint_inf]
  obtain ⟨a, ha, h⟩ := exists_nsmul_eq R_prime hc (hm hg hgR)
    (fun h => hg0 (toPoint_injective hK hg (q := .inf) rfl (h.trans toPoint_inf.symm))) (hm hq hqR)
  have h1 := pointMul_map hK a hg
  exact ⟨a, ha, toPoint_injective hK h1.1 hq (by rw [h1.2, h])⟩

/-- Multiples of a point of order R are equal exactly when the factors agree modulo R. -/
theorem pointMul_eq_iff (hK : CurveMap K φ b) {g : Point F} (hg : onCurve K b g = true) (hgR : inSubgroup K g = true)
    (hg0 : g ≠ .inf) (a c : Nat) : pointMul K a g = pointMul K c g ↔ a % Config.R = c % Config.R := by
  have : Fact Config.R.Prime := ⟨R_prime⟩
  have h0 : Config.R • toPoint φ (φ b) g = 0 := by
    rw [← (pointMul_map hK Config.R hg).2, of_decide_eq_true hgR, toPoint_inf]
  have ho : addOrderOf (toPoint φ (φ b) g) = Config.R := addOrderOf_eq_prime h0
    (fun h => hg0 (toPoint_injective hK hg (q := .inf) rfl (h.trans toPoint_inf.symm)))
  have ha := pointMul_map hK a hg
  have hc := pointMul_map hK c hg
  have h1 : pointMul K a g = pointMul K c g ↔ a • toPoint φ (φ b) g = c • toPoint φ (φ b) g := by
    rw [← ha.2, ← hc.2]
    exact ⟨fun h => by rw [h], toPoint_injective hK ha.1 hc.1⟩
  rw [h1, nsmul_eq_nsmul_iff_modEq, ho]
  rfl

/-- A multiple of a point of order R is in the subgroup. -/
theorem pointMul_inSubgroup (hK : CurveMap K φ b) {g : Point F} (hg : onCurve K b g = true) (hgR : inSubgroup K g = true)
    (a : Nat) : onCurve K b (pointMul K a g) = true ∧ inSubgroup K (pointMul K a g) = true := by
  have ha := pointMul_map hK a hg
  have h := pointMul_map hK Config.R ha.1
  refine ⟨ha.1, decide_eq_true (toPoint_injective hK h.1 rfl ?_)⟩
  rw [h.2, ha.2, smul_comm, ← (pointMul_map hK Config.R hg).2, of_decide_eq_true hgR, toPoint_inf, smul_zero]

theorem pointMul_mul (hK : CurveMap K φ b) {g : Point F} (hg : onCurve K b g = true) (a c : Nat) :
    pointMul K a (pointMul K c g) = pointMul K (a * c) g := by
  have hc := pointMul_map hK c hg
  have h1 := pointMul_map hK a hc.1
  have h2 := pointMul_map hK (a * c) hg
  exact toPoint_injective hK h1.1 h2.1 (by rw [h1.2, hc.2, h2.2, mul_smul])

end

/-! ## The two groups -/

/-- The generators are in the groups (93_implementation_defined I1, I6). -/
theorem inG1_generator : InG1 g1Generator := by
  unfold InG1; decide +kernel

theorem inG2_generator : InG2 g2Generator := by
  unfold InG2; decide +kernel

theorem R_sq_not_dvd_g1 [Fact (Nat.Prime Config.P)] : ¬ Config.R ^ 2 ∣ Nat.card (curveOf (toZq Config.B1)).Point := by
  classical
  have hs : (Fintype.card Zq : ℤ) = (Config.P : ℤ) := by rw [ZMod.card]
  refine not_R_sq_dvd_card curveMap_g1 (by decide) ?_ hs rfl (by decide +kernel) (by decide +kernel)
  intro h
  have h0 : toZq Config.B1 = toZq (fqOfNat 0) := by rw [h, toZq_fqOfNat, Nat.cast_zero]
  exact absurd (toZq_injective h0) (by decide)

theorem R_sq_not_dvd_g2 [Fact (Nat.Prime Config.P)] [Fact (∀ r : Zq, r ^ 2 ≠ -5 + 0 * r)] :
    ¬ Config.R ^ 2 ∣ Nat.card (curveOf (toZq2 Config.B2)).Point := by
  classical
  have : Finite Zq2 := Module.finite_of_finite Zq
  have : Fintype Zq2 := Fintype.ofFinite _
  have hs : (Fintype.card Zq2 : ℤ) = (Config.P : ℤ) ^ 2 := by
    rw [← Nat.card_eq_fintype_card, card_zq2]; push_cast
  refine not_R_sq_dvd_card curveMap_g2 (by decide) ?_ hs rfl (by decide +kernel) (by decide +kernel)
  intro h
  have h0 : toZq2 Config.B2 = toZq2 (fq2OfNat 0) := by rw [h, toZq2_ofNat, Nat.cast_zero]
  exact absurd (toZq2_injective h0) (by decide)

/-- Every value of G1 is a multiple of any one but Inf (43_pairing R236: G1 is cyclic of prime order R). -/
theorem exists_log_g1 {g p : G1} (hg : InG1 g) (hg0 : g ≠ .inf) (h : InG1 p) :
    ∃ a, a < Config.R ∧ pointMul fqOps a g = p := by
  have : Fact (Nat.Prime Config.P) := ⟨P_prime⟩
  classical
  exact exists_pointMul_eq curveMap_g1 R_sq_not_dvd_g1 hg.1 hg.2 hg0 h.1 h.2

/-- Every value of G2 is a multiple of any one but Inf. -/
theorem exists_log_g2 {g q : G2} (hg : InG2 g) (hg0 : g ≠ .inf) (h : InG2 q) :
    ∃ a, a < Config.R ∧ pointMul fq2Ops a g = q := by
  have : Fact (Nat.Prime Config.P) := ⟨P_prime⟩
  have : Fact (∀ r : Zq, r ^ 2 ≠ -5 + 0 * r) := neg_five_fact
  classical
  have : Finite Zq2 := Module.finite_of_finite Zq
  have : Fintype Zq2 := Fintype.ofFinite _
  exact exists_pointMul_eq curveMap_g2 R_sq_not_dvd_g2 hg.1 hg.2 hg0 h.1 h.2

theorem pointMul_g1_eq_iff {g : G1} (hg : InG1 g) (hg0 : g ≠ .inf) (a c : Nat) :
    pointMul fqOps a g = pointMul fqOps c g ↔ a % Config.R = c % Config.R := by
  have : Fact (Nat.Prime Config.P) := ⟨P_prime⟩
  classical
  exact pointMul_eq_iff curveMap_g1 hg.1 hg.2 hg0 a c

theorem pointMul_g2_eq_iff {g : G2} (hg : InG2 g) (hg0 : g ≠ .inf) (a c : Nat) :
    pointMul fq2Ops a g = pointMul fq2Ops c g ↔ a % Config.R = c % Config.R := by
  have : Fact (Nat.Prime Config.P) := ⟨P_prime⟩
  have : Fact (∀ r : Zq, r ^ 2 ≠ -5 + 0 * r) := neg_five_fact
  classical
  exact pointMul_eq_iff curveMap_g2 hg.1 hg.2 hg0 a c

theorem InG1.mul {p : G1} (h : InG1 p) (a : Nat) : InG1 (pointMul fqOps a p) := by
  have : Fact (Nat.Prime Config.P) := ⟨P_prime⟩
  classical
  exact pointMul_inSubgroup curveMap_g1 h.1 h.2 a

theorem InG2.mul {q : G2} (h : InG2 q) (a : Nat) : InG2 (pointMul fq2Ops a q) := by
  have : Fact (Nat.Prime Config.P) := ⟨P_prime⟩
  have : Fact (∀ r : Zq, r ^ 2 ≠ -5 + 0 * r) := neg_five_fact
  classical
  exact pointMul_inSubgroup curveMap_g2 h.1 h.2 a

theorem pointMul_g1_eq_inf_iff {g : G1} (hg : InG1 g) (hg0 : g ≠ .inf) (a : Nat) :
    pointMul fqOps a g = .inf ↔ a % Config.R = 0 := (pointMul_g1_eq_iff hg hg0 a 0).trans (by rw [Nat.zero_mod])

theorem pointMul_mul_g1 {p : G1} (h : InG1 p) (a c : Nat) :
    pointMul fqOps a (pointMul fqOps c p) = pointMul fqOps (a * c) p := by
  have : Fact (Nat.Prime Config.P) := ⟨P_prime⟩
  classical
  exact pointMul_mul curveMap_g1 h.1 a c

theorem pointMul_g2_eq_inf_iff {g : G2} (hg : InG2 g) (hg0 : g ≠ .inf) (a : Nat) :
    pointMul fq2Ops a g = .inf ↔ a % Config.R = 0 := (pointMul_g2_eq_iff hg hg0 a 0).trans (by rw [Nat.zero_mod])

theorem pointMul_mul_g2 {q : G2} (h : InG2 q) (a c : Nat) :
    pointMul fq2Ops a (pointMul fq2Ops c q) = pointMul fq2Ops (a * c) q := by
  have : Fact (Nat.Prime Config.P) := ⟨P_prime⟩
  have : Fact (∀ r : Zq, r ^ 2 ≠ -5 + 0 * r) := neg_five_fact
  classical
  exact pointMul_mul curveMap_g2 h.1 a c

/-- The negative of a value of G1 is its multiple by `R - 1`. -/
theorem pointNeg_g1 {p : G1} (h : InG1 p) : pointNeg fqOps p = pointMul fqOps (Config.R - 1) p := by
  have : Fact (Nat.Prime Config.P) := ⟨P_prime⟩
  classical
  have hn := pointNeg_map curveMap_g1 h.1
  have hm := pointMul_map curveMap_g1 (Config.R - 1) h.1
  have hR := (pointMul_map curveMap_g1 Config.R h.1).2
  rw [of_decide_eq_true h.2, toPoint_inf, show Config.R = Config.R - 1 + 1 by decide, add_smul, one_smul] at hR
  exact toPoint_injective curveMap_g1 hn.1 hm.1 (hn.2.trans ((eq_neg_of_add_eq_zero_left hR.symm).symm.trans hm.2.symm))

theorem pointMul_zero {F : Type} [DecidableEq F] (K : FieldOps F) (q : Point F) : pointMul K 0 q = .inf := rfl

end Sys2Proof.Machine
end

