-- ==== Sys2Proof/Laws/PairingExists.lean ====
section
/-! SUPPORT. Two functions with the properties of 43_pairing R230 exist: the final power and the Miller loop by logarithms. -/
namespace Sys2Proof.Machine

/-! ## Logarithms -/

theorem searchBelow_spec {test : Nat → Bool} {n a : Nat} (ha : a < n) (h : test a = true) :
    test (searchBelow test n) = true := by
  induction n with
  | zero => omega
  | succ n ih =>
    rw [searchBelow]
    cases hn : test n with
    | true => exact hn
    | false =>
      rcases Nat.lt_succ_iff_lt_or_eq.mp ha with h' | rfl
      · exact ih h'
      · rw [h] at hn; cases hn

theorem pointLog_g1 {p : G1} (h : InG1 p) : pointMul fqOps (pointLog fqOps g1Generator p) g1Generator = p := by
  obtain ⟨a, ha, h⟩ := exists_log_g1 inG1_generator nofun h
  exact of_decide_eq_true (searchBelow_spec (test := fun a => decide (pointMul fqOps a g1Generator = p)) ha (decide_eq_true h))

theorem pointLog_g2 {q : G2} (h : InG2 q) : pointMul fq2Ops (pointLog fq2Ops g2Generator q) g2Generator = q := by
  obtain ⟨a, ha, h⟩ := exists_log_g2 inG2_generator nofun h
  exact of_decide_eq_true (searchBelow_spec (test := fun a => decide (pointMul fq2Ops a g2Generator = q)) ha (decide_eq_true h))

/-- The logarithm of a multiple. -/
theorem pointLog_mul_g1 {p : G1} (h : InG1 p) (a : Nat) :
    pointLog fqOps g1Generator (pointMul fqOps a p) % Config.R = a * pointLog fqOps g1Generator p % Config.R := by
  rw [← pointMul_g1_eq_iff inG1_generator nofun, pointLog_g1 (h.mul a), ← pointMul_mul_g1 inG1_generator, pointLog_g1 h]

theorem pointLog_mul_g2 {q : G2} (h : InG2 q) (a : Nat) :
    pointLog fq2Ops g2Generator (pointMul fq2Ops a q) % Config.R = a * pointLog fq2Ops g2Generator q % Config.R := by
  rw [← pointMul_g2_eq_iff inG2_generator nofun, pointLog_g2 (h.mul a), ← pointMul_mul_g2 inG2_generator, pointLog_g2 h]

theorem pointLog_g1_not_dvd {p : G1} (h : InG1 p) (h0 : p ≠ .inf) : ¬ Config.R ∣ pointLog fqOps g1Generator p := fun hd =>
  h0 ((pointLog_g1 h).symm.trans ((pointMul_g1_eq_inf_iff inG1_generator nofun _).mpr (Nat.mod_eq_zero_of_dvd hd)))

theorem pointLog_g2_not_dvd {q : G2} (h : InG2 q) (h0 : q ≠ .inf) : ¬ Config.R ∣ pointLog fq2Ops g2Generator q := fun hd =>
  h0 ((pointLog_g2 h).symm.trans ((pointMul_g2_eq_inf_iff inG2_generator nofun _).mpr (Nat.mod_eq_zero_of_dvd hd)))

/-! ## An element the final power does not send to 1 -/

def quadEquiv (A : Type) : Quad A ≃ A × A := ⟨fun a => (a.c0, a.c1), fun a => ⟨a.1, a.2⟩, fun _ => rfl, fun _ => rfl⟩

def cubicEquiv (A : Type) : Cubic A ≃ A × A × A :=
  ⟨fun a => (a.c0, a.c1, a.c2), fun a => ⟨a.1, a.2.1, a.2.2⟩, fun _ => rfl, fun _ => rfl⟩

theorem card_fq12 : Nat.card Fq12 = Config.P ^ 12 := by
  have h : Nat.card Fq = Config.P := by rw [Nat.card_eq_fintype_card, Fintype.card_fin]
  rw [Nat.card_congr (quadEquiv _), Nat.card_prod, Nat.card_congr (cubicEquiv _), Nat.card_prod, Nat.card_prod,
    Nat.card_congr (quadEquiv _), Nat.card_prod, h]
  ring

theorem toZq12_ne_zero [Fact (Nat.Prime Config.P)] [Fact (∀ r : Zq, r ^ 2 ≠ -5 + 0 * r)] [Fact (Irreducible towerPoly)]
    {f : Fq12} : toZq12 f ≠ 0 ↔ f ≠ fq12Zero := by
  have hz : toZq12 fq12Zero = 0 := by
    have hz : toZq2 (fq2OfNat 0) = 0 := by rw [toZq2_ofNat, Nat.cast_zero]
    simp [toZq12, fq12Zero, toZq6_eq, toTower6, hz]
  rw [← hz, toZq12_injective.ne_iff]

theorem toZq12_ateFinalExp [Fact (Nat.Prime Config.P)] [Fact (∀ r : Zq, r ^ 2 ≠ -5 + 0 * r)] (f : Fq12) :
    toZq12 (ateFinalExp f) = toZq12 f ^ ((Config.P ^ 12 - 1) / Config.R) := toZq12_pow f _

theorem mem_quadAll {F : Type} {l : List F} (h : ∀ a, a ∈ l) (f : Quad F) : f ∈ quadAll l := by
  obtain ⟨a, b⟩ := f
  simp [quadAll, h]

theorem mem_cubicAll {F : Type} {l : List F} (h : ∀ a, a ∈ l) (f : Cubic F) : f ∈ cubicAll l := by
  obtain ⟨a, b, c⟩ := f
  simp [cubicAll, h]

theorem mem_fqAll (a : Fq) : a ∈ fqAll := by
  unfold fqAll
  exact List.mem_finRange a

theorem find?_getD_spec {F : Type} {l : List F} {p : F → Bool} {f d : F} (hm : f ∈ l) (hp : p f = true) :
    p ((l.find? p).getD d) = true := by
  obtain ⟨g, hg⟩ := Option.isSome_iff_exists.mp (List.find?_isSome.mpr ⟨f, hm, hp⟩)
  rw [hg]
  exact List.find?_some hg

theorem gtPreimage_spec : gtPreimage ≠ fq12Zero ∧ ateFinalExp gtPreimage ≠ fq12One := by
  have : Fact (Nat.Prime Config.P) := ⟨P_prime⟩
  have : Fact (∀ r : Zq, r ^ 2 ≠ -5 + 0 * r) := neg_five_fact
  have : Fact (Irreducible towerPoly) := towerPoly_fact
  have : Fact (Irreducible topPoly) := ⟨topPoly_irreducible⟩
  classical
  have key : ∃ f, f ≠ fq12Zero ∧ ateFinalExp f ≠ fq12One := by
    by_contra hc
    push Not at hc
    have hfin : Finite Fq12 := Nat.finite_of_card_ne_zero (by rw [card_fq12]; exact pow_ne_zero _ (by decide))
    have : Fintype Fq12 := Fintype.ofFinite _
    have h1 : (Finset.univ.erase fq12Zero).image toZq12 ⊆
        (Polynomial.nthRoots ((Config.P ^ 12 - 1) / Config.R) (1 : Zq12)).toFinset := by
      intro z hz
      obtain ⟨f, hf, rfl⟩ := Finset.mem_image.mp hz
      rw [Multiset.mem_toFinset, Polynomial.mem_nthRoots (by decide +kernel), ← toZq12_ateFinalExp,
        hc f (Finset.ne_of_mem_erase hf), toZq12_one]
    have h2 := (Finset.card_le_card h1).trans ((Multiset.toFinset_card_le _).trans (Polynomial.card_nthRoots _ _))
    rw [Finset.card_image_of_injective _ toZq12_injective, Finset.card_erase_of_mem (Finset.mem_univ _), Finset.card_univ,
      ← Nat.card_eq_fintype_card, card_fq12] at h2
    exact absurd h2 (by decide +kernel)
  obtain ⟨f, h1, h2⟩ := key
  have h := find?_getD_spec (l := quadAll (cubicAll (quadAll fqAll))) (d := fq12One)
    (p := fun f => decide (f ≠ fq12Zero) && !isOne (ateFinalExp f))
    (mem_quadAll (mem_cubicAll (mem_quadAll mem_fqAll)) f) (Bool.and_eq_true_iff.mpr
      ⟨decide_eq_true h1, Bool.not_eq_true' _ ▸ decide_eq_false h2⟩)
  obtain ⟨h3, h4⟩ := Bool.and_eq_true_iff.mp h
  exact ⟨of_decide_eq_true h3, of_decide_eq_false ((Bool.not_eq_true' _).mp h4)⟩

/-! ## The properties of 43_pairing R230 -/

theorem pow_eq_pow_of_modEq {M : Type} [Monoid M] {z : M} {a b : Nat} (h : a ≡ b [MOD orderOf z]) : z ^ a = z ^ b := by
  rw [← pow_mod_orderOf z a, h, pow_mod_orderOf]

/-- The final power of a Miller value by logarithms is a power of one element of order R. -/
theorem logPairing_eq [Fact (Nat.Prime Config.P)] [Fact (∀ r : Zq, r ^ 2 ≠ -5 + 0 * r)] [Fact (Irreducible towerPoly)]
    [Fact (Irreducible topPoly)] : ∃ z : Zq12, orderOf z = Config.R ∧ ∀ p q, toZq12 (ateFinalExp (logMillerLoop p q)) =
      z ^ (pointLog fqOps g1Generator p * pointLog fq2Ops g2Generator q) := by
  have : Fact (Nat.Prime Config.R) := ⟨R_prime⟩
  obtain ⟨h1, h2⟩ := gtPreimage_spec
  refine ⟨toZq12 (ateFinalExp gtPreimage), orderOf_eq_prime ?_ ?_, fun p q => ?_⟩
  · rw [← toZq12_pow, ateFinalExp_order (norm12_ne_zero h1), toZq12_one]
  · rw [← toZq12_one, toZq12_injective.ne_iff]; exact h2
  · rw [toZq12_ateFinalExp, logMillerLoop, toZq12_pow, ← pow_mul, mul_comm, pow_mul, ← toZq12_ateFinalExp]

theorem logMillerLoop_ne_zero (p : G1) (q : G2) : logMillerLoop p q ≠ fq12Zero := by
  have : Fact (Nat.Prime Config.P) := ⟨P_prime⟩
  have : Fact (∀ r : Zq, r ^ 2 ≠ -5 + 0 * r) := neg_five_fact
  have : Fact (Irreducible towerPoly) := towerPoly_fact
  have : Fact (Irreducible topPoly) := ⟨topPoly_irreducible⟩
  rw [← toZq12_ne_zero, logMillerLoop, toZq12_pow]
  exact pow_ne_zero _ (toZq12_ne_zero.mpr gtPreimage_spec.1)

theorem ateFinalExp_feOrder {a : Fq12} (ha : a ≠ fq12Zero) : fq12Pow (ateFinalExp a) Config.R = fq12One := by
  have : Fact (Nat.Prime Config.P) := ⟨P_prime⟩
  have : Fact (∀ r : Zq, r ^ 2 ≠ -5 + 0 * r) := neg_five_fact
  exact ateFinalExp_order (norm12_ne_zero ha)

theorem ateFinalExp_mul (a b : Fq12) : ateFinalExp (fq12Mul a b) = fq12Mul (ateFinalExp a) (ateFinalExp b) := by
  have : Fact (Nat.Prime Config.P) := ⟨P_prime⟩
  have : Fact (∀ r : Zq, r ^ 2 ≠ -5 + 0 * r) := neg_five_fact
  have : Fact (Irreducible towerPoly) := towerPoly_fact
  apply toZq12_injective
  rw [toZq12_ateFinalExp, toZq12_mul, toZq12_mul, mul_pow, toZq12_ateFinalExp, toZq12_ateFinalExp]

theorem ateFinalExp_one : ateFinalExp fq12One = fq12One := by
  have : Fact (Nat.Prime Config.P) := ⟨P_prime⟩
  have : Fact (∀ r : Zq, r ^ 2 ≠ -5 + 0 * r) := neg_five_fact
  have : Fact (Irreducible towerPoly) := towerPoly_fact
  apply toZq12_injective
  rw [toZq12_ateFinalExp, toZq12_one, one_pow]

theorem logPairing_bilG1 {p : G1} (q : G2) (a : Nat) (hp : InG1 p) :
    ateFinalExp (logMillerLoop (pointMul fqOps a p) q) = fq12Pow (ateFinalExp (logMillerLoop p q)) a := by
  have : Fact (Nat.Prime Config.P) := ⟨P_prime⟩
  have : Fact (∀ r : Zq, r ^ 2 ≠ -5 + 0 * r) := neg_five_fact
  have : Fact (Irreducible towerPoly) := towerPoly_fact
  have : Fact (Irreducible topPoly) := ⟨topPoly_irreducible⟩
  obtain ⟨z, hz, he⟩ := logPairing_eq
  apply toZq12_injective
  rw [toZq12_pow, he, he, ← pow_mul]
  refine pow_eq_pow_of_modEq ?_
  rw [hz]
  have h := (show _ ≡ _ [MOD Config.R] from pointLog_mul_g1 hp a).mul_right (pointLog fq2Ops g2Generator q)
  rwa [show ∀ x y w : Nat, x * y * w = y * w * x from fun x y w => by ring] at h

theorem logPairing_bilG2 (p : G1) {q : G2} (a : Nat) (hq : InG2 q) :
    ateFinalExp (logMillerLoop p (pointMul fq2Ops a q)) = fq12Pow (ateFinalExp (logMillerLoop p q)) a := by
  have : Fact (Nat.Prime Config.P) := ⟨P_prime⟩
  have : Fact (∀ r : Zq, r ^ 2 ≠ -5 + 0 * r) := neg_five_fact
  have : Fact (Irreducible towerPoly) := towerPoly_fact
  have : Fact (Irreducible topPoly) := ⟨topPoly_irreducible⟩
  obtain ⟨z, hz, he⟩ := logPairing_eq
  apply toZq12_injective
  rw [toZq12_pow, he, he, ← pow_mul]
  refine pow_eq_pow_of_modEq ?_
  rw [hz]
  have h := (show _ ≡ _ [MOD Config.R] from pointLog_mul_g2 hq a).mul_left (pointLog fqOps g1Generator p)
  rwa [show ∀ x y w : Nat, w * (x * y) = w * y * x from fun x y w => by ring] at h

theorem logPairing_ndg {p : G1} {q : G2} (hp : InG1 p) (hq : InG2 q) (hp0 : p ≠ .inf) (hq0 : q ≠ .inf) :
    ateFinalExp (logMillerLoop p q) ≠ fq12One := by
  have : Fact (Nat.Prime Config.P) := ⟨P_prime⟩
  have : Fact (∀ r : Zq, r ^ 2 ≠ -5 + 0 * r) := neg_five_fact
  have : Fact (Irreducible towerPoly) := towerPoly_fact
  have : Fact (Irreducible topPoly) := ⟨topPoly_irreducible⟩
  obtain ⟨z, hz, he⟩ := logPairing_eq
  intro h
  rw [← toZq12_injective.eq_iff, he, toZq12_one, ← orderOf_dvd_iff_pow_eq_one, hz, R_prime.dvd_mul] at h
  exact h.elim (pointLog_g1_not_dvd hp hp0) (pointLog_g2_not_dvd hq hq0)

end Sys2Proof.Machine
end

