-- ==== Sys2Proof/Machine/Pairing.lean ====
section
/-! DEFINITION. The parameters MILLER_LOOP and FINAL_EXP, and PAIRING (43_pairing). -/
namespace Sys2Proof

/-- That there are two functions with the properties, which a free choice among them needs; nothing rests on this pair. -/
def Machine.logPairing : Machine.PairingParameters where
  millerLoop := Machine.logMillerLoop
  finalExp := Machine.ateFinalExp
  ml p q _ _ _ _ := Machine.logMillerLoop_ne_zero p q
  feOrder _ ha := Machine.ateFinalExp_feOrder ha
  feMul a b _ _ := Machine.ateFinalExp_mul a b
  feOne := Machine.ateFinalExp_one
  bil p q a hp hq _ _ := ⟨Machine.logPairing_bilG1 q a hp, Machine.logPairing_bilG2 p a hq⟩
  ndg _ _ hp hq hp0 hq0 := Machine.logPairing_ndg hp hq hp0 hq0

/-- MILLER_LOOP and FINAL_EXP of this implementation: any two functions with the properties of 43_pairing R230 (00_scope
R7; log 12). -/
def Config.pairing : Machine.PairingParameters :=
  @Config.freeChoice _ ⟨Machine.logPairing⟩

namespace Machine

/-- `MILLER_LOOP(P, Q)`, a parameter (43_pairing R230). -/
def millerLoop (p : G1) (q : G2) : Fq12 := Config.pairing.millerLoop p q

/-- `FINAL_EXP(f)`, a parameter (43_pairing R230). -/
def finalExp (f : Fq12) : Fq12 := Config.pairing.finalExp f

/-! ## The operation (43_pairing R232 to R235) -/

/-- The pair at `off`: its G1 point, then its G2 point. -/
def readPair (s : State) (off : Nat) : Except OpError (G1 × G2) :=
  decodePair (readPoint groupG1 s off) (readPoint groupG2 s (off + 128))

/-- `ACC_F <- ACC_F * MILLER_LOOP(P, Q)`; a pair with an infinity side gives no factor (43_pairing R235). -/
def pairFactor (f : Fq12) (pq : G1 × G2) : Fq12 :=
  if pq.1 = .inf ∨ pq.2 = .inf then f else fq12Mul f (millerLoop pq.1 pq.2)

/-- The pairs in input order, `IDX <- i`, one factor each (43_pairing R232). -/
def pairingLoop : List Nat → State → Except OpError State
  | [], s => .ok s
  | i :: is, s =>
    match readPair s (384 * i) with
    | .error e => .error e
    | .ok pq => pairingLoop is ((s.setIdx i).setAccF (pairFactor s.accF pq))

/-- `PAIRING_compute(n)` (43_pairing R232): one final exponentiation after all factors are in (R233). -/
def pairingCompute : Compute := fun n s =>
  match pairingLoop (List.range (n / 384)) (s.setAccF fq12One) with
  | .error e => .error e
  | .ok s => .ok (s.setPhase .finalExp, encodeBool32 (isOne (finalExp s.accF)))

/-- PAIRING (43_pairing R232). -/
def execPairing (inLen : Nat) (s : State) : Host.Outcome State Fault Refusal :=
  runOperation .pairing pairingCompute inLen s

end Machine
end Sys2Proof
end

