-- ==== Sys2Proof/Machine/Dispatch.lean ====
section
/-! DEFINITION. One instruction: one arm per row of the opcode table. -/
namespace Sys2Proof.Machine

def exec (i : Instr) (s : State) : Host.Outcome State Fault Refusal :=
  match i with
  | .g1add inLen => Sys2Proof.Machine.execG1Add inLen s
  | .g1mul inLen => Sys2Proof.Machine.execG1Mul inLen s
  | .g1multiexp inLen => Sys2Proof.Machine.execG1MultiExp inLen s
  | .g2add inLen => Sys2Proof.Machine.execG2Add inLen s
  | .g2mul inLen => Sys2Proof.Machine.execG2Mul inLen s
  | .g2multiexp inLen => Sys2Proof.Machine.execG2MultiExp inLen s
  | .pairing inLen => Sys2Proof.Machine.execPairing inLen s
  | .start ie => Sys2Proof.Machine.execStart ie s
  | .srst st ie => Sys2Proof.Machine.execSrst st ie s
  | .ieWrite ie => Sys2Proof.Machine.execIeWrite ie s
  | .doneClr => Sys2Proof.Machine.execDoneClr s

end Sys2Proof.Machine
end

