-- ==== Sys2Proof/WellFormed.lean ====
section
/-! DEFINITION. When an instruction can be encoded: IN_LEN is a 32-bit count (10_state R37, 30_encoding R101). -/
namespace Sys2Proof

/-- An operation's length fits the 32-bit IN_LEN register; a command's fields are single bits and always fit. -/
def Instr.wellFormed : Instr → Bool
  | .g1add n | .g1mul n | .g1multiexp n | .g2add n | .g2mul n | .g2multiexp n | .pairing n => Nat.blt n (2 ^ 32)
  | .start _ | .srst _ _ | .ieWrite _ | .doneClr => true

end Sys2Proof
end

