-- ==== Sys2Proof/Decode.lean ====
section
/-! DEFINITION. The decoder and the encoder of the three formats (30_encoding R100 to R103, R125), and which bus write
carries a command. -/
namespace Sys2Proof

/-- Why an encoding is no instruction. -/
inductive DecodeError where
  /-- OP_CODE 0x0 or 0x8 to 0xF (30_encoding R100, R125). -/
  | reservedOpCode (code : BitVec 4)
  /-- A STATUS write with bit 1 clear: it commands nothing (30_encoding R103). -/
  | noCommand
deriving DecidableEq, Repr

/-- `OP.OP_CODE` is bits [3:0]; bits [31:4] are ignored (10_state R36, 30_encoding R101). -/
def opCodeOf (opReg : Word) : BitVec 4 := opReg.extractLsb' 0 4

/-- The operation an OP_CODE selects, with its length (30_encoding R100). -/
def decodeOp (code : BitVec 4) (inLen : Word) : Except DecodeError Instr :=
  match code.toNat with
  | 1 => .ok (.g1add inLen.toNat)
  | 2 => .ok (.g1mul inLen.toNat)
  | 3 => .ok (.g1multiexp inLen.toNat)
  | 4 => .ok (.g2add inLen.toNat)
  | 5 => .ok (.g2mul inLen.toNat)
  | 6 => .ok (.g2multiexp inLen.toNat)
  | 7 => .ok (.pairing inLen.toNat)
  | _ => .error (.reservedOpCode code)

/-- The command of a CTRL write: bit 1 is SRST and wins over bit 0, START; bit 2 is IE; the rest is ignored
(30_encoding R102). -/
def decodeCtrl (v : Word) : Instr :=
  if v.getLsbD 1 then .srst (v.getLsbD 0) (v.getLsbD 2)
  else if v.getLsbD 0 then .start (v.getLsbD 2)
  else .ieWrite (v.getLsbD 2)

/-- The command of a STATUS write (30_encoding R103). -/
def decodeStatus (v : Word) : Except DecodeError Instr :=
  if v.getLsbD 1 then .ok .doneClr else .error .noCommand

/-- The decoder, total on every encoding. -/
def decode : Encoding → Except DecodeError Instr
  | .op opReg inLen => decodeOp (opCodeOf opReg) inLen
  | .ctrlWrite v => .ok (decodeCtrl v)
  | .statusWrite v => decodeStatus v

/-- The word a CTRL write with these three bits carries (30_encoding R102); reserved bits are written 0 (10_state R42). -/
def ctrlWriteWord (start srst ie : Bool) : Word :=
  BitVec.ofNat 32 (start.toNat + 2 * srst.toNat + 4 * ie.toNat)

/-- The encoder, written from the tables of 30_encoding R100 to R103. -/
def encode : Instr → Encoding
  | .g1add n => .op 1 (BitVec.ofNat 32 n)
  | .g1mul n => .op 2 (BitVec.ofNat 32 n)
  | .g1multiexp n => .op 3 (BitVec.ofNat 32 n)
  | .g2add n => .op 4 (BitVec.ofNat 32 n)
  | .g2mul n => .op 5 (BitVec.ofNat 32 n)
  | .g2multiexp n => .op 6 (BitVec.ofNat 32 n)
  | .pairing n => .op 7 (BitVec.ofNat 32 n)
  | .start ie => .ctrlWrite (ctrlWriteWord true false ie)
  | .srst st ie => .ctrlWrite (ctrlWriteWord st true ie)
  | .ieWrite ie => .ctrlWrite (ctrlWriteWord false false ie)
  | .doneClr => .statusWrite 2

/-- The encoding a bus write carries, if it is an aligned 32-bit write to CTRL (0x004) or STATUS (0x010)
(44_host_commands R260 to R264, 20_memory R73). -/
def commandOfWrite (off w : Nat) (v : Word) : Option Encoding :=
  if w = 4 ∧ off = 0x004 then some (.ctrlWrite v)
  else if w = 4 ∧ off = 0x010 then some (.statusWrite v)
  else none

/-- The host access that issues a command; an operation is issued by the registers a START latches, not by one access. -/
def accessOfEncoding : Encoding → Option Access
  | .op _ _ => none
  | .ctrlWrite v => some (.write 0x004 4 v)
  | .statusWrite v => some (.write 0x010 4 v)

/-- The encoding the opcode table's number `w` stands for. The table's three formats share their numbers, so a number
alone is read as an operation (bits [31:0] the OP register, bits [63:32] IN_LEN, the register that follows it); the
number of no operation, code 0, is read as a CTRL write (log 3). -/
def encodingOfTableWord (w : Nat) : Encoding :=
  if w % 16 = 0 then .ctrlWrite (BitVec.ofNat 32 w)
  else .op (BitVec.ofNat 32 w) (BitVec.ofNat 32 (w / 2 ^ 32))

/-- The instruction the decoder reads from a table word of `nbits` bits, every bit above them 0 (log 3). -/
def decodeTableWord (nbits w : Nat) : Option Instr :=
  match decode (encodingOfTableWord (w % 2 ^ nbits)) with
  | .ok i => some i
  | .error _ => none

end Sys2Proof
end

