-- ==== Sys2Proof/Machine/Bus.lean ====
section
/-! DEFINITION. The port: which access is taken (20_memory R73, R80), reads (44_host_commands R265, R269) and the writes
that are no command (R267, R268, 10_state R33, R42). -/
namespace Sys2Proof.Machine

/-- What an access that 20_memory R73 takes reaches. -/
inductive Target where
  /-- Register space, by window offset. -/
  | reg (off : Nat)
  /-- OUT_BUF, by index. -/
  | outBuf (a : Nat)
  /-- IN_BUF, by index. -/
  | inBuf (a : Nat)
deriving DecidableEq, Repr

/-- The buffers take aligned accesses of 1, 2 or 4 bytes (20_memory R73). -/
def bufferAccessOk (off w : Nat) : Bool :=
  (Nat.beq w 1 || Nat.beq w 2 || Nat.beq w 4) && Nat.beq (off % w) 0

/-- The target of an access of `w` bytes at window offset `off`, or none where 20_memory R73 refuses it. -/
def target (off w : Nat) : Option Target :=
  bif Nat.blt off 0x1000 then
    bif Nat.ble 0x100 off && Nat.blt off 0x200 then
      bif bufferAccessOk off w then some (.outBuf (off - 0x100)) else none
    else bif Nat.beq w 4 && Nat.beq (off % 4) 0 then some (.reg off) else none
  else bif bufferAccessOk off w && Config.fitsInBuf (off - 0x1000 + 1) then some (.inBuf (off - 0x1000))
  else none

/-- The value of the register at an offset of register space; a reserved offset reads 0 (10_state R33, R42). -/
def regRead (s : State) (off : Nat) : Word :=
  match off with
  | 0x000 => Config.idValue
  | 0x004 => ctrlWord s
  | 0x008 => opWord s
  | 0x00C => s.inLen
  | 0x010 => statusWord s
  | 0x014 => s.errPos
  | 0x018 => s.outLen
  | 0x01C => BitVec.ofNat 32 Config.inBufBytes
  | _ => 0

/-- The data word whose lane `j`, bits [8j+7:8j], is byte `j` (20_memory R74). -/
def ofLanes (bs : List Byte) : Word := BitVec.ofNat 32 (bs.foldr (fun b v => b.toNat + 256 * v) 0)

/-- The bytes in the first `w` lanes of a data word (20_memory R74). -/
def lanes (w : Nat) (v : Word) : List Byte := (List.range w).map fun j => v.extractLsb' (8 * j) 8

/-- The data of a read that is taken (20_memory R75). -/
def readData (s : State) (w : Nat) : Target → Word
  | .reg off => regRead s off
  | .outBuf a => ofLanes ((List.range w).map fun j => s.outByte (a + j))
  | .inBuf a => ofLanes (s.memRead a w)

/-- `BusRead(off, w)`: a refused read answers ERROR and any value (20_memory R75, log 11). -/
def busRead (off w : Nat) (s : State) : State :=
  match target off w with
  | some t => s.setReply (.readOkay (readData s w t))
  | none => s.draw.setReply (.readError (Config.freeReadData s.draws))

/-- A write that is taken, to something the host may not write now: refused while BUSY (20_memory R80). -/
def lockedWrite (s s' : State) : State := bif s.busy then s.setReply .writeError else s'.setReply .writeOkay

/-- `BusWrite(off, w, v)` for a write that carries no command: OP and IN_LEN (44_host_commands R267), IN_BUF (R268), and the
read-only and reserved offsets, where a write is ignored (10_state R33, R42). -/
def busWrite (off w : Nat) (v : Word) (s : State) : State :=
  match target off w with
  | none => s.setReply .writeError
  | some (.reg 0x008) => lockedWrite s (s.setOpCode (opCodeOf v))
  | some (.reg 0x00C) => lockedWrite s (s.setInLen v)
  | some (.reg _) => s.setReply .writeOkay
  | some (.outBuf _) => s.setReply .writeOkay
  | some (.inBuf a) => lockedWrite s (s.storeIn a (lanes w v))

end Sys2Proof.Machine
end

