-- ==== Sys2Proof/Machine/Fetch.lean ====
section
/-! DEFINITION. Where the next instruction comes from: the latched operation, or the command a host write carries; and
how a table word is placed there. -/
namespace Sys2Proof.Machine

/-- The encoding of the operation the sequencer runs: its latched code and length (10_state R47). -/
def latchedEncoding (s : State) : Encoding := .op (s.lOp.setWidth 32) s.lLen

/-- Place an encoding where the next step takes it: a command as the next host access, an operation as an accepted START
leaves it, latched and BUSY, with the sequencer's turn next (log 2). -/
def placeEncoding (s : State) (e : Encoding) : State :=
  match e with
  | .op opReg inLen =>
    { s with
      lOp := opCodeOf opReg, lLen := inLen, busy := true, phase := .validate
      inputs := .sequencer :: s.inputs }
  | .ctrlWrite v => s.setInputs (.access (.write 0x004 4 v) :: s.inputs)
  | .statusWrite v => s.setInputs (.access (.write 0x010 4 v) :: s.inputs)

end Sys2Proof.Machine
end

