-- ==== Sys2Proof/Machine/Step.lean ====
section
/-! DEFINITION. One step: the next event in the one order of 20_memory R81. -/
namespace Sys2Proof.Machine

/-- The sequencer's step, enabled exactly while BUSY (44_host_commands R266): it runs the latched operation. -/
def sequencerStep (s : State) : Host.Outcome State Fault Refusal :=
  bif s.busy then
    match decode (latchedEncoding s) with
    | .ok i => exec i s
    | .error _ => completeReserved s
  else .next s

/-- A write to the port: a command is decoded and executed, any other write is served by the bus. -/
def serveWrite (off w : Nat) (v : Word) (s : State) : Host.Outcome State Fault Refusal :=
  match commandOfWrite off w v with
  | none => .next (busWrite off w v s)
  | some e =>
    match decode e with
    | .ok i => exec i s
    | .error _ => .next (busWrite off w v s)

/-- One event. -/
def handle (e : Event) (s : State) : Host.Outcome State Fault Refusal :=
  match e with
  | .access (.read off w) => .next (busRead off w s)
  | .access (.write off w v) => serveWrite off w v s
  | .sequencer => sequencerStep s
  | .powerOn => .next s.powerOn

/-- One step of the machine: the first pending event; with none pending, the sequencer's turn, which a step enabled forever
gets at last (44_host_commands R270; log 1). -/
def step (s : State) : Host.Outcome State Fault Refusal :=
  match s.inputs with
  | [] => sequencerStep s
  | e :: es => handle e (s.setInputs es)

/-- `s` with the instruction of a table word placed where `step` takes it next (log 2, 3). -/
def State.withFetchWord (s : State) (nbits w : Nat) : State := placeEncoding s (encodingOfTableWord (w % 2 ^ nbits))

end Sys2Proof.Machine
end

