-- ==== Sys2Proof/Safety.lean ====
section
/-! DEFINITION. What counts as a sound state of the engine, a safe next step, and the relations claims are stated in. -/
namespace Sys2Proof.Machine

/-- Both byte arrays are in canonical form and inside their buffers (20_memory R71, R72). -/
def State.MemoryOk (s : State) : Prop :=
  Memory.wf .inBuf s.inBuf = true ∧ Memory.below Config.inBufBytes s.inBuf ∧
    Memory.wf .outBuf s.outBuf = true ∧ Memory.below Config.outBufBytes s.outBuf

/-- The relations 10_state R38 to R40, R44, R47 to R49 and 60_exceptions R280, R283, R284 give between the fields. -/
structure State.StatusOk (s : State) : Prop where
  /-- PHASE is IDLE exactly when BUSY is 0 (10_state R48); a host sees a running operation in VALIDATE only (log 4). -/
  phase_eq : s.phase = if s.busy = true then .validate else .idle
  idx_zero : s.idx = 0
  /-- While BUSY no result of an earlier operation is left (44_host_commands R260). -/
  busy_clear : s.busy = true → s.done = false ∧ s.err = false ∧ s.outLen = 0 ∧ s.outBuf = []
  /-- While BUSY the latched code and length are the registers' (10_state R47). -/
  busy_latched : s.busy = true → s.lOp = s.opCode ∧ s.lLen = s.inLen
  /-- No error recorded: its fields are 0 (10_state R38, R39). -/
  no_err_clear : s.err = false → s.errKind = 0 ∧ s.errDetail = false ∧ s.errPos = 0
  /-- An error recorded: its kind is one of the six, there is no output (60_exceptions R280, R281). -/
  err_kind : s.err = true → s.errKind ≠ 0 ∧ s.errKind ≠ 7 ∧ s.outLen = 0 ∧ s.outBuf = []
  /-- ERR_DETAIL is 0 unless the kind is InvalidFieldEncoding (10_state R38). -/
  detail_kind : s.errDetail = true → s.errKind = 2
  /-- ERR_POS is below L_LEN where it names a unit, else 0 (60_exceptions R283). -/
  err_pos : s.errPos = 0 ∨ (s.errPos.toNat < s.lLen.toNat ∧ (s.errKind = 2 ∨ s.errKind = 3 ∨ s.errKind = 4))
  /-- The lengths a result can have (10_state R40). -/
  out_len : s.outLen = 0 ∨ s.outLen = 32 ∨ s.outLen = 128 ∨ s.outLen = 256
  /-- OUT_BUF is zero from OUT_LEN on (10_state R44). -/
  out_tail : ∀ a, s.outLen.toNat ≤ a → s.outByte a = 0

/-- A state the engine can be in. -/
def State.Inv (s : State) : Prop := s.MemoryOk ∧ s.StatusOk

/-- The next step does not stop the machine: the model's one fault is an operation on input never written. -/
def State.Safe (s : State) : Prop := ∃ t, step s = .next t

/-- What a host can see of an operation's outcome (20_memory R82). -/
def State.SameResult (s t : State) : Prop :=
  t.err = s.err ∧ t.errKind = s.errKind ∧ t.errDetail = s.errDetail ∧ t.errPos = s.errPos ∧ t.outLen = s.outLen ∧
    ∀ a, t.outByte a = s.outByte a

/-- No field of the register window, no byte of a buffer and no field of the sequencer differs; only the port's response,
the free values drawn and the events to come may (the model's own fields). -/
def State.SameEngine (s t : State) : Prop :=
  ∃ r d, t = { s with reply := r, draws := d }

/-- What no completion changes: IN_BUF with WRITTEN, OP, IN_LEN, CTRL, the latched copies and the model's own fields
(60_exceptions R291). -/
def State.SameInputs (s t : State) : Prop :=
  t.inBuf = s.inBuf ∧ t.opCode = s.opCode ∧ t.inLen = s.inLen ∧ t.ie = s.ie ∧ t.lOp = s.lOp ∧ t.lLen = s.lLen ∧
    t.resets = s.resets ∧ t.draws = s.draws ∧ t.reply = s.reply ∧ t.inputs = s.inputs

/-- Idle with the completion just signalled (44_host_commands R266, last lines). -/
def State.JustDone (t : State) : Prop := t.busy = false ∧ t.done = true ∧ t.phase = .idle ∧ t.idx = 0

/-- `t` is what the completion of a successful operation with the output `out` leaves of `s`, the accumulators aside
(44_host_commands R266, 42_dispatch R209). -/
structure OkCompletion (s t : State) (out : List Byte) : Prop where
  ended : t.JustDone
  inputs : s.SameInputs t
  errors : t.err = s.err ∧ t.errKind = s.errKind ∧ t.errDetail = s.errDetail ∧ t.errPos = s.errPos
  length : t.outLen = BitVec.ofNat 32 out.length
  output : ∀ i (h : i < out.length), t.outByte i = out[i]
  rest : ∀ i, out.length ≤ i → t.outByte i = s.outByte i

/-- `t` is what the completion of a failed operation with the error `e` leaves of `s` (44_host_commands R266,
60_exceptions R291). That the accumulators are unchanged is R291's "Nothing else changes", with 10_state R48, R50 (they are
written from COMPUTE on) and 41_validator R184 (an error ends the operation in VALIDATE); DEDUCED (log 4). -/
structure ErrCompletion (s t : State) (e : OpError) : Prop where
  ended : t.JustDone
  inputs : s.SameInputs t
  error : t.err = true ∧ t.errKind = errCode e.kind ∧ t.errDetail = e.detail ∧ t.errPos = BitVec.ofNat 32 e.pos
  output : t.outLen = s.outLen ∧ ∀ i, t.outByte i = s.outByte i
  accumulators : t.accG1 = s.accG1 ∧ t.accG2 = s.accG2 ∧ t.accF = s.accF

/-- No result of an earlier operation is left, as an accepted START leaves the window (44_host_commands R260). -/
def State.Cleared (s : State) : Prop :=
  s.err = false ∧ s.errKind = 0 ∧ s.errDetail = false ∧ s.errPos = 0 ∧ s.outLen = 0 ∧ s.outBuf = []

/-- The events that abandon a running operation: a reset event and a CTRL write with bit 1 set (10_state R38,
60_exceptions R290). -/
def Event.aborts : Event → Bool
  | .powerOn => true
  | .access (.write off w v) => Nat.beq off 0x004 && Nat.beq w 4 && v.getLsbD 1
  | .access (.read _ _) => false
  | .sequencer => false

/-- The event is a START that is accepted: a CTRL write with bits [1:0] = 1 while idle (44_host_commands R260). -/
def Event.startsOperation (s : State) : Event → Bool
  | .access (.write off w v) => Nat.beq off 0x004 && Nat.beq w 4 && !v.getLsbD 1 && v.getLsbD 0 && !s.busy
  | .access (.read _ _) => false
  | .sequencer => false
  | .powerOn => false

/-- The laws 42_dispatch R203 names, for the points that satisfy the curve equation. -/
structure AbelianGroupLaw {F : Type} [DecidableEq F] (K : FieldOps F) (b : F) : Prop where
  closed : ∀ p q, onCurve K b p = true → onCurve K b q = true → onCurve K b (pointAdd K p q) = true
  neg_closed : ∀ p, onCurve K b p = true → onCurve K b (pointNeg K p) = true
  comm : ∀ p q, onCurve K b p = true → onCurve K b q = true → pointAdd K p q = pointAdd K q p
  assoc : ∀ p q r, onCurve K b p = true → onCurve K b q = true → onCurve K b r = true →
    pointAdd K (pointAdd K p q) r = pointAdd K p (pointAdd K q r)
  left_id : ∀ p, pointAdd K .inf p = p
  right_id : ∀ p, pointAdd K p .inf = p
  inverse : ∀ p, onCurve K b p = true → pointAdd K p (pointNeg K p) = .inf

/-- The input of `n` bytes passes the checks before the operands: length, capacity, written (42_dispatch R208). -/
def InputReady (op : Operation) (n : Nat) (s : State) : Prop :=
  lengthOk op n = true ∧ n ≤ Config.inBufBytes ∧ ∀ i, i < n → s.written i = true

/-- The verdict PAIRING gives the list of pairs `l` (43_pairing R231, R233, R235). -/
def pairingVerdict (l : List (G1 × G2)) : Bool := isOne (finalExp (l.foldl pairFactor fq12One))

/-- The point operand at `off` decodes to `q`, and `q` is `Inf` or on its curve (41_validator R174). -/
def ValidPoint {F : Type} [DecidableEq F] (G : CurveGroup F) (s : State) (off : Nat) (q : Point F) : Prop :=
  readPoint G s off = .ok q ∧ onCurve G.ops G.coeffB q = true

/-- As above, and `q` is in the order-R subgroup (41_validator R176). -/
def ValidSubgroupPoint {F : Type} [DecidableEq F] (G : CurveGroup F) (s : State) (off : Nat) (q : Point F) : Prop :=
  ValidPoint G s off q ∧ (q ≠ .inf → inSubgroup G.ops q = true)

end Sys2Proof.Machine
end

