-- ==== Sys2Proof/Certificates/Slice0/Obligations.lean ====
section
/-! DEFINITION. The statements for the provers. Each docstring names the rules of spec/ the statement formalises. -/

open Sys2Proof Sys2Proof.Machine

/-! ## Encoding and the step -/

/-- Words written out from 30_encoding R100 to R103 decode to the instructions they stand for; reserved codes and a STATUS
write without bit 1 are refused by name. -/
def Obligations.SampleWordsDecode : Prop :=
  decode (.op 0x1 0x100) = .ok (.g1add 256) ∧ decode (.op 0x2 0xA0) = .ok (.g1mul 160) ∧
  decode (.op 0x3 0x140) = .ok (.g1multiexp 320) ∧ decode (.op 0x4 0x200) = .ok (.g2add 512) ∧
  decode (.op 0x5 0x120) = .ok (.g2mul 288) ∧ decode (.op 0x6 0x240) = .ok (.g2multiexp 576) ∧
  decode (.op 0x17 0x300) = .ok (.pairing 768) ∧
  decode (.ctrlWrite 0x1) = .ok (.start false) ∧ decode (.ctrlWrite 0x5) = .ok (.start true) ∧
  decode (.ctrlWrite 0x2) = .ok (.srst false false) ∧ decode (.ctrlWrite 0x3) = .ok (.srst true false) ∧
  decode (.ctrlWrite 0x6) = .ok (.srst false true) ∧ decode (.ctrlWrite 0x4) = .ok (.ieWrite true) ∧
  decode (.ctrlWrite 0x0) = .ok (.ieWrite false) ∧ decode (.statusWrite 0x2) = .ok .doneClr ∧
  decode (.statusWrite 0x1) = .error .noCommand ∧ decode (.op 0x0 0x100) = .error (.reservedOpCode 0) ∧
  decode (.op 0x8 0x100) = .error (.reservedOpCode 8) ∧ decode (.op 0xF 0x100) = .error (.reservedOpCode 15)

/-- Every well-formed instruction, with every operand value its encoding admits, decodes from its encoding
(30_encoding R100 to R103). -/
def Obligations.DecodeEncodeRoundTrip : Prop :=
  ∀ i : Instr, i.wellFormed = true → decode (encode i) = .ok i

/-- For every value of the OP register and of IN_LEN: bits [3:0] select the operation, bits [31:4] do nothing, codes 0 and
8 to 15 select none (30_encoding R100, R101). -/
def Obligations.OpCodeSelectsOperation : Prop :=
  ∀ opReg len : Word,
    (∀ op : Operation, decode (.op opReg len) = .ok (instrOf op len.toNat) ↔
      opReg.toNat % 16 = match op with
        | .g1add => 1 | .g1mul => 2 | .g1multiexp => 3 | .g2add => 4 | .g2mul => 5 | .g2multiexp => 6 | .pairing => 7) ∧
    ((∃ e, decode (.op opReg len) = .error e) ↔ opReg.toNat % 16 = 0 ∨ 8 ≤ opReg.toNat % 16)

/-- A CTRL write acts by its bits 1, 0 and 2 alone, and the bus write that a command's encoding is issued by carries that
encoding (30_encoding R102, R103). -/
def Obligations.CommandBitsDecideCommand : Prop :=
  (∀ v : Word, decode (.ctrlWrite v) =
    .ok (match v.getLsbD 1, v.getLsbD 0 with
      | true, st => .srst st (v.getLsbD 2)
      | false, true => .start (v.getLsbD 2)
      | false, false => .ieWrite (v.getLsbD 2))) ∧
  (∀ v : Word, decode (.statusWrite v) = .ok .doneClr ↔ v.getLsbD 1 = true) ∧
  (∀ e a, accessOfEncoding e = some a → ∃ off w v, a = .write off w v ∧ commandOfWrite off w v = some e)

/-- A step runs the decoded instruction: the latched operation when it is the sequencer's turn, or when no event is
pending, while BUSY; the command a host write carries. The event is taken off the list of events first
(10_state R30, 44_host_commands R260 to R266; log 1). -/
def Obligations.StepRunsDecodedInstruction : Prop :=
  (∀ (s : State) (es : List Event) i, s.inputs = .sequencer :: es → s.busy = true →
    decode (.op (s.lOp.setWidth 32) s.lLen) = .ok i → step s = exec i (s.setInputs es)) ∧
  (∀ (s : State) i, s.inputs = [] → s.busy = true →
    decode (.op (s.lOp.setWidth 32) s.lLen) = .ok i → step s = exec i s) ∧
  (∀ (s : State) (es : List Event) off w v e i, s.inputs = .access (.write off w v) :: es →
    commandOfWrite off w v = some e → decode e = .ok i → step s = exec i (s.setInputs es))

/-- What a step does where it runs no instruction: the sequencer is not enabled while idle; a read, a write that carries
no command (a STATUS write with bit 1 clear is one) and a reset event are served on the state with the event taken off the
list (10_state R30, 20_memory R75, 44_host_commands R263, 70_reset R320, R322). That the events are a list, and that with
none pending and BUSY = 0 the step changes nothing, is the model's choice (log 1), and so is a reset as one event (log 13). -/
def Obligations.StepServesOtherEvents : Prop :=
  (∀ (s : State) (es : List Event), s.inputs = .sequencer :: es → s.busy = false → step s = .next (s.setInputs es)) ∧
  (∀ s : State, s.inputs = [] → s.busy = false → step s = .next s) ∧
  (∀ (s : State) (es : List Event) off w, s.inputs = .access (.read off w) :: es →
    step s = .next (busRead off w (s.setInputs es))) ∧
  (∀ (s : State) (es : List Event) off w v, s.inputs = .access (.write off w v) :: es → commandOfWrite off w v = none →
    step s = .next (busWrite off w v (s.setInputs es))) ∧
  (∀ (s : State) (es : List Event) v, s.inputs = .access (.write 0x010 4 v) :: es → v.getLsbD 1 = false →
    step s = .next ((s.setInputs es).setReply .writeOkay)) ∧
  (∀ (s : State) (es : List Event), s.inputs = .powerOn :: es → step s = .next (s.setInputs es).powerOn)

/-- A START with a reserved OP_CODE completes with InvalidOperation, whatever the length and the input (42_dispatch R208,
30_encoding R125), and nothing beside the error record changes (60_exceptions R291), the accumulators included (log 4). -/
def Obligations.ReservedCodeCompletesInvalidOperation : Prop :=
  ∀ (s : State) (es : List Event), s.inputs = .sequencer :: es → s.busy = true → (s.lOp.toNat = 0 ∨ 8 ≤ s.lOp.toNat) →
    ∃ t, step s = .next t ∧ ErrCompletion (s.setInputs es) t ⟨.invalidOperation, 0, false⟩ ∧ t.errKind = 5

/-! ## Codec and frames -/

/-- Decoding an encoded valid value gives it back, at every position; the encodings of `Aff(0, 0)` are the infinity
sentinels (40_codec R151). -/
def Obligations.DecodeOfEncodeIsIdentity : Prop :=
  (∀ (v : Fq) pos, decodeFq (encodeFq v) pos = .ok v) ∧
  (∀ (q : G1) pos, onCurve fqOps Config.B1 q = true → decodeG1 (encodeG1 q) pos = .ok q) ∧
  (∀ (q : G2) pos, onCurve fq2Ops Config.B2 q = true → decodeG2 (encodeG2 q) pos = .ok q) ∧
  (∀ pos, decodeG1 (encodeG1 (.aff (fqOfNat 0) (fqOfNat 0))) pos = .ok .inf ∧
    decodeG2 (encodeG2 (.aff (fq2OfNat 0) (fq2OfNat 0))) pos = .ok .inf) ∧
  onCurve fqOps Config.B1 (.aff (fqOfNat 0) (fqOfNat 0)) = false ∧
  onCurve fq2Ops Config.B2 (.aff (fq2OfNat 0) (fq2OfNat 0)) = false

/-- A value has one accepted encoding: what decodes to it is its encoding (40_codec R152). -/
def Obligations.EncodingsAreCanonical : Prop :=
  (∀ w pos v, w.length = 64 → decodeFq w pos = .ok v → w = encodeFq v) ∧
  (∀ bs pos q, bs.length = 128 → decodeG1 bs pos = .ok q → bs = encodeG1 q) ∧
  (∀ bs pos q, bs.length = 256 → decodeG2 bs pos = .ok q → bs = encodeG2 q) ∧
  (∀ bs : List Byte, bs.length = 32 → bs = beBytes 32 (decodeFr bs) ∧ decodeFr bs < 2 ^ 256) ∧
  (∀ n : Nat, n < 2 ^ 256 → decodeFr (beBytes 32 n) = n)

/-- A word: padding is tested before range, and the value is the big-endian value of the low 48 bytes; a point that is not
all zero fails with the error of its first bad word in wire order (40_codec R140, R143, R144). -/
def Obligations.FirstBadWordIsReported : Prop :=
  (∀ w pos, w.length = 64 →
    decodeFq w pos =
      if w.take 16 ≠ zeros 16 then .error ⟨.invalidFieldEncoding, pos, false⟩
      else if h : be (w.drop 16) < Config.P then .ok ⟨be (w.drop 16), h⟩
      else .error ⟨.invalidFieldEncoding, pos, true⟩) ∧
  (∀ bs pos e, bs.length = 128 →
    (decodeG1 bs pos = .error e ↔ bs ≠ zeros 128 ∧
      ∃ j, j < 2 ∧ (∀ i, i < j → ∃ v, decodeFq ((bs.drop (64 * i)).take 64) (pos + 64 * i) = .ok v) ∧
        decodeFq ((bs.drop (64 * j)).take 64) (pos + 64 * j) = .error e)) ∧
  (∀ bs pos e, bs.length = 256 →
    (decodeG2 bs pos = .error e ↔ bs ≠ zeros 256 ∧
      ∃ j, j < 4 ∧ (∀ i, i < j → ∃ v, decodeFq ((bs.drop (64 * i)).take 64) (pos + 64 * i) = .ok v) ∧
        decodeFq ((bs.drop (64 * j)).take 64) (pos + 64 * j) = .error e))

/-- The lengths each operation takes, and the number of its frames (30_encoding R120). -/
def Obligations.LengthTable : Prop :=
  ∀ n : Nat, (lengthOk .g1add n = true ↔ n = 256) ∧ (lengthOk .g1mul n = true ↔ n = 160) ∧
    (lengthOk .g1multiexp n = true ↔ ∃ k, 1 ≤ k ∧ n = 160 * k) ∧ (lengthOk .g2add n = true ↔ n = 512) ∧
    (lengthOk .g2mul n = true ↔ n = 288) ∧ (lengthOk .g2multiexp n = true ↔ ∃ k, 1 ≤ k ∧ n = 288 * k) ∧
    (lengthOk .pairing n = true ↔ ∃ k, 1 ≤ k ∧ n = 384 * k) ∧
    (∀ k, pairCount .g1multiexp (160 * k) = k ∧ pairCount .g2multiexp (288 * k) = k ∧ pairCount .pairing (384 * k) = k)

/-- The operands of each operation's input, in input order; they tile it with no gap and no overlap (30_encoding R122). -/
def Obligations.OperandListsTileInput : Prop :=
  operands .g1add 256 = [⟨.g1pt, 0⟩, ⟨.g1pt, 128⟩] ∧ operands .g1mul 160 = [⟨.g1pt, 0⟩, ⟨.scalar, 128⟩] ∧
  (∀ k, operands .g1multiexp (160 * k) =
    (List.range k).flatMap fun i => [⟨.g1pt, 160 * i⟩, ⟨.scalar, 160 * i + 128⟩]) ∧
  operands .g2add 512 = [⟨.g2pt, 0⟩, ⟨.g2pt, 256⟩] ∧ operands .g2mul 288 = [⟨.g2pt, 0⟩, ⟨.scalar, 256⟩] ∧
  (∀ k, operands .g2multiexp (288 * k) =
    (List.range k).flatMap fun i => [⟨.g2pt, 288 * i⟩, ⟨.scalar, 288 * i + 256⟩]) ∧
  (∀ k, operands .pairing (384 * k) = (List.range k).flatMap fun i => [⟨.g1pt, 384 * i⟩, ⟨.g2pt, 384 * i + 128⟩]) ∧
  (operandBytes .g1pt = 128 ∧ operandBytes .g2pt = 256 ∧ operandBytes .scalar = 32) ∧
  ∀ (op : Operation) (n : Nat), lengthOk op n = true → Tiles 0 n (operands op n)

/-! ## Group law and scalar multiplication -/

/-- On the points that satisfy the curve equation the addition is an abelian group law, for both curves
(42_dispatch R203). -/
def Obligations.GroupLawIsAbelian : Prop :=
  AbelianGroupLaw fqOps Config.B1 ∧ AbelianGroupLaw fq2Ops Config.B2

/-- Doubling and adding gives the repeated sum `[s]Q = [s-1]Q + Q` for every scalar and every point on its curve, in the
subgroup or not (log 15). The scalar acts as its residue modulo any `m` with `[m]Q = Inf`, so modulo `R` in the subgroup;
outside it reducing modulo `R` gives another point: `[R]Aff(0, 1) = Aff(0, 1)`, of order 3 (42_dispatch R204, which marks
what it says of residues as its inference). -/
def Obligations.ScalarMulIsRepeatedSum : Prop :=
  (∀ (q : G1), onCurve fqOps Config.B1 q = true →
    (∀ s, pointMul fqOps s q = pointMulRec fqOps q s) ∧
    (∀ s m, pointMul fqOps m q = .inf → pointMul fqOps s q = pointMul fqOps (s % m) q) ∧
    (∀ s, inSubgroup fqOps q = true → pointMul fqOps s q = pointMul fqOps (s % Config.R) q)) ∧
  (∀ (q : G2), onCurve fq2Ops Config.B2 q = true →
    (∀ s, pointMul fq2Ops s q = pointMulRec fq2Ops q s) ∧
    (∀ s m, pointMul fq2Ops m q = .inf → pointMul fq2Ops s q = pointMul fq2Ops (s % m) q) ∧
    (∀ s, inSubgroup fq2Ops q = true → pointMul fq2Ops s q = pointMul fq2Ops (s % Config.R) q)) ∧
  pointMul fqOps 3 (.aff (fqOfNat 0) (fqOfNat 1)) = .inf ∧ Config.R % 3 = 1 ∧
  pointMul fqOps Config.R (.aff (fqOfNat 0) (fqOfNat 1)) = .aff (fqOfNat 0) (fqOfNat 1)

/-- The order of the terms of a multi-scalar sum does not matter, and the sum is on the curve (42_dispatch R205, R202). -/
def Obligations.MultiExpOrderIsFree : Prop :=
  (∀ ts ts' : List (G1 × Nat), ts.Perm ts' → (∀ t ∈ ts, onCurve fqOps Config.B1 t.1 = true) →
    multiExpSum fqOps ts = multiExpSum fqOps ts' ∧ onCurve fqOps Config.B1 (multiExpSum fqOps ts) = true) ∧
  (∀ ts ts' : List (G2 × Nat), ts.Perm ts' → (∀ t ∈ ts, onCurve fq2Ops Config.B2 t.1 = true) →
    multiExpSum fq2Ops ts = multiExpSum fq2Ops ts' ∧ onCurve fq2Ops Config.B2 (multiExpSum fq2Ops ts) = true)

/-! ## The seven operations -/

/-- G1ADD of two valid points completes with the encoding of their sum (42_dispatch R210). -/
def Obligations.G1AddCompletes : Prop :=
  ∀ (s : State) (a b : G1), s.MemoryOk → (∀ i, i < 256 → s.written i = true) →
    ValidPoint groupG1 s 0 a → ValidPoint groupG1 s 128 b →
    ∃ t, exec (.g1add 256) s = .next t ∧ OkCompletion s t (encodeG1 (pointAdd fqOps a b)) ∧
      t.accG1 = pointAdd fqOps a b ∧ t.accG2 = s.accG2 ∧ t.accF = s.accF

/-- G1MUL of a valid point, in the subgroup or not, by any scalar completes with the encoding of the multiple
(42_dispatch R211). -/
def Obligations.G1MulCompletes : Prop :=
  ∀ (s : State) (q : G1), s.MemoryOk → (∀ i, i < 160 → s.written i = true) → ValidPoint groupG1 s 0 q →
    ∃ t, exec (.g1mul 160) s = .next t ∧
      OkCompletion s t (encodeG1 (pointMul fqOps (be (s.memRead 128 32)) q)) ∧
      t.accG1 = pointMul fqOps (be (s.memRead 128 32)) q ∧ t.accG2 = s.accG2 ∧ t.accF = s.accF

/-- G1MULTIEXP of `k >= 1` valid points and their scalars completes with the encoding of the sum (42_dispatch R212). -/
def Obligations.G1MultiExpCompletes : Prop :=
  ∀ (s : State) (k : Nat) (q : Nat → G1), s.MemoryOk → 1 ≤ k → 160 * k ≤ Config.inBufBytes →
    (∀ i, i < 160 * k → s.written i = true) → (∀ i, i < k → ValidPoint groupG1 s (160 * i) (q i)) →
    ∃ t, exec (.g1multiexp (160 * k)) s = .next t ∧
      t.accG1 = multiExpSum fqOps ((List.range k).map fun i => (q i, be (s.memRead (160 * i + 128) 32))) ∧
      OkCompletion s t (encodeG1 t.accG1) ∧ t.accG2 = s.accG2 ∧ t.accF = s.accF

/-- G2ADD of two valid points completes with the encoding of their sum (42_dispatch R213). -/
def Obligations.G2AddCompletes : Prop :=
  ∀ (s : State) (a b : G2), s.MemoryOk → (∀ i, i < 512 → s.written i = true) →
    ValidPoint groupG2 s 0 a → ValidPoint groupG2 s 256 b →
    ∃ t, exec (.g2add 512) s = .next t ∧ OkCompletion s t (encodeG2 (pointAdd fq2Ops a b)) ∧
      t.accG2 = pointAdd fq2Ops a b ∧ t.accG1 = s.accG1 ∧ t.accF = s.accF

/-- G2MUL of a valid point, in the subgroup or not, by any scalar completes with the encoding of the multiple
(42_dispatch R214). -/
def Obligations.G2MulCompletes : Prop :=
  ∀ (s : State) (q : G2), s.MemoryOk → (∀ i, i < 288 → s.written i = true) → ValidPoint groupG2 s 0 q →
    ∃ t, exec (.g2mul 288) s = .next t ∧
      OkCompletion s t (encodeG2 (pointMul fq2Ops (be (s.memRead 256 32)) q)) ∧
      t.accG2 = pointMul fq2Ops (be (s.memRead 256 32)) q ∧ t.accG1 = s.accG1 ∧ t.accF = s.accF

/-- G2MULTIEXP of `k >= 1` valid points and their scalars completes with the encoding of the sum (42_dispatch R215). -/
def Obligations.G2MultiExpCompletes : Prop :=
  ∀ (s : State) (k : Nat) (q : Nat → G2), s.MemoryOk → 1 ≤ k → 288 * k ≤ Config.inBufBytes →
    (∀ i, i < 288 * k → s.written i = true) → (∀ i, i < k → ValidPoint groupG2 s (288 * i) (q i)) →
    ∃ t, exec (.g2multiexp (288 * k)) s = .next t ∧
      t.accG2 = multiExpSum fq2Ops ((List.range k).map fun i => (q i, be (s.memRead (288 * i + 256) 32))) ∧
      OkCompletion s t (encodeG2 t.accG2) ∧ t.accG1 = s.accG1 ∧ t.accF = s.accF

/-- PAIRING of `k >= 1` pairs of valid subgroup points completes with the verdict of one final exponentiation of the
product of the Miller values, a pair with an infinity side giving no factor (43_pairing R232, R233, R235); MILLER_LOOP and
FINAL_EXP are parameters (R230, log 12). -/
def Obligations.PairingCompletes : Prop :=
  ∀ (s : State) (k : Nat) (p : Nat → G1) (q : Nat → G2), s.MemoryOk → 1 ≤ k → 384 * k ≤ Config.inBufBytes →
    (∀ i, i < 384 * k → s.written i = true) → (∀ i, i < k → ValidSubgroupPoint groupG1 s (384 * i) (p i)) →
    (∀ i, i < k → ValidSubgroupPoint groupG2 s (384 * i + 128) (q i)) →
    ∃ t, exec (.pairing (384 * k)) s = .next t ∧
      t.accF = ((List.range k).map fun i => (p i, q i)).foldl
        (fun f pq => if pq.1 = .inf ∨ pq.2 = .inf then f else fq12Mul f (millerLoop pq.1 pq.2)) fq12One ∧
      OkCompletion s t (zeros 31 ++ [if finalExp t.accF = fq12One then 1 else 0]) ∧
      t.accG1 = s.accG1 ∧ t.accG2 = s.accG2

/-- If every pair has an infinity side ACC_F stays 1, and FINAL_EXP keeps 1 by (FE-hom), so the verdict is 1 (43_pairing
R237). -/
def Obligations.TrivialPairingIsOne : Prop :=
  ∀ (s : State) (k : Nat) (p : Nat → G1) (q : Nat → G2), s.MemoryOk → 1 ≤ k → 384 * k ≤ Config.inBufBytes →
    (∀ i, i < 384 * k → s.written i = true) → (∀ i, i < k → ValidSubgroupPoint groupG1 s (384 * i) (p i)) →
    (∀ i, i < k → ValidSubgroupPoint groupG2 s (384 * i + 128) (q i)) → (∀ i, i < k → p i = .inf ∨ q i = .inf) →
    finalExp fq12One = fq12One ∧
      ∃ t, exec (.pairing (384 * k)) s = .next t ∧ t.accF = fq12One ∧ OkCompletion s t (zeros 31 ++ [1])

/-- The product of the factors, and so the verdict, does not change when the pairs are permuted or pairs with an infinity
side are left out (43_pairing R234, R235, R238). -/
def Obligations.PairingProductIgnoresOrderAndInfinity : Prop :=
  ∀ l l' : List (G1 × G2), l.Perm l' →
    l.foldl pairFactor fq12One = l'.foldl pairFactor fq12One ∧
    (l.filter fun pq => decide (pq.1 ≠ .inf) && decide (pq.2 ≠ .inf)).foldl pairFactor fq12One =
      l.foldl pairFactor fq12One

/-- The parameters MILLER_LOOP and FINAL_EXP have the four properties 43_pairing R230 names, on the points of G1 and G2
other than Inf and on Fq12*: (ML), (FE-hom), (BIL) on either side, (NDG). And the usual ate instance, which R230 names for
information and the machine does not run, meets (ML) and (FE-hom), and its value at a point and at the point's negative
cancel (its line formulas are general knowledge, log 12). -/
def Obligations.PairingParametersMeetR230 : Prop :=
  (∀ p q, InG1 p → InG2 q → p ≠ .inf → q ≠ .inf → millerLoop p q ≠ fq12Zero) ∧
  (∀ a, a ≠ fq12Zero → finalExp a ≠ fq12Zero ∧ fq12Pow (finalExp a) Config.R = fq12One) ∧
  (∀ a b, a ≠ fq12Zero → b ≠ fq12Zero → finalExp (fq12Mul a b) = fq12Mul (finalExp a) (finalExp b)) ∧
  finalExp fq12One = fq12One ∧
  (∀ p q (a : Nat), InG1 p → InG2 q → pointMul fqOps a p ≠ .inf → pointMul fq2Ops a q ≠ .inf →
    finalExp (millerLoop (pointMul fqOps a p) q) = fq12Pow (finalExp (millerLoop p q)) a ∧
    finalExp (millerLoop p (pointMul fq2Ops a q)) = fq12Pow (finalExp (millerLoop p q)) a) ∧
  (∀ p q, InG1 p → InG2 q → p ≠ .inf → q ≠ .inf → finalExp (millerLoop p q) ≠ fq12One) ∧
  (∀ p q, InG1 p → ateMillerLoop p q ≠ fq12Zero ∧
    ateFinalExp (fq12Mul (ateMillerLoop p q) (ateMillerLoop (pointNeg fqOps p) q)) = fq12One) ∧
  (∀ a, a ≠ fq12Zero → fq12Pow (ateFinalExp a) Config.R = fq12One) ∧
  (∀ a b, ateFinalExp (fq12Mul a b) = fq12Mul (ateFinalExp a) (ateFinalExp b)) ∧ ateFinalExp fq12One = fq12One

/-- The laws of PAIRING (43_pairing R238), on the verdict that PairingCompletes gives a list of pairs: it does not change
when the pairs are permuted, nor when a pair with an infinity side, or a pair and its negative, is inserted or removed;
`[(P, Q), (-P, Q)]` and `[([a]P, Q), (P, [R - a]Q)]` give 1, `[(P, Q)]` without Inf gives 0, and a list
`[([e]g1, [f]g2), ...]` whose sum of `e * f` is 0 mod R gives 1. -/
def Obligations.PairingVerdictLaws : Prop :=
  (∀ l l', l.Perm l' → pairingVerdict l = pairingVerdict l') ∧
  (∀ l l' p q, p = .inf ∨ q = .inf → pairingVerdict (l ++ (p, q) :: l') = pairingVerdict (l ++ l')) ∧
  (∀ l l' p q, (∀ pq ∈ l ++ l', InG1 pq.1 ∧ InG2 pq.2) → InG1 p → InG2 q →
    pairingVerdict (l ++ (p, q) :: (pointNeg fqOps p, q) :: l') = pairingVerdict (l ++ l')) ∧
  (∀ p q, InG1 p → InG2 q → pairingVerdict [(p, q), (pointNeg fqOps p, q)] = true) ∧
  (∀ p q (a : Nat), InG1 p → InG2 q → a ≤ Config.R →
    pairingVerdict [(pointMul fqOps a p, q), (p, pointMul fq2Ops (Config.R - a) q)] = true) ∧
  (∀ p q, InG1 p → InG2 q → p ≠ .inf → q ≠ .inf → pairingVerdict [(p, q)] = false) ∧
  (∀ p q (es : List (Nat × Nat)), InG1 p → InG2 q → (es.map fun e => e.1 * e.2).sum % Config.R = 0 →
    pairingVerdict (es.map fun e => (pointMul fqOps e.1 p, pointMul fq2Ops e.2 q)) = true)

/-- A MULTIEXP over one pair is MUL on that pair, in every state: the same result, error or fault (42_dispatch R216). -/
def Obligations.MultiExpOfOnePairIsMul : Prop :=
  ∀ s : State, exec (.g1multiexp 160) s = exec (.g1mul 160) s ∧ exec (.g2multiexp 288) s = exec (.g2mul 288) s

/-! ## Errors of the operations -/

/-- A length that does not match the operation's formula completes with InvalidInputLength at 0, whatever the input
(41_validator R170), and nothing beside the error record changes (60_exceptions R291), the accumulators included (log 4). -/
def Obligations.WrongLengthIsReported : Prop :=
  ∀ (op : Operation) (n : Nat) (s : State), lengthOk op n = false →
    ∃ t, exec (instrOf op n) s = .next t ∧ ErrCompletion s t ⟨.invalidInputLength, 0, false⟩

/-- A legal length above IN_BUF_BYTES completes with CapacityExceeded at 0 (42_dispatch R208), and nothing beside the error
record changes (60_exceptions R291), the accumulators included (log 4). -/
def Obligations.OverCapacityIsReported : Prop :=
  ∀ (op : Operation) (n : Nat) (s : State), lengthOk op n = true → Config.inBufBytes < n →
    ∃ t, exec (instrOf op n) s = .next t ∧ ErrCompletion s t ⟨.capacityExceeded, 0, false⟩

/-- An operation stops the machine only by the model fault, and exactly when its length and capacity are right and a byte
of its input was never written; otherwise it answers a next state (10_state R52, 42_dispatch R208). -/
def Obligations.OnlyUnwrittenInputStops : Prop :=
  ∀ (op : Operation) (n : Nat) (s : State),
    (exec (instrOf op n) s = .fault .unwrittenInput ↔
      lengthOk op n = true ∧ n ≤ Config.inBufBytes ∧ ∃ i, i < n ∧ s.written i = false) ∧
    (exec (instrOf op n) s ≠ .fault .unwrittenInput → ∃ t, exec (instrOf op n) s = .next t)

/-- The first operand in input order that fails its checks decides the one error reported (41_validator R180, R184), and
nothing beside the error record changes (60_exceptions R291), the accumulators included (log 4). -/
def Obligations.FirstFailingOperandDecides : Prop :=
  ∀ (op : Operation) (n : Nat) (s : State) pre o post e, InputReady op n s → operands op n = pre ++ o :: post →
    (∀ p ∈ pre, validateOperand (needsSubgroup op) s p = .ok ()) → validateOperand (needsSubgroup op) s o = .error e →
    ∃ t, exec (instrOf op n) s = .next t ∧ ErrCompletion s t e

/-- The checks of one operand: a scalar passes; a point fails with its decoding error, else off the curve at its offset,
else, for PAIRING alone, outside the subgroup at its offset; Inf passes (41_validator R172, R174, R176, R177, R187). -/
def Obligations.OperandChecks : Prop :=
  (∀ sub (s : State) off, validateOperand sub s ⟨.scalar, off⟩ = .ok ()) ∧
  (∀ sub (s : State) off e, readPoint groupG1 s off = .error e → validateOperand sub s ⟨.g1pt, off⟩ = .error e) ∧
  (∀ sub (s : State) off e, readPoint groupG2 s off = .error e → validateOperand sub s ⟨.g2pt, off⟩ = .error e) ∧
  (∀ sub (s : State) off q, readPoint groupG1 s off = .ok q → validateOperand sub s ⟨.g1pt, off⟩ =
    if q = .inf then .ok ()
    else if onCurve fqOps Config.B1 q = false then .error ⟨.pointNotOnCurve, off, false⟩
    else if sub = true ∧ pointMul fqOps Config.R q ≠ .inf then .error ⟨.incorrectSubgroup, off, false⟩ else .ok ()) ∧
  (∀ sub (s : State) off q, readPoint groupG2 s off = .ok q → validateOperand sub s ⟨.g2pt, off⟩ =
    if q = .inf then .ok ()
    else if onCurve fq2Ops Config.B2 q = false then .error ⟨.pointNotOnCurve, off, false⟩
    else if sub = true ∧ pointMul fq2Ops Config.R q ≠ .inf then .error ⟨.incorrectSubgroup, off, false⟩ else .ok ()) ∧
  (∀ op : Operation, needsSubgroup op = true ↔ op = .pairing)

/-- IncorrectSubgroup is reported by PAIRING only (41_validator R176, R187). -/
def Obligations.OnlyPairingReportsSubgroup : Prop :=
  ∀ (op : Operation) (n : Nat) (s t : State), s.Cleared → exec (instrOf op n) s = .next t → t.errKind = 4 → op = .pairing

/-- An error's position is below the input length where it names a word or a point, and 0 otherwise; the detail bit is set
for InvalidFieldEncoding alone (60_exceptions R283, R284). -/
def Obligations.ErrorPositionIsInsideInput : Prop :=
  ∀ (op : Operation) (n : Nat) (s t : State), n < 2 ^ 32 → s.Cleared → exec (instrOf op n) s = .next t → t.err = true →
    (((t.errKind = 2 ∨ t.errKind = 3 ∨ t.errKind = 4) ∧ t.errPos.toNat < n) ∨
      ((t.errKind = 1 ∨ t.errKind = 6) ∧ t.errPos = 0)) ∧
    (t.errDetail = true → t.errKind = 2)

/-- The output lengths: 128 for the G1 operations, 256 for the G2 operations, 32 for PAIRING, none on an error
(30_encoding R121). -/
def Obligations.OutputLengths : Prop :=
  ∀ (op : Operation) (n : Nat) (s t : State), s.Cleared → exec (instrOf op n) s = .next t →
    t.outLen = if t.err = true then 0 else
      match op with
      | .g1add | .g1mul | .g1multiexp => 128
      | .g2add | .g2mul | .g2multiexp => 256
      | .pairing => 32

/-- The frame of the seven operations: when one answers a next state, nothing of IN_BUF, OP, IN_LEN, CTRL or the latched
registers changed, only OUT_BUF bytes below the operation's output length may have, and only the operation's own
accumulator (60_exceptions R291, 42_dispatch R209 to R215, 43_pairing R232). -/
def Obligations.OperationFrame : Prop :=
  ∀ (op : Operation) (n : Nat) (s t : State), s.MemoryOk → exec (instrOf op n) s = .next t →
    s.SameInputs t ∧ t.JustDone ∧ (∀ i, t.inByte i = s.inByte i) ∧ (∀ i, t.written i = s.written i) ∧
    (∀ i, resultBytes op ≤ i → t.outByte i = s.outByte i) ∧
    (op ≠ .g1add → op ≠ .g1mul → op ≠ .g1multiexp → t.accG1 = s.accG1) ∧
    (op ≠ .g2add → op ≠ .g2mul → op ≠ .g2multiexp → t.accG2 = s.accG2) ∧ (op ≠ .pairing → t.accF = s.accF)

/-- The result of an operation is a function of the operation, its length and the input bytes alone: two states that agree
on those, fresh from START, show the same result (42_dispatch R208, 10_state R53). -/
def Obligations.ResultDependsOnInputAlone : Prop :=
  ∀ (op : Operation) (n : Nat) (s₁ s₂ : State), s₁.Cleared → s₂.Cleared →
    (∀ i, i < n → s₁.written i = s₂.written i ∧ s₁.inByte i = s₂.inByte i) →
    (exec (instrOf op n) s₁ = .fault .unwrittenInput ∧ exec (instrOf op n) s₂ = .fault .unwrittenInput) ∨
    ∃ t₁ t₂, exec (instrOf op n) s₁ = .next t₁ ∧ exec (instrOf op n) s₂ = .next t₂ ∧ t₁.SameResult t₂

/-! ## Host commands -/

/-- START: accepted while idle, ignored while BUSY; IE is written either way and the answer is OKAY; nothing else changes
(44_host_commands R260). -/
def Obligations.StartLatchesAndClears : Prop :=
  ∀ (s : State) ie,
    (s.busy = false → exec (.start ie) s = .next { s with
      lOp := s.opCode, lLen := s.inLen, done := false, err := false, errKind := 0, errDetail := false, errPos := 0,
      outLen := 0, outBuf := [], phase := .validate, idx := 0, busy := true, ie := ie, reply := .writeOkay }) ∧
    (s.busy = true → exec (.start ie) s = .next { s with ie := ie, reply := .writeOkay }) ∧
    ∃ t, exec (.start ie) s = .next t ∧ (s.busy = false → t.irq = false ∧ ∀ a, t.outByte a = 0)

/-- SRST: the operation is abandoned, every register takes its reset value but IE, which takes the written bit; OUT_BUF is
zero; IN_BUF and WRITTEN are unchanged; L_OP, L_LEN and the accumulators become unspecified (44_host_commands R262,
70_reset R321). -/
def Obligations.SoftResetLeavesResetValues : Prop :=
  ∀ (s : State) st ie, ∃ t, exec (.srst st ie) s = .next t ∧
    t.busy = false ∧ t.done = false ∧ t.err = false ∧ t.errKind = 0 ∧ t.errDetail = false ∧ t.errPos = 0 ∧ t.outLen = 0 ∧
    (∀ a, t.outByte a = 0) ∧ t.opCode = 0 ∧ t.inLen = 0 ∧ t.ie = ie ∧ t.phase = .idle ∧ t.idx = 0 ∧ t.irq = false ∧
    t.inBuf = s.inBuf ∧ (∀ i, t.inByte i = s.inByte i ∧ t.written i = s.written i) ∧ t.reply = .writeOkay ∧
    t.resets = s.resets ∧ t.inputs = s.inputs

/-- Every 32-bit write to CTRL is accepted, BUSY or not, and sets IE from bit 2 after any START or SRST of the same write;
the interrupt line follows (44_host_commands R264). -/
def Obligations.EveryCtrlWriteSetsIe : Prop :=
  ∀ (s : State) v, ∃ t, serveWrite 0x004 4 v s = .next t ∧ t.reply = .writeOkay ∧ t.ie = v.getLsbD 2 ∧
    t.irq = (t.done && v.getLsbD 2) ∧
    (v.getLsbD 1 = false → v.getLsbD 0 = false → t = { s with ie := v.getLsbD 2, reply := .writeOkay })

/-- DONE clear: a STATUS write with bit 1 set clears DONE, so the interrupt line falls, and leaves ERR, ERR_KIND,
ERR_DETAIL, ERR_POS, OUT_LEN and OUT_BUF; one with bit 1 clear does nothing; in a sound state the write while BUSY changes
nothing; and the command without START and SRST writes IE alone (44_host_commands R263, R264). -/
def Obligations.DoneClearAndIeWriteChangeOneBit : Prop :=
  ∀ s : State, (∀ ie, exec (.ieWrite ie) s = .next { s with ie := ie, reply := .writeOkay }) ∧
    exec .doneClr s = .next { s with done := false, reply := .writeOkay } ∧
    (∀ v, v.getLsbD 1 = true → ∃ t, serveWrite 0x010 4 v s = .next t ∧
      t = { s with done := false, reply := .writeOkay } ∧ t.irq = false ∧ s.SameResult t) ∧
    (∀ v, v.getLsbD 1 = false → serveWrite 0x010 4 v s = .next { s with reply := .writeOkay }) ∧
    (∀ v, s.StatusOk → s.busy = true → serveWrite 0x010 4 v s = .next { s with reply := .writeOkay })

/-! ## The port -/

/-- The accesses the port takes: aligned 32-bit ones of register space, aligned 8-, 16- and 32-bit ones of the two
buffers, and none of them spans two regions; every other access is answered ERROR and changes no state (20_memory R73). -/
def Obligations.PortTakesExactlyLegalAccesses : Prop :=
  ∀ (s : State) off w,
    ((target off w).isSome = true ↔
      (w = 4 ∧ off % 4 = 0 ∧ (off < 0x100 ∨ (0x200 ≤ off ∧ off < 0x1000))) ∨
      ((w = 1 ∨ w = 2 ∨ w = 4) ∧ off % w = 0 ∧
        ((0x100 ≤ off ∧ off < 0x200) ∨ (0x1000 ≤ off ∧ off < 0x1000 + Config.inBufBytes)))) ∧
    (∀ a, target off w = some (.outBuf a) → off = 0x100 + a ∧ a + w ≤ 256) ∧
    (∀ a, target off w = some (.inBuf a) → off = 0x1000 + a ∧ a + w ≤ Config.inBufBytes) ∧
    (∀ a, target off w = some (.reg a) → off = a ∧ (a + w ≤ 0x100 ∨ (0x200 ≤ a ∧ a + w ≤ 0x1000))) ∧
    (target off w = none →
      (∃ t d, step (s.setInputs (.access (.read off w) :: s.inputs)) = .next t ∧ t.reply = .readError d ∧ s.SameEngine t) ∧
      ∀ v, step (s.setInputs (.access (.write off w v) :: s.inputs)) = .next (s.setReply .writeError))

/-- The register window reads as 10_state R33 places it: the eight registers (the fields of STATUS are StatusReadsItsFields),
and 0 at every reserved offset. -/
def Obligations.RegisterReads : Prop :=
  ∀ s : State, busRead 0x000 4 s = s.setReply (.readOkay Config.idValue) ∧
    busRead 0x004 4 s = s.setReply (.readOkay (if s.ie = true then 4 else 0)) ∧
    busRead 0x008 4 s = s.setReply (.readOkay (BitVec.ofNat 32 s.opCode.toNat)) ∧
    busRead 0x00C 4 s = s.setReply (.readOkay s.inLen) ∧ busRead 0x010 4 s = s.setReply (.readOkay (statusWord s)) ∧
    busRead 0x014 4 s = s.setReply (.readOkay s.errPos) ∧
    busRead 0x018 4 s = s.setReply (.readOkay s.outLen) ∧
    busRead 0x01C 4 s = s.setReply (.readOkay (BitVec.ofNat 32 Config.inBufBytes)) ∧
    (∀ off, off % 4 = 0 → ((0x020 ≤ off ∧ off < 0x100) ∨ (0x200 ≤ off ∧ off < 0x1000)) →
      busRead off 4 s = s.setReply (.readOkay 0))

/-- STATUS reads its fields in their places, and 0 in every other bit (10_state R38, 44_host_commands R265). -/
def Obligations.StatusReadsItsFields : Prop :=
  ∀ s : State, ∃ v : Word, busRead 0x010 4 s = s.setReply (.readOkay v) ∧
    v.getLsbD 0 = s.busy ∧ v.getLsbD 1 = s.done ∧ v.getLsbD 2 = s.err ∧ v.getLsbD 3 = false ∧
    v.extractLsb' 4 3 = s.errKind ∧ v.getLsbD 7 = false ∧ v.getLsbD 8 = s.errDetail ∧
    ∀ i, 9 ≤ i → v.getLsbD i = false

/-- A taken buffer access reads each byte in its lane, OUT_BUF and IN_BUF alike, BUSY or not (20_memory R74,
44_host_commands R269). -/
def Obligations.BufferReadsByLanes : Prop :=
  ∀ (s : State) a w j, (w = 1 ∨ w = 2 ∨ w = 4) → a % w = 0 → j < w →
    (a < 256 → ∃ d : Word, busRead (0x100 + a) w s = s.setReply (.readOkay d) ∧ d.extractLsb' (8 * j) 8 = s.outByte (a + j)) ∧
    (a < Config.inBufBytes →
      ∃ d : Word, busRead (0x1000 + a) w s = s.setReply (.readOkay d) ∧ d.extractLsb' (8 * j) 8 = s.inByte (a + j))

/-- A taken IN_BUF write while idle stores its lanes, marks the bytes written and changes nothing else
(44_host_commands R268, 10_state R52). -/
def Obligations.InBufWriteStoresLanes : Prop :=
  ∀ (s : State) a w v, s.MemoryOk → s.busy = false → (w = 1 ∨ w = 2 ∨ w = 4) → a % w = 0 → a < Config.inBufBytes →
    ∃ t m, serveWrite (0x1000 + a) w v s = .next t ∧ t = { s with inBuf := m, reply := .writeOkay } ∧ t.MemoryOk ∧
      (∀ j, j < w → t.inByte (a + j) = v.extractLsb' (8 * j) 8 ∧ t.written (a + j) = true) ∧
      (∀ i, i < a ∨ a + w ≤ i → t.inByte i = s.inByte i ∧ t.written i = s.written i)

/-- OP and IN_LEN writes: refused while BUSY, else the register takes the written bits (44_host_commands R267). -/
def Obligations.ParameterWrites : Prop :=
  ∀ (s : State) v,
    (s.busy = true → serveWrite 0x008 4 v s = .next { s with reply := .writeError } ∧
      serveWrite 0x00C 4 v s = .next { s with reply := .writeError }) ∧
    (s.busy = false → serveWrite 0x008 4 v s = .next { s with opCode := v.extractLsb' 0 4, reply := .writeOkay } ∧
      serveWrite 0x00C 4 v s = .next { s with inLen := v, reply := .writeOkay })

/-- Writes to read-only and reserved offsets are taken and ignored (10_state R33, R34, R41, R42). -/
def Obligations.ReadOnlyWritesAreIgnored : Prop :=
  (∀ (s : State) off v, off % 4 = 0 → (off = 0x000 ∨ (0x014 ≤ off ∧ off < 0x100) ∨ (0x200 ≤ off ∧ off < 0x1000)) →
    serveWrite off 4 v s = .next { s with reply := .writeOkay }) ∧
  (∀ (s : State) a w v, (w = 1 ∨ w = 2 ∨ w = 4) → a % w = 0 → a < 256 →
    serveWrite (0x100 + a) w v s = .next { s with reply := .writeOkay })

/-- The input lock: while BUSY a write to OP, IN_LEN or IN_BUF is answered ERROR and changes nothing, WRITTEN included;
every read the port takes and every CTRL and STATUS write is still accepted; so no event but a reset changes a byte of IN_BUF
(20_memory R80). -/
def Obligations.InputLockWhileBusy : Prop :=
  ∀ s : State, s.busy = true →
    (∀ off w v, off = 0x008 ∨ off = 0x00C ∨ 0x1000 ≤ off → serveWrite off w v s = .next { s with reply := .writeError }) ∧
    (∀ off w (t : Target), target off w = some t → busRead off w s = s.setReply (.readOkay (readData s w t))) ∧
    (∀ v, (∃ t, serveWrite 0x004 4 v s = .next t ∧ t.reply = .writeOkay) ∧
      ∃ t, serveWrite 0x010 4 v s = .next t ∧ t.reply = .writeOkay) ∧
    (∀ (e : Event) (es : List Event) (t : State), s.inputs = e :: es → e ≠ .powerOn → step s = .next t →
      t.inBuf = s.inBuf)

/-- A read changes nothing of the engine, and the same read again gets the same data (20_memory R78). -/
def Obligations.ReadsHaveNoSideEffect : Prop :=
  ∀ (s : State) off w (t : State), step (s.setInputs (.access (.read off w) :: s.inputs)) = .next t →
    s.SameEngine t ∧
    ((target off w).isSome = true → step (t.setInputs (.access (.read off w) :: t.inputs)) = .next t)

/-! ## The machine -/

/-- The values 70_reset R320 gives, in State.reset and after every reset event; a reset event also leaves no byte of IN_BUF
written. That no event is pending in State.reset is the model's choice (log 1). -/
def Obligations.ResetValues : Prop :=
  (∀ s : State, s = State.reset ∨ (∃ s₀ es, s₀.inputs = .powerOn :: es ∧ step s₀ = .next s) →
    s.ie = false ∧ s.opCode = 0 ∧ s.inLen = 0 ∧ statusWord s = 0 ∧ s.errPos = 0 ∧ s.outLen = 0 ∧
    (∀ a, s.outByte a = 0) ∧ s.irq = false ∧ s.phase = .idle ∧ s.idx = 0 ∧ (∀ i, s.written i = false)) ∧
  State.reset.inputs = []

/-- The invariant of a sound state holds right after reset (70_reset R320). -/
def Obligations.InvariantAtReset : Prop := State.reset.Inv

/-- Every step keeps both byte arrays in canonical form and inside their buffers (20_memory R71, R72). -/
def Obligations.StepKeepsMemoryCanonical : Prop :=
  ∀ (s t : State), s.MemoryOk → step s = .next t → t.MemoryOk

/-- Every step keeps the invariant: canonical memory, PHASE and BUSY agreeing, no result while BUSY, the latched registers
equal to OP and IN_LEN while BUSY, error fields consistent and never kind 7, ERR_POS inside the input, OUT_BUF zero past
OUT_LEN (10_state R38 to R40, R44, R47, R48, 60_exceptions R280, R283); that a busy state shows PHASE VALIDATE is the model's
folding of the phases (log 4). -/
def Obligations.StepKeepsInvariant : Prop :=
  ∀ (s t : State), s.Inv → step s = .next t → t.Inv

/-- The only step that does not answer a next state is a completion on input never written; in particular no host access
and no reset ever stops the machine (60_exceptions R285, R286). -/
def Obligations.StepStopsOnlyOnUnwrittenInput : Prop :=
  ∀ s : State, (∀ r, step s ≠ .refused r) ∧
    (∀ f, step s = .fault f → f = .unwrittenInput ∧ s.busy = true ∧ (s.inputs = [] ∨ ∃ es, s.inputs = .sequencer :: es) ∧
      ∃ i, i < s.lLen.toNat ∧ s.written i = false)

/-- A completed operation's results stay until the next accepted START, soft reset or reset event: every other event
leaves them (20_memory R82). -/
def Obligations.ResultsStayUntilNextStart : Prop :=
  ∀ (s : State) (e : Event) (es : List Event) (t : State), s.inputs = e :: es → e.aborts = false →
    e.startsOperation s = false → (e = .sequencer → s.busy = false) → step s = .next t → s.SameResult t

/-- The sequencer's turn while BUSY, as a `.sequencer` event or with no event pending (the latter turn is the model's form
of fairness, log 1), is the completion: BUSY falls, DONE rises, and irq is IE (44_host_commands R266, R270, 10_state R46).
Or it is the fault unwrittenInput, exactly when L_OP is an operation whose length and capacity are right and a byte of its
input was never written (10_state R52). -/
def Obligations.BusyStepCompletes : Prop :=
  ∀ s₀ s : State, s.busy = true →
    ((∃ es, s₀.inputs = .sequencer :: es ∧ s = s₀.setInputs es) ∨ s₀.inputs = [] ∧ s = s₀) →
    (step s₀ = .fault .unwrittenInput ↔
      ∃ (op : Operation) (n : Nat), decode (.op (s.lOp.setWidth 32) s.lLen) = .ok (instrOf op n) ∧ lengthOk op n = true ∧
        n ≤ Config.inBufBytes ∧ ∃ i, i < n ∧ s.written i = false) ∧
    (step s₀ ≠ .fault .unwrittenInput → ∃ t, step s₀ = .next t ∧ t.JustDone ∧ t.irq = s.ie ∧ s.SameInputs t)

/-- Liveness: whatever host accesses come first, as long as none is a soft reset and no reset event comes, a running
operation ends, at the latest one step after the last of them, in its completion or in the fault unwrittenInput (the latter
only over input never written, BusyStepCompletes) (44_host_commands R270, 10_state R52); that the sequencer steps when no
event is left is the model's form of fairness (log 1). -/
def Obligations.RunningOperationEnds : Prop :=
  ∀ s : State, s.busy = true → (∀ e ∈ s.inputs, e.aborts = false) →
    ∃ k, k ≤ s.inputs.length + 1 ∧
      (Sys2Proof.core.run k s = .fault .unwrittenInput ∨ ∃ t, Sys2Proof.core.run k s = .next t ∧ t.JustDone)

/-- A soft reset while BUSY: no completion and no interrupt follow, at any turn of the sequencer, and the results read 0
(44_host_commands R262, 70_reset R335). -/
def Obligations.AbortLeavesNoCompletion : Prop :=
  ∀ (s : State) v k (es : List Event), v.getLsbD 1 = true →
    s.inputs = .access (.write 0x004 4 v) :: (List.replicate k .sequencer ++ es) →
    ∃ t, Sys2Proof.core.run (k + 1) s = .next t ∧ t.busy = false ∧ t.done = false ∧ t.irq = false ∧ statusWord t = 0 ∧
      t.errPos = 0 ∧ t.outLen = 0 ∧ (∀ a, t.outByte a = 0) ∧ (∀ i, t.inByte i = s.inByte i) ∧ t.inputs = es

/-! ## The pairing verdict -/

/-- The exact verdict (43_pairing R236): any two points `g1` of G1 and `g2` of G2 other than Inf generate their groups, each
value of G1 is `[a]g1` for an `a` below R that is 0 exactly at Inf, and so for G2; PAIRING of the valid pairs
`([a i]g1, [b i]g2)` completes with 1 when the sum of `a i * b i` is 0 mod R and with 0 otherwise, whatever the two
parameters are. -/
def Obligations.PairingVerdictIsExact : Prop :=
  ∀ (g1 : G1) (g2 : G2), InG1 g1 → InG2 g2 → g1 ≠ .inf → g2 ≠ .inf →
    (∀ p, InG1 p → ∃ a, a < Config.R ∧ p = pointMul fqOps a g1 ∧ (a = 0 ↔ p = .inf)) ∧
    (∀ q, InG2 q → ∃ b, b < Config.R ∧ q = pointMul fq2Ops b g2 ∧ (b = 0 ↔ q = .inf)) ∧
    ∀ (s : State) (k : Nat) (a b : Nat → Nat), s.MemoryOk → 1 ≤ k → 384 * k ≤ Config.inBufBytes →
      (∀ i, i < 384 * k → s.written i = true) →
      (∀ i, i < k → ValidSubgroupPoint groupG1 s (384 * i) (pointMul fqOps (a i) g1)) →
      (∀ i, i < k → ValidSubgroupPoint groupG2 s (384 * i + 128) (pointMul fq2Ops (b i) g2)) →
      ∃ t, exec (.pairing (384 * k)) s = .next t ∧
        OkCompletion s t
          (zeros 31 ++ [if ((List.range k).map fun i => a i * b i).sum % Config.R = 0 then 1 else 0])
end

