-- ==== Sys2Proof/Laws/AteLaws.lean ====
section
/-! SUPPORT. The informative instance of the pairing functions (43_pairing R230): what negating the G1 point does to its Miller
loop. -/
namespace Sys2Proof.Machine

section
variable [Fact (Nat.Prime Config.P)] [Fact (∀ r : Zq, r ^ 2 ≠ -5 + 0 * r)]

/-- `f'` is `f` with `w` replaced by `-w`, up to a sign, and neither is a zero divisor. -/
def ConjUpToSign (f' f : Fq12) : Prop :=
  norm12 f ≠ 0 ∧ ∃ s : Zq6, s * s = 1 ∧ toZq6 (toTower6 f'.c0) = s * toZq6 (toTower6 f.c0) ∧
    toZq6 (toTower6 f'.c1) = -(s * toZq6 (toTower6 f.c1))

theorem conjUpToSign_one : ConjUpToSign fq12One fq12One :=
  ⟨by have : Fact (Irreducible towerPoly) := towerPoly_fact
      rw [norm12_one]; exact one_ne_zero,
   1, one_mul 1, (one_mul _).symm, by rw [one_c1]; ring⟩

theorem ConjUpToSign.mul {f' f g' g : Fq12} (hf : ConjUpToSign f' f) (hg : ConjUpToSign g' g) :
    ConjUpToSign (fq12Mul f' g') (fq12Mul f g) := by
  have : Fact (Irreducible towerPoly) := towerPoly_fact
  obtain ⟨h1, s, h2, h3, h4⟩ := hf
  obtain ⟨k1, r, k2, k3, k4⟩ := hg
  refine ⟨by rw [norm12_mul]; exact mul_ne_zero h1 k1, s * r, by linear_combination r * r * h2 + k2, ?_, ?_⟩
  · rw [mul_c0, mul_c0, h3, h4, k3, k4]; ring
  · rw [mul_c1, mul_c1, h3, h4, k3, k4]; ring

/-- The product of the two lies in Fq6, so the final power is 1. -/
theorem ConjUpToSign.ateFinalExp_eq_one {f' f : Fq12} (h : ConjUpToSign f' f) : ateFinalExp (fq12Mul f f') = fq12One := by
  have : Fact (Irreducible towerPoly) := towerPoly_fact
  obtain ⟨h1, s, h2, h3, h4⟩ := h
  apply ateFinalExp_of_fq6
  · have hs : s ≠ 0 := by rintro rfl; simp at h2
    rw [mul_c0, h3, h4]
    have : toZq6 (toTower6 f.c0) * (s * toZq6 (toTower6 f.c0)) +
        AdjoinRoot.root towerPoly * (toZq6 (toTower6 f.c1) * -(s * toZq6 (toTower6 f.c1))) = s * norm12 f := by
      rw [norm12]; ring
    rw [this]
    exact mul_ne_zero hs h1
  · rw [mul_c1, h3, h4]; ring

theorem lineAt_conj (x1 y1 x2 y2 : Fq2) (px py : Fq) (hy : py ≠ fqOfNat 0) :
    ConjUpToSign (lineAt x1 y1 x2 y2 px (fqSub (fqOfNat 0) py)) (lineAt x1 y1 x2 y2 px py) := by
  have hz : toZq2 (fq2OfNat 0) = 0 := by rw [toZq2_ofNat, Nat.cast_zero]
  have hy2 : ∀ a : Fq, toZq2 ⟨a, fqOfNat 0⟩ = algebraMap Zq Zq2 (toZq a) := by
    intro a
    ext <;> simp [toZq2, toZq_fqOfNat, QuadraticAlgebra.algebraMap_eq]
  have hpy : toZq py ≠ 0 := fun h => hy (toZq_injective (by rw [h, toZq_fqOfNat, Nat.cast_zero]))
  have hneg : toZq (fqSub (fqOfNat 0) py) = -toZq py := by rw [toZq_sub, toZq_fqOfNat, Nat.cast_zero, zero_sub]
  simp only [lineAt]
  generalize slope fq2Ops x1 y1 x2 y2 = lam
  generalize fq2Sub (fq2OfNat 0) (fq2Mul lam ⟨px, fqOfNat 0⟩) = al
  generalize fq2Sub (fq2Mul lam x1) y1 = be
  refine ⟨?_, -1, by ring, ?_, ?_⟩
  · intro h
    have h6 : toZq6 ⟨algebraMap Zq Zq2 (toZq py) ^ 2 - toZq2 be ^ 2 * uZq2, -toZq2 al ^ 2, -(2 * toZq2 al * toZq2 be)⟩ = 0 := by
      rw [← h]
      simp only [norm12, toZq6_eq, toTower6, hz, hy2, map_sub, map_mul, map_neg, map_pow, map_zero, ← root_cube, map_ofNat]
      ring
    obtain ⟨h7, h8, -⟩ := toZq6_eq_zero h6
    have hb : toZq2 be ≠ 0 := by
      intro hb
      rw [hb, zero_pow two_ne_zero, zero_mul, sub_zero] at h7
      have := pow_eq_zero_iff two_ne_zero |>.mp h7
      rw [← map_zero (algebraMap Zq Zq2)] at this
      exact hpy (FaithfulSMul.algebraMap_injective Zq Zq2 this)
    refine u_not_square (algebraMap Zq Zq2 (toZq py) / toZq2 be) ?_
    rw [div_pow, div_eq_iff (pow_ne_zero 2 hb)]
    linear_combination h7
  · simp only [toZq6_eq, toTower6, hy2, hz, hneg, map_neg, map_zero]
    ring
  · ring

theorem ateLine_conj {p : G1} (hp : ∀ x y, p = .aff x y → y ≠ fqOfNat 0) (a b : G2) :
    ConjUpToSign (ateLine a b (pointNeg fqOps p)) (ateLine a b p) := by
  cases a with
  | inf => exact conjUpToSign_one
  | aff x1 y1 =>
    cases b with
    | inf => exact conjUpToSign_one
    | aff x2 y2 =>
      cases p with
      | inf => exact conjUpToSign_one
      | aff px py =>
        simp only [ateLine, pointNeg]
        split
        · exact conjUpToSign_one
        · exact lineAt_conj _ _ _ _ _ _ (hp px py rfl)

theorem ateMillerLoop_conj {p : G1} (hp : ∀ x y, p = .aff x y → y ≠ fqOfNat 0) (q : G2) :
    ConjUpToSign (ateMillerLoop (pointNeg fqOps p) q) (ateMillerLoop p q) := by
  unfold ateMillerLoop
  generalize (binary Config.X).dropLast = ds
  have key : ConjUpToSign (ds.foldr (ateStep (pointNeg fqOps p) q) (fq12One, q)).1 (ds.foldr (ateStep p q) (fq12One, q)).1 ∧
      (ds.foldr (ateStep (pointNeg fqOps p) q) (fq12One, q)).2 = (ds.foldr (ateStep p q) (fq12One, q)).2 := by
    induction ds with
    | nil => exact ⟨conjUpToSign_one, rfl⟩
    | cons d ds ih =>
      obtain ⟨h1, h2⟩ := ih
      simp only [List.foldr_cons]
      have h3 := (h1.mul h1).mul (ateLine_conj hp (ds.foldr (ateStep p q) (fq12One, q)).2 (ds.foldr (ateStep p q) (fq12One, q)).2)
      cases d
      · simp only [ateStep, h2, cond_false]
        exact ⟨h3, trivial⟩
      · simp only [ateStep, h2, cond_true]
        exact ⟨h3.mul (ateLine_conj hp _ _), trivial⟩
  exact key.1

end

/-- No point of the order-R subgroup has `y = 0`: the order is odd. -/
theorem y_ne_zero_of_inSubgroup {p : G1} (hp : onCurve fqOps Config.B1 p = true) (hs : inSubgroup fqOps p = true) :
    ∀ x y, p = .aff x y → y ≠ fqOfNat 0 := by
  rintro x y rfl rfl
  have : Fact (Nat.Prime Config.P) := ⟨P_prime⟩
  classical
  have hn := pointNeg_map curveMap_g1 hp
  have he : pointNeg fqOps (.aff x (fqOfNat 0)) = .aff x (fqOfNat 0) := by
    show Point.aff x (fqSub (fqOfNat 0) (fqOfNat 0)) = _
    rw [show fqSub (fqOfNat 0) (fqOfNat 0) = fqOfNat 0 by decide +kernel]
  rw [he] at hn
  have hR := (pointMul_map curveMap_g1 Config.R hp).2
  rw [of_decide_eq_true hs, toPoint_inf] at hR
  have h2 : (2 : Nat) • toPoint toZq (toZq Config.B1) (.aff x (fqOfNat 0)) = 0 := by
    rw [two_nsmul]; nth_rewrite 1 [hn.2]; exact neg_add_cancel _
  rw [show Config.R = 2 * (Config.R / 2) + 1 by decide, add_smul, mul_comm, mul_smul, h2, smul_zero, zero_add,
    one_smul] at hR
  cases toPoint_injective curveMap_g1 hp (q := .inf) rfl (hR.symm.trans toPoint_inf.symm)

end Sys2Proof.Machine
end

