-- ==== Sys2Proof/Laws/Codec.lean ====
section
/-! SUPPORT. Byte strings and the codec: lengths, the two directions of big-endian, the all-zero test. -/
namespace Sys2Proof.Machine

theorem be_append_singleton (bs : List Byte) (b : Byte) : be (bs ++ [b]) = 256 * be bs + b.toNat := by
  simp [be]

@[simp] theorem beBytes_length (n v : Nat) : (beBytes n v).length = n := by
  induction n generalizing v with
  | zero => rfl
  | succ n ih => simp [beBytes, ih]

/-- A big-endian value of `n` bytes is below `256^n`. -/
theorem be_lt (bs : List Byte) : be bs < 256 ^ bs.length := by
  induction bs using List.reverseRecOn with
  | nil => simp [be]
  | append_singleton bs b ih =>
    rw [be_append_singleton, List.length_append, List.length_singleton, pow_succ]
    have := b.isLt
    omega

/-- `be(be_n(v)) = v` for `v < 256^n`. -/
theorem be_beBytes {n v : Nat} (h : v < 256 ^ n) : be (beBytes n v) = v := by
  induction n generalizing v with
  | zero => simp [beBytes, be] at *; omega
  | succ n ih =>
    rw [beBytes, be_append_singleton, ih (by rw [pow_succ] at h; omega), BitVec.toNat_ofNat]
    omega

/-- `be_n(be(S)) = S` for an `n`-byte string `S`. -/
theorem beBytes_be (bs : List Byte) : beBytes bs.length (be bs) = bs := by
  induction bs using List.reverseRecOn with
  | nil => rfl
  | append_singleton bs b ih =>
    have hb := b.isLt
    rw [List.length_append, List.length_singleton, beBytes, be_append_singleton,
      show (256 * be bs + b.toNat) / 256 = be bs by omega, ih]
    congr 2
    apply BitVec.eq_of_toNat_eq
    simp
    omega

@[simp] theorem zeros_length (n : Nat) : (zeros n).length = n := by simp [zeros]

theorem allZero_iff (bs : List Byte) : allZero bs = true ↔ bs = zeros bs.length := by
  simp [allZero, zeros, List.eq_replicate_iff]

@[simp] theorem allZero_zeros (n : Nat) : allZero (zeros n) = true := by simp [allZero_iff]

theorem allZero_append (as bs : List Byte) : allZero (as ++ bs) = (allZero as && allZero bs) := by
  simp [allZero]

theorem be_zeros (n : Nat) : be (zeros n) = 0 := by
  induction n with
  | zero => rfl
  | succ n ih =>
    have : zeros (n + 1) = zeros n ++ [0] := by simp [zeros, List.replicate_succ']
    rw [this, be_append_singleton, ih]; rfl

/-- Only a string of zeros has the value 0. -/
theorem be_eq_zero_iff (bs : List Byte) : be bs = 0 ↔ allZero bs = true := by
  rw [allZero_iff]
  constructor
  · intro h
    have h1 := beBytes_be bs
    have h2 := beBytes_be (zeros bs.length)
    rw [be_zeros, zeros_length] at h2
    rw [h] at h1
    exact h1.symm.trans h2
  · intro h; rw [h, be_zeros]

@[simp] theorem encodeFq_length (v : Fq) : (encodeFq v).length = 64 := by simp [encodeFq]
@[simp] theorem encodeFq2_length (v : Fq2) : (encodeFq2 v).length = 128 := by simp [encodeFq2]
@[simp] theorem encodeG1_length (q : G1) : (encodeG1 q).length = 128 := by cases q <;> simp [encodeG1]
@[simp] theorem encodeG2_length (q : G2) : (encodeG2 q).length = 256 := by cases q <;> simp [encodeG2]
@[simp] theorem encodeBool32_length (t : Bool) : (encodeBool32 t).length = 32 := by simp [encodeBool32]

/-! ## What a decoder can raise (40_codec R140 to R144) -/

theorem decodeFq_error {w : List Byte} {pos : Nat} {e : OpError} (h : decodeFq w pos = .error e) :
    e.kind = .invalidFieldEncoding ∧ e.pos = pos := by
  unfold decodeFq at h
  split at h
  · split at h <;> cases h; exact ⟨rfl, rfl⟩
  · cases h; exact ⟨rfl, rfl⟩

theorem decodePair_ok {α β : Type} {x : Except OpError α} {y : Except OpError β} {ab : α × β} :
    decodePair x y = .ok ab ↔ x = .ok ab.1 ∧ y = .ok ab.2 := by
  unfold decodePair
  cases x <;> cases y <;> simp [Prod.ext_iff]

theorem decodePair_error {α β : Type} {x : Except OpError α} {y : Except OpError β} {e : OpError}
    (h : decodePair x y = .error e) : x = .error e ∨ y = .error e := by
  unfold decodePair at h
  cases x <;> cases y <;> simp_all

theorem decodeFq2_error {bs : List Byte} {pos : Nat} {e : OpError} (h : decodeFq2 bs pos = .error e) :
    e.kind = .invalidFieldEncoding ∧ (e.pos = pos ∨ e.pos = pos + 64) := by
  unfold decodeFq2 at h
  split at h
  · cases h
  · rename_i e' h'
    cases h
    rcases decodePair_error h' with h1 | h1 <;> have := decodeFq_error h1 <;> tauto

theorem decodeG1_error {bs : List Byte} {pos : Nat} {e : OpError} (h : decodeG1 bs pos = .error e) :
    e.kind = .invalidFieldEncoding ∧ (e.pos = pos ∨ e.pos = pos + 64) := by
  unfold decodeG1 at h
  split at h
  · cases h
  · split at h
    · cases h
    · rename_i e' h'
      cases h
      rcases decodePair_error h' with h1 | h1 <;> have := decodeFq_error h1 <;> tauto

theorem decodeG2_error {bs : List Byte} {pos : Nat} {e : OpError} (h : decodeG2 bs pos = .error e) :
    e.kind = .invalidFieldEncoding ∧ (e.pos = pos ∨ e.pos = pos + 64 ∨ e.pos = pos + 128 ∨ e.pos = pos + 192) := by
  unfold decodeG2 at h
  split at h
  · cases h
  · split at h
    · cases h
    · rename_i e' h'
      cases h
      rcases decodePair_error h' with h1 | h1 <;> have := decodeFq2_error h1 <;> grind

end Sys2Proof.Machine
end

