-- ==== Sys2Proof/Laws/Config.lean ====
section
/-! SUPPORT. What is known of the open parameters (00_scope R8). -/
namespace Sys2Proof

theorem inBufBytes_ge : 512 ≤ Config.inBufBytes := by
  unfold Config.inBufBytes Config.minInBufBytes; omega

theorem inBufBytes_mod_four : Config.inBufBytes % 4 = 0 := by
  unfold Config.inBufBytes Config.minInBufBytes; omega

theorem inBufBytes_le : Config.inBufBytes ≤ 0xFFFFF000 := by
  unfold Config.inBufBytes Config.minInBufBytes; omega

/-- The capacity test is the comparison with `IN_BUF_BYTES`. -/
theorem fitsInBuf_iff (n : Nat) : Config.fitsInBuf n = true ↔ n ≤ Config.inBufBytes := by
  have := inBufBytes_ge
  simp only [Config.fitsInBuf, natBle_eq, Bool.or_eq_true, decide_eq_true_eq, Config.minInBufBytes]
  omega

end Sys2Proof
end

