-- ==== Sys2Proof/Laws/Memory.lean ====
section
/-! SUPPORT. Byte arrays: read after write, the canonical form and the bounds every operation keeps. -/
namespace Sys2Proof.Machine

variable {r : Region}

@[simp] theorem Memory.get_nil (a : Nat) : Memory.get r [] a = Memory.unlisted r := rfl

theorem Memory.get_cons (c : Host.Cell) (m : Memory) (a : Nat) :
    Memory.get r (c :: m) a = if c.1 = a then some c.2 else Memory.get r m a := by
  simp [Memory.get]

theorem Memory.set_cons (c : Host.Cell) (m : Memory) (a : Nat) (b : Byte) :
    Memory.set r (c :: m) a b =
      if a < c.1 then Memory.cell r a b ++ c :: m
      else if a = c.1 then Memory.cell r a b ++ m else c :: Memory.set r m a b := by
  simp [Memory.set]

theorem Memory.wfFrom_cons {lo : Nat} {c : Host.Cell} {m : Memory} :
    Memory.wfFrom r lo (c :: m) = true ↔
      lo ≤ c.1 ∧ Memory.unlisted r ≠ some c.2 ∧ Memory.wfFrom r (c.1 + 1) m = true := by
  simp [Memory.wfFrom, and_assoc]

theorem Memory.wfFrom_mono {lo lo' : Nat} {m : Memory} (h : Memory.wfFrom r lo m = true) (hl : lo' ≤ lo) :
    Memory.wfFrom r lo' m = true := by
  cases m with
  | nil => rfl
  | cons c m => rw [Memory.wfFrom_cons] at h ⊢; exact ⟨hl.trans h.1, h.2⟩

/-- Below its lowest address an array reads as unlisted. -/
theorem Memory.get_of_lt {lo : Nat} {m : Memory} (h : Memory.wfFrom r lo m = true) {a : Nat} (ha : a < lo) :
    Memory.get r m a = Memory.unlisted r := by
  induction m generalizing lo with
  | nil => rfl
  | cons c m ih =>
    obtain ⟨h1, -, h3⟩ := Memory.wfFrom_cons.mp h
    rw [Memory.get_cons, if_neg (by omega), ih h3 (by omega)]

theorem Memory.wfFrom_cell_append {lo a : Nat} {b : Byte} {m : Memory} (hl : lo ≤ a)
    (h : Memory.wfFrom r (a + 1) m = true) : Memory.wfFrom r lo (Memory.cell r a b ++ m) = true := by
  unfold Memory.cell
  split
  · exact Memory.wfFrom_mono h (by omega)
  · exact Memory.wfFrom_cons.mpr ⟨hl, ‹_›, h⟩

theorem Memory.get_cell_append {a a' : Nat} {b : Byte} {m : Memory} (h : Memory.wfFrom r (a + 1) m = true) :
    Memory.get r (Memory.cell r a b ++ m) a' = if a' = a then some b else Memory.get r m a' := by
  unfold Memory.cell
  split
  · split
    · subst a'; rw [List.nil_append, Memory.get_of_lt h (by omega)]; assumption
    · rfl
  · simp [Memory.get_cons, eq_comm]

theorem Memory.wfFrom_set {lo a : Nat} {b : Byte} {m : Memory} (h : Memory.wfFrom r lo m = true) (hl : lo ≤ a) :
    Memory.wfFrom r lo (Memory.set r m a b) = true := by
  induction m generalizing lo with
  | nil => simpa [Memory.set] using Memory.wfFrom_cell_append (r := r) (b := b) (m := []) hl rfl
  | cons c m ih =>
    obtain ⟨h1, h2, h3⟩ := Memory.wfFrom_cons.mp h
    rw [Memory.set_cons]
    split
    · exact Memory.wfFrom_cell_append hl (Memory.wfFrom_cons.mpr ⟨by omega, h2, h3⟩)
    · split
      · exact Memory.wfFrom_cell_append hl (by subst a; exact h3)
      · exact Memory.wfFrom_cons.mpr ⟨h1, h2, ih h3 (by omega)⟩

/-- Read after write. -/
theorem Memory.get_set {lo a a' : Nat} {b : Byte} {m : Memory} (h : Memory.wfFrom r lo m = true) :
    Memory.get r (Memory.set r m a b) a' = if a' = a then some b else Memory.get r m a' := by
  induction m generalizing lo with
  | nil => simpa [Memory.set] using Memory.get_cell_append (r := r) (a := a) (a' := a') (b := b) (m := []) rfl
  | cons c m ih =>
    obtain ⟨h1, h2, h3⟩ := Memory.wfFrom_cons.mp h
    rw [Memory.set_cons]
    split
    · rw [Memory.get_cell_append (Memory.wfFrom_cons.mpr ⟨by omega, h2, h3⟩)]
    · split
      · subst a
        rw [Memory.get_cell_append h3, Memory.get_cons]
        split
        · rfl
        · rw [if_neg (by omega)]
      · rw [Memory.get_cons, Memory.get_cons, ih h3]
        split <;> split <;> first | rfl | omega

theorem Memory.wf_nil : Memory.wf r [] = true := rfl

/-- A write keeps the canonical form. -/
theorem Memory.wf_set {a : Nat} {b : Byte} {m : Memory} (h : Memory.wf r m = true) :
    Memory.wf r (Memory.set r m a b) = true := Memory.wfFrom_set h (Nat.zero_le a)

/-- Writing a byte string keeps the canonical form. -/
theorem Memory.wf_setBytes {bs : List Byte} {a : Nat} {m : Memory} (h : Memory.wf r m = true) :
    Memory.wf r (Memory.setBytes r m a bs) = true := by
  induction bs generalizing a m with
  | nil => exact h
  | cons b bs ih => exact ih (Memory.wf_set h)

/-- Read after writing a byte string: inside it the byte written, outside what was there. -/
theorem Memory.get_setBytes {bs : List Byte} {a i : Nat} {m : Memory} (h : Memory.wf r m = true) :
    Memory.get r (Memory.setBytes r m a bs) i =
      if a ≤ i ∧ i < a + bs.length then bs[i - a]? else Memory.get r m i := by
  induction bs generalizing a m with
  | nil => simp [Memory.setBytes]
  | cons b bs ih =>
    rw [Memory.setBytes, ih (Memory.wf_set h), Memory.get_set h]
    by_cases h1 : i = a
    · subst i; simp
    · by_cases h2 : a + 1 ≤ i ∧ i < a + 1 + bs.length
      · rw [if_pos h2, if_pos (by simp; omega), show i - a = (i - (a + 1)) + 1 by omega, List.getElem?_cons_succ]
      · rw [if_neg h2, if_neg h1, if_neg (by simp; omega)]

theorem Memory.below_cell {size a : Nat} {b : Byte} (h : a < size) : Memory.below size (Memory.cell r a b) := by
  unfold Memory.cell Memory.below
  split <;> simp [h]

/-- A write inside the buffer stays inside it. -/
theorem Memory.below_set {size a : Nat} {b : Byte} {m : Memory} (h : Memory.below size m) (ha : a < size) :
    Memory.below size (Memory.set r m a b) := by
  induction m with
  | nil => exact Memory.below_cell ha
  | cons c m ih =>
    have hc := Memory.below_cell (r := r) (b := b) ha
    unfold Memory.below at *
    rw [Memory.set_cons]
    simp only [List.mem_cons, forall_eq_or_imp] at h
    split
    · simp only [List.mem_append, List.mem_cons]
      rintro c' (h' | rfl | h')
      exacts [hc c' h', h.1, h.2 c' h']
    · split
      · simp only [List.mem_append]
        rintro c' (h' | h')
        exacts [hc c' h', h.2 c' h']
      · simp only [List.mem_cons, forall_eq_or_imp]
        exact ⟨h.1, ih h.2⟩

theorem Memory.below_setBytes {size : Nat} {bs : List Byte} {a : Nat} {m : Memory} (h : Memory.below size m)
    (ha : a + bs.length ≤ size) : Memory.below size (Memory.setBytes r m a bs) := by
  induction bs generalizing a m with
  | nil => exact h
  | cons b bs ih =>
    simp only [List.length_cons] at ha
    exact ih (Memory.below_set h (by omega)) (by omega)

/-- Arrays in canonical form that read alike are equal data. -/
theorem Memory.ext_of_wf {lo : Nat} {m m' : Memory} (h : Memory.wfFrom r lo m = true)
    (h' : Memory.wfFrom r lo m' = true) (hg : ∀ a, lo ≤ a → Memory.get r m a = Memory.get r m' a) : m = m' := by
  induction m generalizing lo m' with
  | nil =>
    cases m' with
    | nil => rfl
    | cons c' m' =>
      obtain ⟨h1, h2, h3⟩ := Memory.wfFrom_cons.mp h'
      have := hg c'.1 h1
      simp [Memory.get_cons] at this
      exact absurd this h2
  | cons c m ih =>
    obtain ⟨h1, h2, h3⟩ := Memory.wfFrom_cons.mp h
    cases m' with
    | nil =>
      have := hg c.1 h1
      simp [Memory.get_cons] at this
      exact absurd this.symm h2
    | cons c' m' =>
      obtain ⟨h1', h2', h3'⟩ := Memory.wfFrom_cons.mp h'
      have key : c.1 = c'.1 := by
        rcases Nat.lt_trichotomy c.1 c'.1 with hlt | heq | hgt
        · have := hg c.1 h1
          rw [Memory.get_cons, if_pos rfl, Memory.get_cons, if_neg (by omega),
            Memory.get_of_lt h3' (by omega)] at this
          exact absurd this.symm h2
        · exact heq
        · have := hg c'.1 h1'
          rw [Memory.get_cons, if_neg (by omega), Memory.get_of_lt h3 (by omega), Memory.get_cons, if_pos rfl] at this
          exact absurd this h2'
      have hv : c.2 = c'.2 := by
        have := hg c.1 h1
        simpa [Memory.get_cons, key] using this
      have hm : m = m' := by
        refine ih h3 (key ▸ h3') fun a ha => ?_
        have := hg a (by omega)
        rwa [Memory.get_cons, if_neg (by omega), Memory.get_cons, if_neg (by omega)] at this
      rw [hm, Prod.ext key hv]

/-! ## Bytes of the two buffers -/

theorem State.written_iff {s : State} {i : Nat} :
    s.written i = true ↔ ∃ b, Memory.get .inBuf s.inBuf i = some b := by
  simp [State.written, Option.isSome_iff_exists]

theorem State.allWritten_iff {s : State} {n : Nat} : s.allWritten n = true ↔ ∀ i, i < n → s.written i = true := by
  simp [State.allWritten]

/-- What is written to OUT_BUF is what it holds. -/
theorem State.outByte_setBytes {s t : State} {bs : List Byte} {a i : Nat} (h : Memory.wf .outBuf s.outBuf = true)
    (ht : t.outBuf = Memory.setBytes .outBuf s.outBuf a bs) :
    t.outByte i = if h' : a ≤ i ∧ i < a + bs.length then bs[i - a]'(by omega) else s.outByte i := by
  unfold State.outByte
  rw [ht, Memory.get_setBytes h]
  by_cases h' : a ≤ i ∧ i < a + bs.length
  · simp [h', List.getElem?_eq_getElem (show i - a < bs.length by omega)]
  · simp [h']

theorem State.outByte_nil {s : State} (h : s.outBuf = []) (a : Nat) : s.outByte a = 0 := by
  simp [State.outByte, h, Memory.unlisted]

/-- `MemRead` depends on the bytes read alone. -/
theorem State.memRead_congr {s t : State} {a n : Nat} (h : ∀ j, j < n → t.inByte (a + j) = s.inByte (a + j)) :
    t.memRead a n = s.memRead a n := by
  unfold State.memRead
  exact List.map_congr_left fun j hj => h j (List.mem_range.mp hj)

@[simp] theorem State.memRead_length (s : State) (a n : Nat) : (s.memRead a n).length = n := by
  simp [State.memRead]

end Sys2Proof.Machine
end

