-- ==== Sys2Proof/Laws/State.lean ====
section
/-! SUPPORT. One lemma per field per update of State, so that no proof unfolds a record update. -/
namespace Sys2Proof.Machine

@[simp] theorem State.setReply_ie (s : State) (r : Reply) : (s.setReply r).ie = s.ie := rfl
@[simp] theorem State.setReply_opCode (s : State) (r : Reply) : (s.setReply r).opCode = s.opCode := rfl
@[simp] theorem State.setReply_inLen (s : State) (r : Reply) : (s.setReply r).inLen = s.inLen := rfl
@[simp] theorem State.setReply_busy (s : State) (r : Reply) : (s.setReply r).busy = s.busy := rfl
@[simp] theorem State.setReply_done (s : State) (r : Reply) : (s.setReply r).done = s.done := rfl
@[simp] theorem State.setReply_err (s : State) (r : Reply) : (s.setReply r).err = s.err := rfl
@[simp] theorem State.setReply_errKind (s : State) (r : Reply) : (s.setReply r).errKind = s.errKind := rfl
@[simp] theorem State.setReply_errDetail (s : State) (r : Reply) : (s.setReply r).errDetail = s.errDetail := rfl
@[simp] theorem State.setReply_errPos (s : State) (r : Reply) : (s.setReply r).errPos = s.errPos := rfl
@[simp] theorem State.setReply_outLen (s : State) (r : Reply) : (s.setReply r).outLen = s.outLen := rfl
@[simp] theorem State.setReply_inBuf (s : State) (r : Reply) : (s.setReply r).inBuf = s.inBuf := rfl
@[simp] theorem State.setReply_outBuf (s : State) (r : Reply) : (s.setReply r).outBuf = s.outBuf := rfl
@[simp] theorem State.setReply_lOp (s : State) (r : Reply) : (s.setReply r).lOp = s.lOp := rfl
@[simp] theorem State.setReply_lLen (s : State) (r : Reply) : (s.setReply r).lLen = s.lLen := rfl
@[simp] theorem State.setReply_phase (s : State) (r : Reply) : (s.setReply r).phase = s.phase := rfl
@[simp] theorem State.setReply_idx (s : State) (r : Reply) : (s.setReply r).idx = s.idx := rfl
@[simp] theorem State.setReply_accG1 (s : State) (r : Reply) : (s.setReply r).accG1 = s.accG1 := rfl
@[simp] theorem State.setReply_accG2 (s : State) (r : Reply) : (s.setReply r).accG2 = s.accG2 := rfl
@[simp] theorem State.setReply_accF (s : State) (r : Reply) : (s.setReply r).accF = s.accF := rfl
@[simp] theorem State.setReply_resets (s : State) (r : Reply) : (s.setReply r).resets = s.resets := rfl
@[simp] theorem State.setReply_draws (s : State) (r : Reply) : (s.setReply r).draws = s.draws := rfl
@[simp] theorem State.setReply_reply (s : State) (r : Reply) : (s.setReply r).reply = r := rfl
@[simp] theorem State.setReply_inputs (s : State) (r : Reply) : (s.setReply r).inputs = s.inputs := rfl

@[simp] theorem State.setIe_ie (s : State) (v : Bool) : (s.setIe v).ie = v := rfl
@[simp] theorem State.setIe_opCode (s : State) (v : Bool) : (s.setIe v).opCode = s.opCode := rfl
@[simp] theorem State.setIe_inLen (s : State) (v : Bool) : (s.setIe v).inLen = s.inLen := rfl
@[simp] theorem State.setIe_busy (s : State) (v : Bool) : (s.setIe v).busy = s.busy := rfl
@[simp] theorem State.setIe_done (s : State) (v : Bool) : (s.setIe v).done = s.done := rfl
@[simp] theorem State.setIe_err (s : State) (v : Bool) : (s.setIe v).err = s.err := rfl
@[simp] theorem State.setIe_errKind (s : State) (v : Bool) : (s.setIe v).errKind = s.errKind := rfl
@[simp] theorem State.setIe_errDetail (s : State) (v : Bool) : (s.setIe v).errDetail = s.errDetail := rfl
@[simp] theorem State.setIe_errPos (s : State) (v : Bool) : (s.setIe v).errPos = s.errPos := rfl
@[simp] theorem State.setIe_outLen (s : State) (v : Bool) : (s.setIe v).outLen = s.outLen := rfl
@[simp] theorem State.setIe_inBuf (s : State) (v : Bool) : (s.setIe v).inBuf = s.inBuf := rfl
@[simp] theorem State.setIe_outBuf (s : State) (v : Bool) : (s.setIe v).outBuf = s.outBuf := rfl
@[simp] theorem State.setIe_lOp (s : State) (v : Bool) : (s.setIe v).lOp = s.lOp := rfl
@[simp] theorem State.setIe_lLen (s : State) (v : Bool) : (s.setIe v).lLen = s.lLen := rfl
@[simp] theorem State.setIe_phase (s : State) (v : Bool) : (s.setIe v).phase = s.phase := rfl
@[simp] theorem State.setIe_idx (s : State) (v : Bool) : (s.setIe v).idx = s.idx := rfl
@[simp] theorem State.setIe_accG1 (s : State) (v : Bool) : (s.setIe v).accG1 = s.accG1 := rfl
@[simp] theorem State.setIe_accG2 (s : State) (v : Bool) : (s.setIe v).accG2 = s.accG2 := rfl
@[simp] theorem State.setIe_accF (s : State) (v : Bool) : (s.setIe v).accF = s.accF := rfl
@[simp] theorem State.setIe_resets (s : State) (v : Bool) : (s.setIe v).resets = s.resets := rfl
@[simp] theorem State.setIe_draws (s : State) (v : Bool) : (s.setIe v).draws = s.draws := rfl
@[simp] theorem State.setIe_reply (s : State) (v : Bool) : (s.setIe v).reply = s.reply := rfl
@[simp] theorem State.setIe_inputs (s : State) (v : Bool) : (s.setIe v).inputs = s.inputs := rfl

@[simp] theorem State.setOpCode_ie (s : State) (v : BitVec 4) : (s.setOpCode v).ie = s.ie := rfl
@[simp] theorem State.setOpCode_opCode (s : State) (v : BitVec 4) : (s.setOpCode v).opCode = v := rfl
@[simp] theorem State.setOpCode_inLen (s : State) (v : BitVec 4) : (s.setOpCode v).inLen = s.inLen := rfl
@[simp] theorem State.setOpCode_busy (s : State) (v : BitVec 4) : (s.setOpCode v).busy = s.busy := rfl
@[simp] theorem State.setOpCode_done (s : State) (v : BitVec 4) : (s.setOpCode v).done = s.done := rfl
@[simp] theorem State.setOpCode_err (s : State) (v : BitVec 4) : (s.setOpCode v).err = s.err := rfl
@[simp] theorem State.setOpCode_errKind (s : State) (v : BitVec 4) : (s.setOpCode v).errKind = s.errKind := rfl
@[simp] theorem State.setOpCode_errDetail (s : State) (v : BitVec 4) : (s.setOpCode v).errDetail = s.errDetail := rfl
@[simp] theorem State.setOpCode_errPos (s : State) (v : BitVec 4) : (s.setOpCode v).errPos = s.errPos := rfl
@[simp] theorem State.setOpCode_outLen (s : State) (v : BitVec 4) : (s.setOpCode v).outLen = s.outLen := rfl
@[simp] theorem State.setOpCode_inBuf (s : State) (v : BitVec 4) : (s.setOpCode v).inBuf = s.inBuf := rfl
@[simp] theorem State.setOpCode_outBuf (s : State) (v : BitVec 4) : (s.setOpCode v).outBuf = s.outBuf := rfl
@[simp] theorem State.setOpCode_lOp (s : State) (v : BitVec 4) : (s.setOpCode v).lOp = s.lOp := rfl
@[simp] theorem State.setOpCode_lLen (s : State) (v : BitVec 4) : (s.setOpCode v).lLen = s.lLen := rfl
@[simp] theorem State.setOpCode_phase (s : State) (v : BitVec 4) : (s.setOpCode v).phase = s.phase := rfl
@[simp] theorem State.setOpCode_idx (s : State) (v : BitVec 4) : (s.setOpCode v).idx = s.idx := rfl
@[simp] theorem State.setOpCode_accG1 (s : State) (v : BitVec 4) : (s.setOpCode v).accG1 = s.accG1 := rfl
@[simp] theorem State.setOpCode_accG2 (s : State) (v : BitVec 4) : (s.setOpCode v).accG2 = s.accG2 := rfl
@[simp] theorem State.setOpCode_accF (s : State) (v : BitVec 4) : (s.setOpCode v).accF = s.accF := rfl
@[simp] theorem State.setOpCode_resets (s : State) (v : BitVec 4) : (s.setOpCode v).resets = s.resets := rfl
@[simp] theorem State.setOpCode_draws (s : State) (v : BitVec 4) : (s.setOpCode v).draws = s.draws := rfl
@[simp] theorem State.setOpCode_reply (s : State) (v : BitVec 4) : (s.setOpCode v).reply = s.reply := rfl
@[simp] theorem State.setOpCode_inputs (s : State) (v : BitVec 4) : (s.setOpCode v).inputs = s.inputs := rfl

@[simp] theorem State.setInLen_ie (s : State) (v : Word) : (s.setInLen v).ie = s.ie := rfl
@[simp] theorem State.setInLen_opCode (s : State) (v : Word) : (s.setInLen v).opCode = s.opCode := rfl
@[simp] theorem State.setInLen_inLen (s : State) (v : Word) : (s.setInLen v).inLen = v := rfl
@[simp] theorem State.setInLen_busy (s : State) (v : Word) : (s.setInLen v).busy = s.busy := rfl
@[simp] theorem State.setInLen_done (s : State) (v : Word) : (s.setInLen v).done = s.done := rfl
@[simp] theorem State.setInLen_err (s : State) (v : Word) : (s.setInLen v).err = s.err := rfl
@[simp] theorem State.setInLen_errKind (s : State) (v : Word) : (s.setInLen v).errKind = s.errKind := rfl
@[simp] theorem State.setInLen_errDetail (s : State) (v : Word) : (s.setInLen v).errDetail = s.errDetail := rfl
@[simp] theorem State.setInLen_errPos (s : State) (v : Word) : (s.setInLen v).errPos = s.errPos := rfl
@[simp] theorem State.setInLen_outLen (s : State) (v : Word) : (s.setInLen v).outLen = s.outLen := rfl
@[simp] theorem State.setInLen_inBuf (s : State) (v : Word) : (s.setInLen v).inBuf = s.inBuf := rfl
@[simp] theorem State.setInLen_outBuf (s : State) (v : Word) : (s.setInLen v).outBuf = s.outBuf := rfl
@[simp] theorem State.setInLen_lOp (s : State) (v : Word) : (s.setInLen v).lOp = s.lOp := rfl
@[simp] theorem State.setInLen_lLen (s : State) (v : Word) : (s.setInLen v).lLen = s.lLen := rfl
@[simp] theorem State.setInLen_phase (s : State) (v : Word) : (s.setInLen v).phase = s.phase := rfl
@[simp] theorem State.setInLen_idx (s : State) (v : Word) : (s.setInLen v).idx = s.idx := rfl
@[simp] theorem State.setInLen_accG1 (s : State) (v : Word) : (s.setInLen v).accG1 = s.accG1 := rfl
@[simp] theorem State.setInLen_accG2 (s : State) (v : Word) : (s.setInLen v).accG2 = s.accG2 := rfl
@[simp] theorem State.setInLen_accF (s : State) (v : Word) : (s.setInLen v).accF = s.accF := rfl
@[simp] theorem State.setInLen_resets (s : State) (v : Word) : (s.setInLen v).resets = s.resets := rfl
@[simp] theorem State.setInLen_draws (s : State) (v : Word) : (s.setInLen v).draws = s.draws := rfl
@[simp] theorem State.setInLen_reply (s : State) (v : Word) : (s.setInLen v).reply = s.reply := rfl
@[simp] theorem State.setInLen_inputs (s : State) (v : Word) : (s.setInLen v).inputs = s.inputs := rfl

@[simp] theorem State.storeIn_ie (s : State) (a : Nat) (bs : List Byte) : (s.storeIn a bs).ie = s.ie := rfl
@[simp] theorem State.storeIn_opCode (s : State) (a : Nat) (bs : List Byte) : (s.storeIn a bs).opCode = s.opCode := rfl
@[simp] theorem State.storeIn_inLen (s : State) (a : Nat) (bs : List Byte) : (s.storeIn a bs).inLen = s.inLen := rfl
@[simp] theorem State.storeIn_busy (s : State) (a : Nat) (bs : List Byte) : (s.storeIn a bs).busy = s.busy := rfl
@[simp] theorem State.storeIn_done (s : State) (a : Nat) (bs : List Byte) : (s.storeIn a bs).done = s.done := rfl
@[simp] theorem State.storeIn_err (s : State) (a : Nat) (bs : List Byte) : (s.storeIn a bs).err = s.err := rfl
@[simp] theorem State.storeIn_errKind (s : State) (a : Nat) (bs : List Byte) : (s.storeIn a bs).errKind = s.errKind := rfl
@[simp] theorem State.storeIn_errDetail (s : State) (a : Nat) (bs : List Byte) : (s.storeIn a bs).errDetail = s.errDetail := rfl
@[simp] theorem State.storeIn_errPos (s : State) (a : Nat) (bs : List Byte) : (s.storeIn a bs).errPos = s.errPos := rfl
@[simp] theorem State.storeIn_outLen (s : State) (a : Nat) (bs : List Byte) : (s.storeIn a bs).outLen = s.outLen := rfl
@[simp] theorem State.storeIn_inBuf (s : State) (a : Nat) (bs : List Byte) : (s.storeIn a bs).inBuf = Memory.setBytes .inBuf s.inBuf a bs := rfl
@[simp] theorem State.storeIn_outBuf (s : State) (a : Nat) (bs : List Byte) : (s.storeIn a bs).outBuf = s.outBuf := rfl
@[simp] theorem State.storeIn_lOp (s : State) (a : Nat) (bs : List Byte) : (s.storeIn a bs).lOp = s.lOp := rfl
@[simp] theorem State.storeIn_lLen (s : State) (a : Nat) (bs : List Byte) : (s.storeIn a bs).lLen = s.lLen := rfl
@[simp] theorem State.storeIn_phase (s : State) (a : Nat) (bs : List Byte) : (s.storeIn a bs).phase = s.phase := rfl
@[simp] theorem State.storeIn_idx (s : State) (a : Nat) (bs : List Byte) : (s.storeIn a bs).idx = s.idx := rfl
@[simp] theorem State.storeIn_accG1 (s : State) (a : Nat) (bs : List Byte) : (s.storeIn a bs).accG1 = s.accG1 := rfl
@[simp] theorem State.storeIn_accG2 (s : State) (a : Nat) (bs : List Byte) : (s.storeIn a bs).accG2 = s.accG2 := rfl
@[simp] theorem State.storeIn_accF (s : State) (a : Nat) (bs : List Byte) : (s.storeIn a bs).accF = s.accF := rfl
@[simp] theorem State.storeIn_resets (s : State) (a : Nat) (bs : List Byte) : (s.storeIn a bs).resets = s.resets := rfl
@[simp] theorem State.storeIn_draws (s : State) (a : Nat) (bs : List Byte) : (s.storeIn a bs).draws = s.draws := rfl
@[simp] theorem State.storeIn_reply (s : State) (a : Nat) (bs : List Byte) : (s.storeIn a bs).reply = s.reply := rfl
@[simp] theorem State.storeIn_inputs (s : State) (a : Nat) (bs : List Byte) : (s.storeIn a bs).inputs = s.inputs := rfl

@[simp] theorem State.setPhase_ie (s : State) (p : Phase) : (s.setPhase p).ie = s.ie := rfl
@[simp] theorem State.setPhase_opCode (s : State) (p : Phase) : (s.setPhase p).opCode = s.opCode := rfl
@[simp] theorem State.setPhase_inLen (s : State) (p : Phase) : (s.setPhase p).inLen = s.inLen := rfl
@[simp] theorem State.setPhase_busy (s : State) (p : Phase) : (s.setPhase p).busy = s.busy := rfl
@[simp] theorem State.setPhase_done (s : State) (p : Phase) : (s.setPhase p).done = s.done := rfl
@[simp] theorem State.setPhase_err (s : State) (p : Phase) : (s.setPhase p).err = s.err := rfl
@[simp] theorem State.setPhase_errKind (s : State) (p : Phase) : (s.setPhase p).errKind = s.errKind := rfl
@[simp] theorem State.setPhase_errDetail (s : State) (p : Phase) : (s.setPhase p).errDetail = s.errDetail := rfl
@[simp] theorem State.setPhase_errPos (s : State) (p : Phase) : (s.setPhase p).errPos = s.errPos := rfl
@[simp] theorem State.setPhase_outLen (s : State) (p : Phase) : (s.setPhase p).outLen = s.outLen := rfl
@[simp] theorem State.setPhase_inBuf (s : State) (p : Phase) : (s.setPhase p).inBuf = s.inBuf := rfl
@[simp] theorem State.setPhase_outBuf (s : State) (p : Phase) : (s.setPhase p).outBuf = s.outBuf := rfl
@[simp] theorem State.setPhase_lOp (s : State) (p : Phase) : (s.setPhase p).lOp = s.lOp := rfl
@[simp] theorem State.setPhase_lLen (s : State) (p : Phase) : (s.setPhase p).lLen = s.lLen := rfl
@[simp] theorem State.setPhase_phase (s : State) (p : Phase) : (s.setPhase p).phase = p := rfl
@[simp] theorem State.setPhase_idx (s : State) (p : Phase) : (s.setPhase p).idx = s.idx := rfl
@[simp] theorem State.setPhase_accG1 (s : State) (p : Phase) : (s.setPhase p).accG1 = s.accG1 := rfl
@[simp] theorem State.setPhase_accG2 (s : State) (p : Phase) : (s.setPhase p).accG2 = s.accG2 := rfl
@[simp] theorem State.setPhase_accF (s : State) (p : Phase) : (s.setPhase p).accF = s.accF := rfl
@[simp] theorem State.setPhase_resets (s : State) (p : Phase) : (s.setPhase p).resets = s.resets := rfl
@[simp] theorem State.setPhase_draws (s : State) (p : Phase) : (s.setPhase p).draws = s.draws := rfl
@[simp] theorem State.setPhase_reply (s : State) (p : Phase) : (s.setPhase p).reply = s.reply := rfl
@[simp] theorem State.setPhase_inputs (s : State) (p : Phase) : (s.setPhase p).inputs = s.inputs := rfl

@[simp] theorem State.setIdx_ie (s : State) (i : Nat) : (s.setIdx i).ie = s.ie := rfl
@[simp] theorem State.setIdx_opCode (s : State) (i : Nat) : (s.setIdx i).opCode = s.opCode := rfl
@[simp] theorem State.setIdx_inLen (s : State) (i : Nat) : (s.setIdx i).inLen = s.inLen := rfl
@[simp] theorem State.setIdx_busy (s : State) (i : Nat) : (s.setIdx i).busy = s.busy := rfl
@[simp] theorem State.setIdx_done (s : State) (i : Nat) : (s.setIdx i).done = s.done := rfl
@[simp] theorem State.setIdx_err (s : State) (i : Nat) : (s.setIdx i).err = s.err := rfl
@[simp] theorem State.setIdx_errKind (s : State) (i : Nat) : (s.setIdx i).errKind = s.errKind := rfl
@[simp] theorem State.setIdx_errDetail (s : State) (i : Nat) : (s.setIdx i).errDetail = s.errDetail := rfl
@[simp] theorem State.setIdx_errPos (s : State) (i : Nat) : (s.setIdx i).errPos = s.errPos := rfl
@[simp] theorem State.setIdx_outLen (s : State) (i : Nat) : (s.setIdx i).outLen = s.outLen := rfl
@[simp] theorem State.setIdx_inBuf (s : State) (i : Nat) : (s.setIdx i).inBuf = s.inBuf := rfl
@[simp] theorem State.setIdx_outBuf (s : State) (i : Nat) : (s.setIdx i).outBuf = s.outBuf := rfl
@[simp] theorem State.setIdx_lOp (s : State) (i : Nat) : (s.setIdx i).lOp = s.lOp := rfl
@[simp] theorem State.setIdx_lLen (s : State) (i : Nat) : (s.setIdx i).lLen = s.lLen := rfl
@[simp] theorem State.setIdx_phase (s : State) (i : Nat) : (s.setIdx i).phase = s.phase := rfl
@[simp] theorem State.setIdx_idx (s : State) (i : Nat) : (s.setIdx i).idx = i := rfl
@[simp] theorem State.setIdx_accG1 (s : State) (i : Nat) : (s.setIdx i).accG1 = s.accG1 := rfl
@[simp] theorem State.setIdx_accG2 (s : State) (i : Nat) : (s.setIdx i).accG2 = s.accG2 := rfl
@[simp] theorem State.setIdx_accF (s : State) (i : Nat) : (s.setIdx i).accF = s.accF := rfl
@[simp] theorem State.setIdx_resets (s : State) (i : Nat) : (s.setIdx i).resets = s.resets := rfl
@[simp] theorem State.setIdx_draws (s : State) (i : Nat) : (s.setIdx i).draws = s.draws := rfl
@[simp] theorem State.setIdx_reply (s : State) (i : Nat) : (s.setIdx i).reply = s.reply := rfl
@[simp] theorem State.setIdx_inputs (s : State) (i : Nat) : (s.setIdx i).inputs = s.inputs := rfl

@[simp] theorem State.setAccG1_ie (s : State) (q : G1) : (s.setAccG1 q).ie = s.ie := rfl
@[simp] theorem State.setAccG1_opCode (s : State) (q : G1) : (s.setAccG1 q).opCode = s.opCode := rfl
@[simp] theorem State.setAccG1_inLen (s : State) (q : G1) : (s.setAccG1 q).inLen = s.inLen := rfl
@[simp] theorem State.setAccG1_busy (s : State) (q : G1) : (s.setAccG1 q).busy = s.busy := rfl
@[simp] theorem State.setAccG1_done (s : State) (q : G1) : (s.setAccG1 q).done = s.done := rfl
@[simp] theorem State.setAccG1_err (s : State) (q : G1) : (s.setAccG1 q).err = s.err := rfl
@[simp] theorem State.setAccG1_errKind (s : State) (q : G1) : (s.setAccG1 q).errKind = s.errKind := rfl
@[simp] theorem State.setAccG1_errDetail (s : State) (q : G1) : (s.setAccG1 q).errDetail = s.errDetail := rfl
@[simp] theorem State.setAccG1_errPos (s : State) (q : G1) : (s.setAccG1 q).errPos = s.errPos := rfl
@[simp] theorem State.setAccG1_outLen (s : State) (q : G1) : (s.setAccG1 q).outLen = s.outLen := rfl
@[simp] theorem State.setAccG1_inBuf (s : State) (q : G1) : (s.setAccG1 q).inBuf = s.inBuf := rfl
@[simp] theorem State.setAccG1_outBuf (s : State) (q : G1) : (s.setAccG1 q).outBuf = s.outBuf := rfl
@[simp] theorem State.setAccG1_lOp (s : State) (q : G1) : (s.setAccG1 q).lOp = s.lOp := rfl
@[simp] theorem State.setAccG1_lLen (s : State) (q : G1) : (s.setAccG1 q).lLen = s.lLen := rfl
@[simp] theorem State.setAccG1_phase (s : State) (q : G1) : (s.setAccG1 q).phase = s.phase := rfl
@[simp] theorem State.setAccG1_idx (s : State) (q : G1) : (s.setAccG1 q).idx = s.idx := rfl
@[simp] theorem State.setAccG1_accG1 (s : State) (q : G1) : (s.setAccG1 q).accG1 = q := rfl
@[simp] theorem State.setAccG1_accG2 (s : State) (q : G1) : (s.setAccG1 q).accG2 = s.accG2 := rfl
@[simp] theorem State.setAccG1_accF (s : State) (q : G1) : (s.setAccG1 q).accF = s.accF := rfl
@[simp] theorem State.setAccG1_resets (s : State) (q : G1) : (s.setAccG1 q).resets = s.resets := rfl
@[simp] theorem State.setAccG1_draws (s : State) (q : G1) : (s.setAccG1 q).draws = s.draws := rfl
@[simp] theorem State.setAccG1_reply (s : State) (q : G1) : (s.setAccG1 q).reply = s.reply := rfl
@[simp] theorem State.setAccG1_inputs (s : State) (q : G1) : (s.setAccG1 q).inputs = s.inputs := rfl

@[simp] theorem State.setAccG2_ie (s : State) (q : G2) : (s.setAccG2 q).ie = s.ie := rfl
@[simp] theorem State.setAccG2_opCode (s : State) (q : G2) : (s.setAccG2 q).opCode = s.opCode := rfl
@[simp] theorem State.setAccG2_inLen (s : State) (q : G2) : (s.setAccG2 q).inLen = s.inLen := rfl
@[simp] theorem State.setAccG2_busy (s : State) (q : G2) : (s.setAccG2 q).busy = s.busy := rfl
@[simp] theorem State.setAccG2_done (s : State) (q : G2) : (s.setAccG2 q).done = s.done := rfl
@[simp] theorem State.setAccG2_err (s : State) (q : G2) : (s.setAccG2 q).err = s.err := rfl
@[simp] theorem State.setAccG2_errKind (s : State) (q : G2) : (s.setAccG2 q).errKind = s.errKind := rfl
@[simp] theorem State.setAccG2_errDetail (s : State) (q : G2) : (s.setAccG2 q).errDetail = s.errDetail := rfl
@[simp] theorem State.setAccG2_errPos (s : State) (q : G2) : (s.setAccG2 q).errPos = s.errPos := rfl
@[simp] theorem State.setAccG2_outLen (s : State) (q : G2) : (s.setAccG2 q).outLen = s.outLen := rfl
@[simp] theorem State.setAccG2_inBuf (s : State) (q : G2) : (s.setAccG2 q).inBuf = s.inBuf := rfl
@[simp] theorem State.setAccG2_outBuf (s : State) (q : G2) : (s.setAccG2 q).outBuf = s.outBuf := rfl
@[simp] theorem State.setAccG2_lOp (s : State) (q : G2) : (s.setAccG2 q).lOp = s.lOp := rfl
@[simp] theorem State.setAccG2_lLen (s : State) (q : G2) : (s.setAccG2 q).lLen = s.lLen := rfl
@[simp] theorem State.setAccG2_phase (s : State) (q : G2) : (s.setAccG2 q).phase = s.phase := rfl
@[simp] theorem State.setAccG2_idx (s : State) (q : G2) : (s.setAccG2 q).idx = s.idx := rfl
@[simp] theorem State.setAccG2_accG1 (s : State) (q : G2) : (s.setAccG2 q).accG1 = s.accG1 := rfl
@[simp] theorem State.setAccG2_accG2 (s : State) (q : G2) : (s.setAccG2 q).accG2 = q := rfl
@[simp] theorem State.setAccG2_accF (s : State) (q : G2) : (s.setAccG2 q).accF = s.accF := rfl
@[simp] theorem State.setAccG2_resets (s : State) (q : G2) : (s.setAccG2 q).resets = s.resets := rfl
@[simp] theorem State.setAccG2_draws (s : State) (q : G2) : (s.setAccG2 q).draws = s.draws := rfl
@[simp] theorem State.setAccG2_reply (s : State) (q : G2) : (s.setAccG2 q).reply = s.reply := rfl
@[simp] theorem State.setAccG2_inputs (s : State) (q : G2) : (s.setAccG2 q).inputs = s.inputs := rfl

@[simp] theorem State.setAccF_ie (s : State) (f : Fq12) : (s.setAccF f).ie = s.ie := rfl
@[simp] theorem State.setAccF_opCode (s : State) (f : Fq12) : (s.setAccF f).opCode = s.opCode := rfl
@[simp] theorem State.setAccF_inLen (s : State) (f : Fq12) : (s.setAccF f).inLen = s.inLen := rfl
@[simp] theorem State.setAccF_busy (s : State) (f : Fq12) : (s.setAccF f).busy = s.busy := rfl
@[simp] theorem State.setAccF_done (s : State) (f : Fq12) : (s.setAccF f).done = s.done := rfl
@[simp] theorem State.setAccF_err (s : State) (f : Fq12) : (s.setAccF f).err = s.err := rfl
@[simp] theorem State.setAccF_errKind (s : State) (f : Fq12) : (s.setAccF f).errKind = s.errKind := rfl
@[simp] theorem State.setAccF_errDetail (s : State) (f : Fq12) : (s.setAccF f).errDetail = s.errDetail := rfl
@[simp] theorem State.setAccF_errPos (s : State) (f : Fq12) : (s.setAccF f).errPos = s.errPos := rfl
@[simp] theorem State.setAccF_outLen (s : State) (f : Fq12) : (s.setAccF f).outLen = s.outLen := rfl
@[simp] theorem State.setAccF_inBuf (s : State) (f : Fq12) : (s.setAccF f).inBuf = s.inBuf := rfl
@[simp] theorem State.setAccF_outBuf (s : State) (f : Fq12) : (s.setAccF f).outBuf = s.outBuf := rfl
@[simp] theorem State.setAccF_lOp (s : State) (f : Fq12) : (s.setAccF f).lOp = s.lOp := rfl
@[simp] theorem State.setAccF_lLen (s : State) (f : Fq12) : (s.setAccF f).lLen = s.lLen := rfl
@[simp] theorem State.setAccF_phase (s : State) (f : Fq12) : (s.setAccF f).phase = s.phase := rfl
@[simp] theorem State.setAccF_idx (s : State) (f : Fq12) : (s.setAccF f).idx = s.idx := rfl
@[simp] theorem State.setAccF_accG1 (s : State) (f : Fq12) : (s.setAccF f).accG1 = s.accG1 := rfl
@[simp] theorem State.setAccF_accG2 (s : State) (f : Fq12) : (s.setAccF f).accG2 = s.accG2 := rfl
@[simp] theorem State.setAccF_accF (s : State) (f : Fq12) : (s.setAccF f).accF = f := rfl
@[simp] theorem State.setAccF_resets (s : State) (f : Fq12) : (s.setAccF f).resets = s.resets := rfl
@[simp] theorem State.setAccF_draws (s : State) (f : Fq12) : (s.setAccF f).draws = s.draws := rfl
@[simp] theorem State.setAccF_reply (s : State) (f : Fq12) : (s.setAccF f).reply = s.reply := rfl
@[simp] theorem State.setAccF_inputs (s : State) (f : Fq12) : (s.setAccF f).inputs = s.inputs := rfl

@[simp] theorem State.draw_ie (s : State) : (s.draw).ie = s.ie := rfl
@[simp] theorem State.draw_opCode (s : State) : (s.draw).opCode = s.opCode := rfl
@[simp] theorem State.draw_inLen (s : State) : (s.draw).inLen = s.inLen := rfl
@[simp] theorem State.draw_busy (s : State) : (s.draw).busy = s.busy := rfl
@[simp] theorem State.draw_done (s : State) : (s.draw).done = s.done := rfl
@[simp] theorem State.draw_err (s : State) : (s.draw).err = s.err := rfl
@[simp] theorem State.draw_errKind (s : State) : (s.draw).errKind = s.errKind := rfl
@[simp] theorem State.draw_errDetail (s : State) : (s.draw).errDetail = s.errDetail := rfl
@[simp] theorem State.draw_errPos (s : State) : (s.draw).errPos = s.errPos := rfl
@[simp] theorem State.draw_outLen (s : State) : (s.draw).outLen = s.outLen := rfl
@[simp] theorem State.draw_inBuf (s : State) : (s.draw).inBuf = s.inBuf := rfl
@[simp] theorem State.draw_outBuf (s : State) : (s.draw).outBuf = s.outBuf := rfl
@[simp] theorem State.draw_lOp (s : State) : (s.draw).lOp = s.lOp := rfl
@[simp] theorem State.draw_lLen (s : State) : (s.draw).lLen = s.lLen := rfl
@[simp] theorem State.draw_phase (s : State) : (s.draw).phase = s.phase := rfl
@[simp] theorem State.draw_idx (s : State) : (s.draw).idx = s.idx := rfl
@[simp] theorem State.draw_accG1 (s : State) : (s.draw).accG1 = s.accG1 := rfl
@[simp] theorem State.draw_accG2 (s : State) : (s.draw).accG2 = s.accG2 := rfl
@[simp] theorem State.draw_accF (s : State) : (s.draw).accF = s.accF := rfl
@[simp] theorem State.draw_resets (s : State) : (s.draw).resets = s.resets := rfl
@[simp] theorem State.draw_draws (s : State) : (s.draw).draws = s.draws + 1 := rfl
@[simp] theorem State.draw_reply (s : State) : (s.draw).reply = s.reply := rfl
@[simp] theorem State.draw_inputs (s : State) : (s.draw).inputs = s.inputs := rfl

@[simp] theorem State.setInputs_ie (s : State) (es : List Event) : (s.setInputs es).ie = s.ie := rfl
@[simp] theorem State.setInputs_opCode (s : State) (es : List Event) : (s.setInputs es).opCode = s.opCode := rfl
@[simp] theorem State.setInputs_inLen (s : State) (es : List Event) : (s.setInputs es).inLen = s.inLen := rfl
@[simp] theorem State.setInputs_busy (s : State) (es : List Event) : (s.setInputs es).busy = s.busy := rfl
@[simp] theorem State.setInputs_done (s : State) (es : List Event) : (s.setInputs es).done = s.done := rfl
@[simp] theorem State.setInputs_err (s : State) (es : List Event) : (s.setInputs es).err = s.err := rfl
@[simp] theorem State.setInputs_errKind (s : State) (es : List Event) : (s.setInputs es).errKind = s.errKind := rfl
@[simp] theorem State.setInputs_errDetail (s : State) (es : List Event) : (s.setInputs es).errDetail = s.errDetail := rfl
@[simp] theorem State.setInputs_errPos (s : State) (es : List Event) : (s.setInputs es).errPos = s.errPos := rfl
@[simp] theorem State.setInputs_outLen (s : State) (es : List Event) : (s.setInputs es).outLen = s.outLen := rfl
@[simp] theorem State.setInputs_inBuf (s : State) (es : List Event) : (s.setInputs es).inBuf = s.inBuf := rfl
@[simp] theorem State.setInputs_outBuf (s : State) (es : List Event) : (s.setInputs es).outBuf = s.outBuf := rfl
@[simp] theorem State.setInputs_lOp (s : State) (es : List Event) : (s.setInputs es).lOp = s.lOp := rfl
@[simp] theorem State.setInputs_lLen (s : State) (es : List Event) : (s.setInputs es).lLen = s.lLen := rfl
@[simp] theorem State.setInputs_phase (s : State) (es : List Event) : (s.setInputs es).phase = s.phase := rfl
@[simp] theorem State.setInputs_idx (s : State) (es : List Event) : (s.setInputs es).idx = s.idx := rfl
@[simp] theorem State.setInputs_accG1 (s : State) (es : List Event) : (s.setInputs es).accG1 = s.accG1 := rfl
@[simp] theorem State.setInputs_accG2 (s : State) (es : List Event) : (s.setInputs es).accG2 = s.accG2 := rfl
@[simp] theorem State.setInputs_accF (s : State) (es : List Event) : (s.setInputs es).accF = s.accF := rfl
@[simp] theorem State.setInputs_resets (s : State) (es : List Event) : (s.setInputs es).resets = s.resets := rfl
@[simp] theorem State.setInputs_draws (s : State) (es : List Event) : (s.setInputs es).draws = s.draws := rfl
@[simp] theorem State.setInputs_reply (s : State) (es : List Event) : (s.setInputs es).reply = s.reply := rfl
@[simp] theorem State.setInputs_inputs (s : State) (es : List Event) : (s.setInputs es).inputs = es := rfl

@[simp] theorem State.begin_ie (s : State) : (s.begin).ie = s.ie := rfl
@[simp] theorem State.begin_opCode (s : State) : (s.begin).opCode = s.opCode := rfl
@[simp] theorem State.begin_inLen (s : State) : (s.begin).inLen = s.inLen := rfl
@[simp] theorem State.begin_busy (s : State) : (s.begin).busy = true := rfl
@[simp] theorem State.begin_done (s : State) : (s.begin).done = false := rfl
@[simp] theorem State.begin_err (s : State) : (s.begin).err = false := rfl
@[simp] theorem State.begin_errKind (s : State) : (s.begin).errKind = 0 := rfl
@[simp] theorem State.begin_errDetail (s : State) : (s.begin).errDetail = false := rfl
@[simp] theorem State.begin_errPos (s : State) : (s.begin).errPos = 0 := rfl
@[simp] theorem State.begin_outLen (s : State) : (s.begin).outLen = 0 := rfl
@[simp] theorem State.begin_inBuf (s : State) : (s.begin).inBuf = s.inBuf := rfl
@[simp] theorem State.begin_outBuf (s : State) : (s.begin).outBuf = [] := rfl
@[simp] theorem State.begin_lOp (s : State) : (s.begin).lOp = s.opCode := rfl
@[simp] theorem State.begin_lLen (s : State) : (s.begin).lLen = s.inLen := rfl
@[simp] theorem State.begin_phase (s : State) : (s.begin).phase = .validate := rfl
@[simp] theorem State.begin_idx (s : State) : (s.begin).idx = 0 := rfl
@[simp] theorem State.begin_accG1 (s : State) : (s.begin).accG1 = s.accG1 := rfl
@[simp] theorem State.begin_accG2 (s : State) : (s.begin).accG2 = s.accG2 := rfl
@[simp] theorem State.begin_accF (s : State) : (s.begin).accF = s.accF := rfl
@[simp] theorem State.begin_resets (s : State) : (s.begin).resets = s.resets := rfl
@[simp] theorem State.begin_draws (s : State) : (s.begin).draws = s.draws := rfl
@[simp] theorem State.begin_reply (s : State) : (s.begin).reply = s.reply := rfl
@[simp] theorem State.begin_inputs (s : State) : (s.begin).inputs = s.inputs := rfl

@[simp] theorem State.finish_ie (s : State) : (s.finish).ie = s.ie := rfl
@[simp] theorem State.finish_opCode (s : State) : (s.finish).opCode = s.opCode := rfl
@[simp] theorem State.finish_inLen (s : State) : (s.finish).inLen = s.inLen := rfl
@[simp] theorem State.finish_busy (s : State) : (s.finish).busy = false := rfl
@[simp] theorem State.finish_done (s : State) : (s.finish).done = true := rfl
@[simp] theorem State.finish_err (s : State) : (s.finish).err = s.err := rfl
@[simp] theorem State.finish_errKind (s : State) : (s.finish).errKind = s.errKind := rfl
@[simp] theorem State.finish_errDetail (s : State) : (s.finish).errDetail = s.errDetail := rfl
@[simp] theorem State.finish_errPos (s : State) : (s.finish).errPos = s.errPos := rfl
@[simp] theorem State.finish_outLen (s : State) : (s.finish).outLen = s.outLen := rfl
@[simp] theorem State.finish_inBuf (s : State) : (s.finish).inBuf = s.inBuf := rfl
@[simp] theorem State.finish_outBuf (s : State) : (s.finish).outBuf = s.outBuf := rfl
@[simp] theorem State.finish_lOp (s : State) : (s.finish).lOp = s.lOp := rfl
@[simp] theorem State.finish_lLen (s : State) : (s.finish).lLen = s.lLen := rfl
@[simp] theorem State.finish_phase (s : State) : (s.finish).phase = .idle := rfl
@[simp] theorem State.finish_idx (s : State) : (s.finish).idx = 0 := rfl
@[simp] theorem State.finish_accG1 (s : State) : (s.finish).accG1 = s.accG1 := rfl
@[simp] theorem State.finish_accG2 (s : State) : (s.finish).accG2 = s.accG2 := rfl
@[simp] theorem State.finish_accF (s : State) : (s.finish).accF = s.accF := rfl
@[simp] theorem State.finish_resets (s : State) : (s.finish).resets = s.resets := rfl
@[simp] theorem State.finish_draws (s : State) : (s.finish).draws = s.draws := rfl
@[simp] theorem State.finish_reply (s : State) : (s.finish).reply = s.reply := rfl
@[simp] theorem State.finish_inputs (s : State) : (s.finish).inputs = s.inputs := rfl

@[simp] theorem State.finishOk_ie (s : State) (out : List Byte) : (s.finishOk out).ie = s.ie := rfl
@[simp] theorem State.finishOk_opCode (s : State) (out : List Byte) : (s.finishOk out).opCode = s.opCode := rfl
@[simp] theorem State.finishOk_inLen (s : State) (out : List Byte) : (s.finishOk out).inLen = s.inLen := rfl
@[simp] theorem State.finishOk_busy (s : State) (out : List Byte) : (s.finishOk out).busy = false := rfl
@[simp] theorem State.finishOk_done (s : State) (out : List Byte) : (s.finishOk out).done = true := rfl
@[simp] theorem State.finishOk_err (s : State) (out : List Byte) : (s.finishOk out).err = s.err := rfl
@[simp] theorem State.finishOk_errKind (s : State) (out : List Byte) : (s.finishOk out).errKind = s.errKind := rfl
@[simp] theorem State.finishOk_errDetail (s : State) (out : List Byte) : (s.finishOk out).errDetail = s.errDetail := rfl
@[simp] theorem State.finishOk_errPos (s : State) (out : List Byte) : (s.finishOk out).errPos = s.errPos := rfl
@[simp] theorem State.finishOk_outLen (s : State) (out : List Byte) : (s.finishOk out).outLen = BitVec.ofNat 32 out.length := rfl
@[simp] theorem State.finishOk_inBuf (s : State) (out : List Byte) : (s.finishOk out).inBuf = s.inBuf := rfl
@[simp] theorem State.finishOk_outBuf (s : State) (out : List Byte) : (s.finishOk out).outBuf = Memory.setBytes .outBuf s.outBuf 0 out := rfl
@[simp] theorem State.finishOk_lOp (s : State) (out : List Byte) : (s.finishOk out).lOp = s.lOp := rfl
@[simp] theorem State.finishOk_lLen (s : State) (out : List Byte) : (s.finishOk out).lLen = s.lLen := rfl
@[simp] theorem State.finishOk_phase (s : State) (out : List Byte) : (s.finishOk out).phase = .idle := rfl
@[simp] theorem State.finishOk_idx (s : State) (out : List Byte) : (s.finishOk out).idx = 0 := rfl
@[simp] theorem State.finishOk_accG1 (s : State) (out : List Byte) : (s.finishOk out).accG1 = s.accG1 := rfl
@[simp] theorem State.finishOk_accG2 (s : State) (out : List Byte) : (s.finishOk out).accG2 = s.accG2 := rfl
@[simp] theorem State.finishOk_accF (s : State) (out : List Byte) : (s.finishOk out).accF = s.accF := rfl
@[simp] theorem State.finishOk_resets (s : State) (out : List Byte) : (s.finishOk out).resets = s.resets := rfl
@[simp] theorem State.finishOk_draws (s : State) (out : List Byte) : (s.finishOk out).draws = s.draws := rfl
@[simp] theorem State.finishOk_reply (s : State) (out : List Byte) : (s.finishOk out).reply = s.reply := rfl
@[simp] theorem State.finishOk_inputs (s : State) (out : List Byte) : (s.finishOk out).inputs = s.inputs := rfl

@[simp] theorem State.finishErr_ie (s : State) (e : OpError) : (s.finishErr e).ie = s.ie := rfl
@[simp] theorem State.finishErr_opCode (s : State) (e : OpError) : (s.finishErr e).opCode = s.opCode := rfl
@[simp] theorem State.finishErr_inLen (s : State) (e : OpError) : (s.finishErr e).inLen = s.inLen := rfl
@[simp] theorem State.finishErr_busy (s : State) (e : OpError) : (s.finishErr e).busy = false := rfl
@[simp] theorem State.finishErr_done (s : State) (e : OpError) : (s.finishErr e).done = true := rfl
@[simp] theorem State.finishErr_err (s : State) (e : OpError) : (s.finishErr e).err = true := rfl
@[simp] theorem State.finishErr_errKind (s : State) (e : OpError) : (s.finishErr e).errKind = errCode e.kind := rfl
@[simp] theorem State.finishErr_errDetail (s : State) (e : OpError) : (s.finishErr e).errDetail = e.detail := rfl
@[simp] theorem State.finishErr_errPos (s : State) (e : OpError) : (s.finishErr e).errPos = BitVec.ofNat 32 e.pos := rfl
@[simp] theorem State.finishErr_outLen (s : State) (e : OpError) : (s.finishErr e).outLen = s.outLen := rfl
@[simp] theorem State.finishErr_inBuf (s : State) (e : OpError) : (s.finishErr e).inBuf = s.inBuf := rfl
@[simp] theorem State.finishErr_outBuf (s : State) (e : OpError) : (s.finishErr e).outBuf = s.outBuf := rfl
@[simp] theorem State.finishErr_lOp (s : State) (e : OpError) : (s.finishErr e).lOp = s.lOp := rfl
@[simp] theorem State.finishErr_lLen (s : State) (e : OpError) : (s.finishErr e).lLen = s.lLen := rfl
@[simp] theorem State.finishErr_phase (s : State) (e : OpError) : (s.finishErr e).phase = .idle := rfl
@[simp] theorem State.finishErr_idx (s : State) (e : OpError) : (s.finishErr e).idx = 0 := rfl
@[simp] theorem State.finishErr_accG1 (s : State) (e : OpError) : (s.finishErr e).accG1 = s.accG1 := rfl
@[simp] theorem State.finishErr_accG2 (s : State) (e : OpError) : (s.finishErr e).accG2 = s.accG2 := rfl
@[simp] theorem State.finishErr_accF (s : State) (e : OpError) : (s.finishErr e).accF = s.accF := rfl
@[simp] theorem State.finishErr_resets (s : State) (e : OpError) : (s.finishErr e).resets = s.resets := rfl
@[simp] theorem State.finishErr_draws (s : State) (e : OpError) : (s.finishErr e).draws = s.draws := rfl
@[simp] theorem State.finishErr_reply (s : State) (e : OpError) : (s.finishErr e).reply = s.reply := rfl
@[simp] theorem State.finishErr_inputs (s : State) (e : OpError) : (s.finishErr e).inputs = s.inputs := rfl

@[simp] theorem State.clearDone_ie (s : State) : (s.clearDone).ie = s.ie := rfl
@[simp] theorem State.clearDone_opCode (s : State) : (s.clearDone).opCode = s.opCode := rfl
@[simp] theorem State.clearDone_inLen (s : State) : (s.clearDone).inLen = s.inLen := rfl
@[simp] theorem State.clearDone_busy (s : State) : (s.clearDone).busy = s.busy := rfl
@[simp] theorem State.clearDone_done (s : State) : (s.clearDone).done = false := rfl
@[simp] theorem State.clearDone_err (s : State) : (s.clearDone).err = s.err := rfl
@[simp] theorem State.clearDone_errKind (s : State) : (s.clearDone).errKind = s.errKind := rfl
@[simp] theorem State.clearDone_errDetail (s : State) : (s.clearDone).errDetail = s.errDetail := rfl
@[simp] theorem State.clearDone_errPos (s : State) : (s.clearDone).errPos = s.errPos := rfl
@[simp] theorem State.clearDone_outLen (s : State) : (s.clearDone).outLen = s.outLen := rfl
@[simp] theorem State.clearDone_inBuf (s : State) : (s.clearDone).inBuf = s.inBuf := rfl
@[simp] theorem State.clearDone_outBuf (s : State) : (s.clearDone).outBuf = s.outBuf := rfl
@[simp] theorem State.clearDone_lOp (s : State) : (s.clearDone).lOp = s.lOp := rfl
@[simp] theorem State.clearDone_lLen (s : State) : (s.clearDone).lLen = s.lLen := rfl
@[simp] theorem State.clearDone_phase (s : State) : (s.clearDone).phase = s.phase := rfl
@[simp] theorem State.clearDone_idx (s : State) : (s.clearDone).idx = s.idx := rfl
@[simp] theorem State.clearDone_accG1 (s : State) : (s.clearDone).accG1 = s.accG1 := rfl
@[simp] theorem State.clearDone_accG2 (s : State) : (s.clearDone).accG2 = s.accG2 := rfl
@[simp] theorem State.clearDone_accF (s : State) : (s.clearDone).accF = s.accF := rfl
@[simp] theorem State.clearDone_resets (s : State) : (s.clearDone).resets = s.resets := rfl
@[simp] theorem State.clearDone_draws (s : State) : (s.clearDone).draws = s.draws := rfl
@[simp] theorem State.clearDone_reply (s : State) : (s.clearDone).reply = s.reply := rfl
@[simp] theorem State.clearDone_inputs (s : State) : (s.clearDone).inputs = s.inputs := rfl

@[simp] theorem State.clearAll_ie (s : State) : (s.clearAll).ie = false := rfl
@[simp] theorem State.clearAll_opCode (s : State) : (s.clearAll).opCode = 0 := rfl
@[simp] theorem State.clearAll_inLen (s : State) : (s.clearAll).inLen = 0 := rfl
@[simp] theorem State.clearAll_busy (s : State) : (s.clearAll).busy = false := rfl
@[simp] theorem State.clearAll_done (s : State) : (s.clearAll).done = false := rfl
@[simp] theorem State.clearAll_err (s : State) : (s.clearAll).err = false := rfl
@[simp] theorem State.clearAll_errKind (s : State) : (s.clearAll).errKind = 0 := rfl
@[simp] theorem State.clearAll_errDetail (s : State) : (s.clearAll).errDetail = false := rfl
@[simp] theorem State.clearAll_errPos (s : State) : (s.clearAll).errPos = 0 := rfl
@[simp] theorem State.clearAll_outLen (s : State) : (s.clearAll).outLen = 0 := rfl
@[simp] theorem State.clearAll_inBuf (s : State) : (s.clearAll).inBuf = s.inBuf := rfl
@[simp] theorem State.clearAll_outBuf (s : State) : (s.clearAll).outBuf = [] := rfl
@[simp] theorem State.clearAll_lOp (s : State) : (s.clearAll).lOp = Config.freeLOp s.draws := rfl
@[simp] theorem State.clearAll_lLen (s : State) : (s.clearAll).lLen = Config.freeLLen s.draws := rfl
@[simp] theorem State.clearAll_phase (s : State) : (s.clearAll).phase = .idle := rfl
@[simp] theorem State.clearAll_idx (s : State) : (s.clearAll).idx = 0 := rfl
@[simp] theorem State.clearAll_accG1 (s : State) : (s.clearAll).accG1 = Config.freeAccG1 s.draws := rfl
@[simp] theorem State.clearAll_accG2 (s : State) : (s.clearAll).accG2 = Config.freeAccG2 s.draws := rfl
@[simp] theorem State.clearAll_accF (s : State) : (s.clearAll).accF = Config.freeAccF s.draws := rfl
@[simp] theorem State.clearAll_resets (s : State) : (s.clearAll).resets = s.resets := rfl
@[simp] theorem State.clearAll_draws (s : State) : (s.clearAll).draws = s.draws + 1 := rfl
@[simp] theorem State.clearAll_reply (s : State) : (s.clearAll).reply = s.reply := rfl
@[simp] theorem State.clearAll_inputs (s : State) : (s.clearAll).inputs = s.inputs := rfl

@[simp] theorem State.powerOn_ie (s : State) : (s.powerOn).ie = false := rfl
@[simp] theorem State.powerOn_opCode (s : State) : (s.powerOn).opCode = 0 := rfl
@[simp] theorem State.powerOn_inLen (s : State) : (s.powerOn).inLen = 0 := rfl
@[simp] theorem State.powerOn_busy (s : State) : (s.powerOn).busy = false := rfl
@[simp] theorem State.powerOn_done (s : State) : (s.powerOn).done = false := rfl
@[simp] theorem State.powerOn_err (s : State) : (s.powerOn).err = false := rfl
@[simp] theorem State.powerOn_errKind (s : State) : (s.powerOn).errKind = 0 := rfl
@[simp] theorem State.powerOn_errDetail (s : State) : (s.powerOn).errDetail = false := rfl
@[simp] theorem State.powerOn_errPos (s : State) : (s.powerOn).errPos = 0 := rfl
@[simp] theorem State.powerOn_outLen (s : State) : (s.powerOn).outLen = 0 := rfl
@[simp] theorem State.powerOn_inBuf (s : State) : (s.powerOn).inBuf = [] := rfl
@[simp] theorem State.powerOn_outBuf (s : State) : (s.powerOn).outBuf = [] := rfl
@[simp] theorem State.powerOn_lOp (s : State) : (s.powerOn).lOp = Config.freeLOp s.draws := rfl
@[simp] theorem State.powerOn_lLen (s : State) : (s.powerOn).lLen = Config.freeLLen s.draws := rfl
@[simp] theorem State.powerOn_phase (s : State) : (s.powerOn).phase = .idle := rfl
@[simp] theorem State.powerOn_idx (s : State) : (s.powerOn).idx = 0 := rfl
@[simp] theorem State.powerOn_accG1 (s : State) : (s.powerOn).accG1 = Config.freeAccG1 s.draws := rfl
@[simp] theorem State.powerOn_accG2 (s : State) : (s.powerOn).accG2 = Config.freeAccG2 s.draws := rfl
@[simp] theorem State.powerOn_accF (s : State) : (s.powerOn).accF = Config.freeAccF s.draws := rfl
@[simp] theorem State.powerOn_resets (s : State) : (s.powerOn).resets = s.resets + 1 := rfl
@[simp] theorem State.powerOn_draws (s : State) : (s.powerOn).draws = s.draws + 1 := rfl
@[simp] theorem State.powerOn_reply (s : State) : (s.powerOn).reply = .none := rfl
@[simp] theorem State.powerOn_inputs (s : State) : (s.powerOn).inputs = s.inputs := rfl

end Sys2Proof.Machine
end

