-- ==== Sys2Proof/Laws/Evaluate.lean ====
section
/-! SUPPORT. What an evaluation and a completion can do, said once: callers cite these and unfold neither. -/
namespace Sys2Proof.Machine

/-! ## Evaluation (42_dispatch R208), as a cascade of conditions -/

theorem evaluate_eq (op : Operation) (c : Compute) (n : Nat) (s : State) :
    evaluate op c n s =
      if lengthOk op n = false then .err ⟨.invalidInputLength, 0, false⟩
      else if Config.inBufBytes < n then .err ⟨.capacityExceeded, 0, false⟩
      else if s.allWritten n = false then .unwritten
      else match validate op n s with
        | .error e => .err e
        | .ok () =>
          match c n (s.setPhase .compute) with
          | .error e => .err e
          | .ok (s', out) => .ok (s'.setPhase .writeback) out := by
  have hf := fitsInBuf_iff n
  unfold evaluate
  cases h1 : lengthOk op n <;> simp only [cond_true, cond_false, Bool.not_false, Bool.not_true, if_true, Bool.true_eq_false, if_false]
  by_cases h2 : Config.inBufBytes < n
  · have : Config.fitsInBuf n = false := by rw [Bool.eq_false_iff]; intro hh; rw [hf] at hh; omega
    simp [this, h2]
  · have : Config.fitsInBuf n = true := hf.mpr (by omega)
    cases h3 : s.allWritten n <;> (simp [this, h2]; try rfl)

/-- Past the checks before the operands (`lengthOk`, capacity, written) an operation validates, then computes. -/
theorem evaluate_of_ready {op : Operation} {c : Compute} {n : Nat} {s : State} (hl : lengthOk op n = true)
    (hc : n ≤ Config.inBufBytes) (hw : ∀ i, i < n → s.written i = true) :
    evaluate op c n s =
      match validate op n s with
      | .error e => .err e
      | .ok () =>
        match c n (s.setPhase .compute) with
        | .error e => .err e
        | .ok (s', out) => .ok (s'.setPhase .writeback) out := by
  rw [evaluate_eq, if_neg (by simp [hl]), if_neg (by omega), if_neg (by simp [State.allWritten_iff.mpr hw])]

/-! ## What a computation leaves alone -/

/-- Only the sequencer's registers differ. -/
def OnlySequencer (s s' : State) : Prop :=
  ∃ p i a b f, s' = { s with phase := p, idx := i, accG1 := a, accG2 := b, accF := f }

theorem OnlySequencer.refl (s : State) : OnlySequencer s s := ⟨_, _, _, _, _, rfl⟩

theorem OnlySequencer.trans {s t u : State} : OnlySequencer s t → OnlySequencer t u → OnlySequencer s u := by
  rintro ⟨p, i, a, b, f, rfl⟩ ⟨p', i', a', b', f', rfl⟩
  exact ⟨p', i', a', b', f', rfl⟩

theorem onlySequencer_setPhase (s : State) (p : Phase) : OnlySequencer s (s.setPhase p) := ⟨p, _, _, _, _, rfl⟩
theorem onlySequencer_setIdx (s : State) (i : Nat) : OnlySequencer s (s.setIdx i) := ⟨_, i, _, _, _, rfl⟩
theorem onlySequencer_setAccG1 (s : State) (q : G1) : OnlySequencer s (s.setAccG1 q) := ⟨_, _, q, _, _, rfl⟩
theorem onlySequencer_setAccG2 (s : State) (q : G2) : OnlySequencer s (s.setAccG2 q) := ⟨_, _, _, q, _, rfl⟩
theorem onlySequencer_setAccF (s : State) (f : Fq12) : OnlySequencer s (s.setAccF f) := ⟨_, _, _, _, f, rfl⟩

/-- What the laws below need of a group dictionary; both groups have it. -/
structure CurveGroup.Lawful {F : Type} (G : CurveGroup F) (outLen : Nat) : Prop where
  setAcc_only : ∀ s q, OnlySequencer s (G.setAcc s q)
  acc_setAcc : ∀ s q, G.acc (G.setAcc s q) = q
  acc_setIdx : ∀ s i, G.acc (State.setIdx s i) = G.acc s
  encode_length : ∀ q, (G.encodePoint q).length = outLen
  decode_error : ∀ bs pos e, G.decodePoint bs pos = .error e →
    e.kind = .invalidFieldEncoding ∧ pos ≤ e.pos ∧ e.pos < pos + G.pointBytes

theorem groupG1_lawful : groupG1.Lawful 128 where
  setAcc_only := onlySequencer_setAccG1
  acc_setAcc _ _ := rfl
  acc_setIdx _ _ := rfl
  encode_length := encodeG1_length
  decode_error bs pos e h := by
    obtain ⟨h1, h2⟩ := decodeG1_error h
    exact ⟨h1, by omega, by show e.pos < pos + 128; omega⟩

theorem groupG2_lawful : groupG2.Lawful 256 where
  setAcc_only := onlySequencer_setAccG2
  acc_setAcc _ _ := rfl
  acc_setIdx _ _ := rfl
  encode_length := encodeG2_length
  decode_error bs pos e h := by
    obtain ⟨h1, h2⟩ := decodeG2_error h
    exact ⟨h1, by omega, by show e.pos < pos + 256; omega⟩

variable {F : Type} [DecidableEq F] {G : CurveGroup F} {ol : Nat}

theorem accumulate_only (hG : G.Lawful ol) (s : State) (q : Point F) : OnlySequencer s (accumulate G s q) :=
  hG.setAcc_only _ _

theorem acc_accumulate (hG : G.Lawful ol) (s : State) (q : Point F) :
    G.acc (accumulate G s q) = pointAdd G.ops (G.acc s) q := hG.acc_setAcc _ _

/-- A computation that ends leaves all but the sequencer's registers and gives `ol` bytes. -/
def ComputeFrame (c : Compute) (ol : Nat) : Prop :=
  ∀ n s s' out, c n s = .ok (s', out) → OnlySequencer s s' ∧ out.length = ol

theorem addCompute_frame (hG : G.Lawful ol) : ComputeFrame (addCompute G) ol := by
  intro n s s' out h
  unfold addCompute at h
  split at h
  · cases h
  · cases h
    exact ⟨((hG.setAcc_only s _).trans (accumulate_only hG _ _)).trans (accumulate_only hG _ _), hG.encode_length _⟩

theorem mulCompute_frame (hG : G.Lawful ol) : ComputeFrame (mulCompute G) ol := by
  intro n s s' out h
  unfold mulCompute at h
  split at h
  · cases h
  · cases h
    exact ⟨hG.setAcc_only _ _, hG.encode_length _⟩

theorem multiExpLoop_frame (hG : G.Lawful ol) {u : Nat} {is : List Nat} {s s' : State}
    (h : multiExpLoop G u is s = .ok s') : OnlySequencer s s' := by
  induction is generalizing s with
  | nil => cases h; exact .refl _
  | cons i is ih =>
    unfold multiExpLoop at h
    split at h
    · cases h
    · exact ((onlySequencer_setIdx s i).trans (accumulate_only hG _ _)).trans (ih h)

theorem multiExpCompute_frame (hG : G.Lawful ol) (u : Nat) : ComputeFrame (multiExpCompute G u) ol := by
  intro n s s' out h
  unfold multiExpCompute at h
  split at h
  · cases h
  · rename_i t ht
    cases h
    exact ⟨(hG.setAcc_only _ _).trans (multiExpLoop_frame hG ht), hG.encode_length _⟩

theorem pairingLoop_frame {is : List Nat} {s s' : State} (h : pairingLoop is s = .ok s') : OnlySequencer s s' := by
  induction is generalizing s with
  | nil => cases h; exact .refl _
  | cons i is ih =>
    unfold pairingLoop at h
    split at h
    · cases h
    · exact ((onlySequencer_setIdx s i).trans (onlySequencer_setAccF _ _)).trans (ih h)

theorem pairingCompute_frame : ComputeFrame pairingCompute 32 := by
  intro n s s' out h
  unfold pairingCompute at h
  split at h
  · cases h
  · rename_i t ht
    cases h
    exact ⟨((onlySequencer_setAccF _ _).trans (pairingLoop_frame ht)).trans (onlySequencer_setPhase _ _),
      encodeBool32_length _⟩

/-! ## The seven operations as one family -/

/-- The computation of each operation (42_dispatch R208). -/
def computeOf : Operation → Compute
  | .g1add => addCompute groupG1
  | .g1mul => mulCompute groupG1
  | .g1multiexp => multiExpCompute groupG1 160
  | .g2add => addCompute groupG2
  | .g2mul => mulCompute groupG2
  | .g2multiexp => multiExpCompute groupG2 288
  | .pairing => pairingCompute

theorem computeOf_frame (op : Operation) : ComputeFrame (computeOf op) (resultBytes op) := by
  cases op
  exacts [addCompute_frame groupG1_lawful, mulCompute_frame groupG1_lawful, multiExpCompute_frame groupG1_lawful 160,
    addCompute_frame groupG2_lawful, mulCompute_frame groupG2_lawful, multiExpCompute_frame groupG2_lawful 288,
    pairingCompute_frame]

/-- Everything the completion of an operation can do: stop on unwritten input, record an error, or write the output and
change no other than the sequencer's registers before the end of the completion. -/
theorem runOperation_cases (op : Operation) (n : Nat) (s : State) :
    (runOperation op (computeOf op) n s = .fault .unwrittenInput ∧ evaluate op (computeOf op) n s = .unwritten) ∨
    (∃ e, runOperation op (computeOf op) n s = .next (s.finishErr e) ∧ evaluate op (computeOf op) n s = .err e) ∨
    (∃ s' out, runOperation op (computeOf op) n s = .next (s'.finishOk out) ∧
      evaluate op (computeOf op) n s = .ok s' out ∧ OnlySequencer s s' ∧ out.length = resultBytes op) := by
  unfold runOperation
  cases h : evaluate op (computeOf op) n s with
  | unwritten => exact .inl ⟨rfl, rfl⟩
  | err e => exact .inr (.inl ⟨e, rfl, rfl⟩)
  | ok s' out =>
    refine .inr (.inr ⟨s', out, rfl, rfl, ?_⟩)
    rw [evaluate_eq] at h
    split at h
    · cases h
    split at h
    · cases h
    split at h
    · cases h
    split at h
    · cases h
    split at h
    · cases h
    · rename_i t o hc
      cases h
      obtain ⟨h1, h2⟩ := computeOf_frame op _ _ _ _ hc
      exact ⟨((onlySequencer_setPhase _ _).trans h1).trans (onlySequencer_setPhase _ _), h2⟩

/-! ## Which accumulators a computation writes -/

section
variable {α : Type} {g : State → α}

/-- What a group's accumulator does not reach, its ADD leaves. -/
theorem addCompute_keeps (hg : ∀ s q, g (G.setAcc s q) = g s) {n s s' out} (h : addCompute G n s = .ok (s', out)) : g s' = g s := by
  unfold addCompute at h
  split at h
  · cases h
  · cases h; simp only [accumulate, hg]

theorem mulCompute_keeps (hg : ∀ s q, g (G.setAcc s q) = g s) {n s s' out} (h : mulCompute G n s = .ok (s', out)) : g s' = g s := by
  unfold mulCompute at h
  split at h
  · cases h
  · cases h; simp only [hg]

theorem multiExpLoop_keeps (hg : ∀ s q, g (G.setAcc s q) = g s) (hi : ∀ (s : State) i, g (s.setIdx i) = g s) {u is s s'}
    (h : multiExpLoop G u is s = .ok s') : g s' = g s := by
  induction is generalizing s with
  | nil => cases h; rfl
  | cons i is ih =>
    unfold multiExpLoop at h
    split at h
    · cases h
    · rw [ih h, accumulate, hg, hi]

theorem multiExpCompute_keeps (hg : ∀ s q, g (G.setAcc s q) = g s) (hi : ∀ (s : State) i, g (s.setIdx i) = g s) {u n s s' out}
    (h : multiExpCompute G u n s = .ok (s', out)) : g s' = g s := by
  unfold multiExpCompute at h
  split at h
  · cases h
  · rename_i t ht
    cases h; rw [multiExpLoop_keeps hg hi ht, hg]

theorem pairingCompute_keeps (hg : ∀ (s : State) f, g (s.setAccF f) = g s) (hi : ∀ (s : State) i, g (s.setIdx i) = g s)
    (hp : ∀ (s : State) p, g (s.setPhase p) = g s) {n s s' out}
    (h : pairingCompute n s = .ok (s', out)) : g s' = g s := by
  have hl : ∀ is {s s' : State}, pairingLoop is s = .ok s' → g s' = g s := by
    intro is
    induction is with
    | nil => intro s s' h; cases h; rfl
    | cons i is ih =>
      intro s s' h
      unfold pairingLoop at h
      split at h
      · cases h
      · rw [ih h, hg, hi]
  unfold pairingCompute at h
  split at h
  · cases h
  · rename_i t ht
    cases h; rw [hp, hl _ ht, hg]


end

/-- Only the operation's own accumulator changes (42_dispatch R210 to R215, 43_pairing R232). -/
theorem computeOf_acc {op : Operation} {n : Nat} {s s' : State} {out : List Byte} (h : computeOf op n s = .ok (s', out)) :
    (op ≠ .g1add → op ≠ .g1mul → op ≠ .g1multiexp → s'.accG1 = s.accG1) ∧
    (op ≠ .g2add → op ≠ .g2mul → op ≠ .g2multiexp → s'.accG2 = s.accG2) ∧ (op ≠ .pairing → s'.accF = s.accF) := by
  cases op
  case g1add => exact ⟨by simp, fun _ _ _ => addCompute_keeps (n := n) (G := groupG1) (g := State.accG2) (fun _ _ => rfl) h, fun _ => addCompute_keeps (n := n) (G := groupG1) (g := State.accF) (fun _ _ => rfl) h⟩
  case g1mul => exact ⟨by simp, fun _ _ _ => mulCompute_keeps (n := n) (G := groupG1) (g := State.accG2) (fun _ _ => rfl) h, fun _ => mulCompute_keeps (n := n) (G := groupG1) (g := State.accF) (fun _ _ => rfl) h⟩
  case g1multiexp => exact ⟨by simp, fun _ _ _ => multiExpCompute_keeps (G := groupG1) (g := State.accG2) (fun _ _ => rfl) (fun _ _ => rfl) h, fun _ => multiExpCompute_keeps (G := groupG1) (g := State.accF) (fun _ _ => rfl) (fun _ _ => rfl) h⟩
  case g2add => exact ⟨fun _ _ _ => addCompute_keeps (n := n) (G := groupG2) (g := State.accG1) (fun _ _ => rfl) h, by simp, fun _ => addCompute_keeps (n := n) (G := groupG2) (g := State.accF) (fun _ _ => rfl) h⟩
  case g2mul => exact ⟨fun _ _ _ => mulCompute_keeps (n := n) (G := groupG2) (g := State.accG1) (fun _ _ => rfl) h, by simp, fun _ => mulCompute_keeps (n := n) (G := groupG2) (g := State.accF) (fun _ _ => rfl) h⟩
  case g2multiexp => exact ⟨fun _ _ _ => multiExpCompute_keeps (G := groupG2) (g := State.accG1) (fun _ _ => rfl) (fun _ _ => rfl) h, by simp, fun _ => multiExpCompute_keeps (G := groupG2) (g := State.accF) (fun _ _ => rfl) (fun _ _ => rfl) h⟩
  case pairing => exact ⟨fun _ _ _ => pairingCompute_keeps (g := State.accG1) (fun _ _ => rfl) (fun _ _ => rfl) (fun _ _ => rfl) h, fun _ _ _ => pairingCompute_keeps (g := State.accG2) (fun _ _ => rfl) (fun _ _ => rfl) (fun _ _ => rfl) h, by simp⟩

/-! ## Reading operands depends on the input bytes alone -/

theorem OnlySequencer.inBuf {s s' : State} (h : OnlySequencer s s') : s'.inBuf = s.inBuf := by
  obtain ⟨_, _, _, _, _, rfl⟩ := h; rfl

theorem OnlySequencer.memRead {s s' : State} (h : OnlySequencer s s') (a n : Nat) : s'.memRead a n = s.memRead a n := by
  obtain ⟨_, _, _, _, _, rfl⟩ := h; rfl

theorem OnlySequencer.readPoint {F : Type} {s s' : State} (h : OnlySequencer s s') (G : CurveGroup F) (off : Nat) :
    readPoint G s' off = readPoint G s off := by
  unfold Machine.readPoint; rw [h.memRead]

theorem OnlySequencer.readScalar {s s' : State} (h : OnlySequencer s s') (off : Nat) :
    readScalar s' off = readScalar s off := by
  unfold Machine.readScalar; rw [h.memRead]

theorem OnlySequencer.readPair {s s' : State} (h : OnlySequencer s s') (off : Nat) : readPair s' off = readPair s off := by
  unfold Machine.readPair; rw [h.readPoint, h.readPoint]

/-! ## Validation -/

/-- The scan ends with `ok` when every operand passes. -/
theorem validateAll_ok_iff {sub : Bool} {s : State} {os : List Operand} :
    validateAll sub s os = .ok () ↔ ∀ o ∈ os, validateOperand sub s o = .ok () := by
  induction os with
  | nil => simp [validateAll]
  | cons o os ih =>
    cases h : validateOperand sub s o with
    | error e => simp [validateAll, h]
    | ok u => simp [validateAll, h, ih]

/-- The scan ends with an error at the first operand that fails (41_validator R184). -/
theorem validateAll_error_iff {sub : Bool} {s : State} {os : List Operand} {e : OpError} :
    validateAll sub s os = .error e ↔
      ∃ pre o post, os = pre ++ o :: post ∧ (∀ p ∈ pre, validateOperand sub s p = .ok ()) ∧
        validateOperand sub s o = .error e := by
  induction os with
  | nil => simp [validateAll]
  | cons o os ih =>
    cases h : validateOperand sub s o with
    | error e' =>
      simp only [validateAll, h, Except.error.injEq]
      constructor
      · rintro rfl; exact ⟨[], o, os, rfl, by simp, h⟩
      · rintro ⟨pre, o', post, hs, hp, ho⟩
        cases pre with
        | nil => cases hs; rw [h] at ho; exact Except.error.inj ho
        | cons p pre => cases hs; have := hp o (by simp); rw [h] at this; cases this
    | ok u =>
      simp only [validateAll, h, ih]
      constructor
      · rintro ⟨pre, o', post, rfl, hp, ho⟩
        exact ⟨o :: pre, o', post, rfl, by simpa [h] using hp, ho⟩
      · rintro ⟨pre, o', post, hs, hp, ho⟩
        cases pre with
        | nil => cases hs; rw [h] at ho; cases ho
        | cons p pre => cases hs; exact ⟨pre, o', post, rfl, fun q hq => hp q (by simp [hq]), ho⟩

theorem checkPoint_ok_iff {sub : Bool} {pos : Nat} {q : Point F} :
    checkPoint G sub pos q = .ok () ↔
      q = .inf ∨ (onCurve G.ops G.coeffB q = true ∧ (sub = true → inSubgroup G.ops q = true)) := by
  unfold checkPoint
  by_cases h : q = .inf
  · simp [h]
  · cases h1 : onCurve G.ops G.coeffB q <;> cases sub <;> cases h2 : inSubgroup G.ops q <;> simp [h]

theorem validatePoint_ok_iff {sub : Bool} {s : State} {off : Nat} :
    validatePoint G sub s off = .ok () ↔ ∃ q, readPoint G s off = .ok q ∧ checkPoint G sub off q = .ok () := by
  unfold validatePoint
  cases readPoint G s off <;> simp

/-- What the checks of one point can raise, and where (60_exceptions R283). -/
theorem validatePoint_error {sub : Bool} {s : State} {off : Nat} {e : OpError} (hG : G.Lawful ol)
    (hp : 0 < G.pointBytes) (h : validatePoint G sub s off = .error e) :
    (e.kind = .invalidFieldEncoding ∨ ((e.kind = .pointNotOnCurve ∨ e.kind = .incorrectSubgroup) ∧ e.detail = false)) ∧
      off ≤ e.pos ∧ e.pos < off + G.pointBytes := by
  unfold validatePoint at h
  split at h
  · rename_i e' h'
    cases h
    obtain ⟨h1, h2⟩ := hG.decode_error _ _ _ h'
    exact ⟨.inl h1, h2⟩
  · rename_i q h'
    unfold checkPoint at h
    split at h
    · cases h
    · cases h1 : onCurve G.ops G.coeffB q <;> simp only [h1, cond_true, cond_false] at h
      · cases h; exact ⟨.inr ⟨.inl rfl, rfl⟩, le_refl _, by show off < off + G.pointBytes; omega⟩
      · cases h2 : sub && !inSubgroup G.ops q <;> simp only [h2, cond_true, cond_false] at h
        · cases h
        · cases h; exact ⟨.inr ⟨.inr rfl, rfl⟩, le_refl _, by show off < off + G.pointBytes; omega⟩

/-- The errors of the checks of one operand (60_exceptions R283). -/
theorem validateOperand_error {sub : Bool} {s : State} {o : Operand} {e : OpError}
    (h : validateOperand sub s o = .error e) :
    (e.kind = .invalidFieldEncoding ∨ ((e.kind = .pointNotOnCurve ∨ e.kind = .incorrectSubgroup) ∧ e.detail = false)) ∧
      o.off ≤ e.pos ∧ e.pos < o.off + operandBytes o.type := by
  unfold validateOperand at h
  split at h
  · cases h
  · rename_i ht; rw [ht]; exact validatePoint_error groupG1_lawful (by decide) h
  · rename_i ht; rw [ht]; exact validatePoint_error groupG2_lawful (by decide) h

/-- An operand that passed its checks reads as a point. -/
theorem readPoint_of_validate_g1 {sub : Bool} {s : State} {off : Nat}
    (h : validateOperand sub s ⟨.g1pt, off⟩ = .ok ()) : ∃ q, readPoint groupG1 s off = .ok q := by
  obtain ⟨q, h, -⟩ := validatePoint_ok_iff.mp h; exact ⟨q, h⟩

theorem readPoint_of_validate_g2 {sub : Bool} {s : State} {off : Nat}
    (h : validateOperand sub s ⟨.g2pt, off⟩ = .ok ()) : ∃ q, readPoint groupG2 s off = .ok q := by
  obtain ⟨q, h, -⟩ := validatePoint_ok_iff.mp h; exact ⟨q, h⟩

/-! ## Operand lists (30_encoding R122) -/

theorem mem_operands {op : Operation} {n : Nat} {o : Operand} :
    o ∈ operands op n ↔
      ∃ i, i < n / frameBytes op ∧ ∃ o' ∈ frameOperands op, o = ⟨o'.type, frameBytes op * i + o'.off⟩ := by
  simp only [operands, pairCount, List.mem_flatMap, List.mem_range, List.mem_map]
  constructor
  · rintro ⟨i, hi, o', ho', rfl⟩; exact ⟨i, hi, o', ho', rfl⟩
  · rintro ⟨i, hi, o', ho', rfl⟩; exact ⟨i, hi, o', ho', rfl⟩

theorem frameOperands_inside (op : Operation) :
    ∀ o ∈ frameOperands op, o.off + operandBytes o.type ≤ frameBytes op := by
  cases op <;> decide

/-- Every operand lies inside the input (20_memory R72). -/
theorem operand_inside {op : Operation} {n : Nat} {o : Operand} (h : o ∈ operands op n) :
    o.off + operandBytes o.type ≤ n := by
  obtain ⟨i, hi, o', ho', rfl⟩ := mem_operands.mp h
  have h1 := frameOperands_inside op o' ho'
  have h2 : frameBytes op * (i + 1) ≤ frameBytes op * (n / frameBytes op) := Nat.mul_le_mul_left _ hi
  have h3 := Nat.mul_div_le n (frameBytes op)
  rw [Nat.mul_succ] at h2
  show frameBytes op * i + o'.off + operandBytes o'.type ≤ n
  omega

/-- A point operand of the frame, in frame `i` of a validated input, passed its checks. -/
theorem validateOperand_of_validate {op : Operation} {n : Nat} {s : State} (h : validate op n s = .ok ())
    {i : Nat} (hi : i < n / frameBytes op) {o : Operand} (ho : o ∈ frameOperands op) :
    validateOperand (needsSubgroup op) s ⟨o.type, frameBytes op * i + o.off⟩ = .ok () :=
  validateAll_ok_iff.mp h _ (mem_operands.mpr ⟨i, hi, o, ho, rfl⟩)

theorem pairCount_pos {op : Operation} {n : Nat} (h : lengthOk op n = true) : 0 < n / frameBytes op := by
  cases op <;> simp [lengthOk, fixedLength, frameBytes, natBeq_eq, natBle_eq] at * <;> omega

/-! ## What the computations give -/

theorem addCompute_eq (hG : G.Lawful ol) {s : State} {a b : Point F} (n : Nat) (ha : readPoint G s 0 = .ok a)
    (hb : readPoint G s G.pointBytes = .ok b) :
    ∃ s', addCompute G n s = .ok (s', G.encodePoint (pointAdd G.ops a b)) ∧
      G.acc s' = pointAdd G.ops a b ∧ OnlySequencer s s' := by
  refine ⟨_, ?_, ?_, ((hG.setAcc_only s .inf).trans (accumulate_only hG _ a)).trans (accumulate_only hG _ b)⟩
  · simp only [addCompute, ha, hb, decodePair]
    rw [acc_accumulate hG, acc_accumulate hG, hG.acc_setAcc]
    rfl
  · rw [acc_accumulate hG, acc_accumulate hG, hG.acc_setAcc]
    rfl

theorem mulCompute_eq (hG : G.Lawful ol) {s : State} {q : Point F} (n : Nat) (hq : readPoint G s 0 = .ok q) :
    ∃ s', mulCompute G n s = .ok (s', G.encodePoint (pointMul G.ops (readScalar s G.pointBytes) q)) ∧
      G.acc s' = pointMul G.ops (readScalar s G.pointBytes) q ∧ OnlySequencer s s' := by
  refine ⟨_, ?_, hG.acc_setAcc _ _, hG.setAcc_only s _⟩
  simp only [mulCompute, hq]
  rw [hG.acc_setAcc]

theorem multiExpLoop_eq (hG : G.Lawful ol) {u : Nat} {q : Nat → Point F} {is : List Nat} {s : State}
    (hq : ∀ i ∈ is, readPoint G s (u * i) = .ok (q i)) :
    ∃ s', multiExpLoop G u is s = .ok s' ∧ OnlySequencer s s' ∧
      G.acc s' = is.foldl (fun acc i => pointAdd G.ops acc (pointMul G.ops (readScalar s (u * i + G.pointBytes)) (q i)))
        (G.acc s) := by
  induction is generalizing s with
  | nil => exact ⟨s, rfl, .refl s, rfl⟩
  | cons i is ih =>
    have hstep : OnlySequencer s (accumulate G (s.setIdx i) (pointMul G.ops (readScalar s (u * i + G.pointBytes)) (q i))) :=
      (onlySequencer_setIdx s i).trans (accumulate_only hG _ _)
    obtain ⟨s', h1, h2, h3⟩ := ih (s := accumulate G (s.setIdx i) (pointMul G.ops (readScalar s (u * i + G.pointBytes)) (q i)))
      (fun j hj => by rw [hstep.readPoint]; exact hq j (by simp [hj]))
    refine ⟨s', ?_, hstep.trans h2, ?_⟩
    · unfold multiExpLoop
      rw [hq i (by simp)]
      exact h1
    · rw [h3, acc_accumulate hG, List.foldl_cons]
      have ha : G.acc (s.setIdx i) = G.acc s := hG.acc_setIdx s i
      rw [ha]
      congr 1
      funext acc j
      rw [hstep.readScalar]

end Sys2Proof.Machine
end

