-- ==== Sys2Proof/Laws/PairingValue.lean ====
section
/-! SUPPORT. What the four properties of 43_pairing R230 give: the value `e(P, Q)` as an element of a field, its powers and its
order, and the value of a list of pairs (R234, R235). -/
namespace Sys2Proof.Machine

theorem pointMul_inf {F : Type} [DecidableEq F] (K : FieldOps F) (a : Nat) : pointMul K a .inf = .inf := by
  unfold pointMul iterOp
  generalize binary a = ds
  induction ds with
  | nil => rfl
  | cons d ds ih => rw [List.foldr_cons, ih]; cases d <;> rfl

theorem InG1.neg {p : G1} (h : InG1 p) : InG1 (pointNeg fqOps p) := (pointNeg_g1 h).symm ▸ h.mul (Config.R - 1)

section
variable [Fact (Nat.Prime Config.P)] [Fact (∀ r : Zq, r ^ 2 ≠ -5 + 0 * r)]

/-- `e(P, Q)`, with `e(Inf, Q) = e(P, Inf) = 1`. -/
noncomputable def pairValue (p : G1) (q : G2) : Zq12 :=
  if p = .inf ∨ q = .inf then 1 else toZq12 (finalExp (millerLoop p q))

theorem pairValue_inf {p : G1} {q : G2} (h : p = .inf ∨ q = .inf) : pairValue p q = 1 := if_pos h

theorem pairValue_aff {p : G1} {q : G2} (hp : p ≠ .inf) (hq : q ≠ .inf) :
    pairValue p q = toZq12 (finalExp (millerLoop p q)) := if_neg (not_or.mpr ⟨hp, hq⟩)

theorem pairValue_pow_R {p : G1} {q : G2} (hp : InG1 p) (hq : InG2 q) : pairValue p q ^ Config.R = 1 := by
  by_cases h : p = .inf ∨ q = .inf
  · rw [pairValue_inf h, one_pow]
  · obtain ⟨h1, h2⟩ := not_or.mp h
    rw [pairValue_aff h1 h2, ← toZq12_pow]
    exact (congrArg toZq12 (Config.pairing.feOrder _ (Config.pairing.ml p q hp hq h1 h2))).trans toZq12_one

/-- `e([a]P, Q) = e(P, Q)^a` for every `a`. -/
theorem pairValue_mul_g1 {p : G1} {q : G2} (hp : InG1 p) (hq : InG2 q) (a : Nat) :
    pairValue (pointMul fqOps a p) q = pairValue p q ^ a := by
  by_cases hp0 : p = .inf
  · have h : pointMul fqOps a p = .inf := by subst hp0; exact pointMul_inf fqOps a
    rw [pairValue_inf (.inl h), pairValue_inf (.inl hp0), one_pow]
  by_cases hq0 : q = .inf
  · rw [pairValue_inf (.inr hq0), pairValue_inf (.inr hq0), one_pow]
  by_cases h : pointMul fqOps a p = .inf
  · obtain ⟨c, rfl⟩ := Nat.dvd_of_mod_eq_zero ((pointMul_g1_eq_inf_iff hp hp0 a).mp h)
    rw [pairValue_inf (.inl h), pow_mul, pairValue_pow_R hp hq, one_pow]
  · rw [pairValue_aff h hq0, pairValue_aff hp0 hq0, ← toZq12_pow]
    have h' : pointMul fq2Ops a q ≠ .inf := fun h' => h ((pointMul_g1_eq_inf_iff hp hp0 a).mpr ((pointMul_g2_eq_inf_iff hq hq0 a).mp h'))
    exact congrArg toZq12 (Config.pairing.bil p q a hp hq h h').1

/-- `e(P, [a]Q) = e(P, Q)^a` for every `a`. -/
theorem pairValue_mul_g2 {p : G1} {q : G2} (hp : InG1 p) (hq : InG2 q) (a : Nat) :
    pairValue p (pointMul fq2Ops a q) = pairValue p q ^ a := by
  by_cases hp0 : p = .inf
  · rw [pairValue_inf (.inl hp0), pairValue_inf (.inl hp0), one_pow]
  by_cases hq0 : q = .inf
  · have h : pointMul fq2Ops a q = .inf := by subst hq0; exact pointMul_inf fq2Ops a
    rw [pairValue_inf (.inr h), pairValue_inf (.inr hq0), one_pow]
  by_cases h : pointMul fq2Ops a q = .inf
  · obtain ⟨c, rfl⟩ := Nat.dvd_of_mod_eq_zero ((pointMul_g2_eq_inf_iff hq hq0 a).mp h)
    rw [pairValue_inf (.inr h), pow_mul, pairValue_pow_R hp hq, one_pow]
  · rw [pairValue_aff hp0 h, pairValue_aff hp0 hq0, ← toZq12_pow]
    have h' : pointMul fqOps a p ≠ .inf := fun h' => h ((pointMul_g2_eq_inf_iff hq hq0 a).mpr ((pointMul_g1_eq_inf_iff hp hp0 a).mp h'))
    exact congrArg toZq12 (Config.pairing.bil p q a hp hq h' h).2

variable [Fact (Irreducible towerPoly)]

/-- The value of a pair without Inf generates GT (43_pairing R236). -/
theorem orderOf_pairValue {p : G1} {q : G2} (hp : InG1 p) (hq : InG2 q) (hp0 : p ≠ .inf) (hq0 : q ≠ .inf) :
    orderOf (pairValue p q) = Config.R := by
  have : Fact (Nat.Prime Config.R) := ⟨R_prime⟩
  refine orderOf_eq_prime (pairValue_pow_R hp hq) ?_
  rw [pairValue_aff hp0 hq0, ← toZq12_one, toZq12_injective.ne_iff]
  exact Config.pairing.ndg p q hp hq hp0 hq0

variable [Fact (Irreducible topPoly)]

theorem fq12Mul_ne_zero {a b : Fq12} (ha : a ≠ fq12Zero) (hb : b ≠ fq12Zero) : fq12Mul a b ≠ fq12Zero := by
  rw [← toZq12_ne_zero, toZq12_mul]
  exact mul_ne_zero (toZq12_ne_zero.mpr ha) (toZq12_ne_zero.mpr hb)

/-- FINAL_EXP of a product of Miller values is the product of the values of the pairs (43_pairing R234, R235). -/
theorem finalExp_foldl {l : List (G1 × G2)} (hl : ∀ pq ∈ l, InG1 pq.1 ∧ InG2 pq.2) {f : Fq12} (hf : f ≠ fq12Zero) :
    toZq12 (finalExp (l.foldl pairFactor f)) = toZq12 (finalExp f) * (l.map fun pq => pairValue pq.1 pq.2).prod := by
  induction l generalizing f with
  | nil => exact (mul_one _).symm
  | cons pq l ih =>
    obtain ⟨⟨h1, h2⟩, hl'⟩ := List.forall_mem_cons.mp hl
    rw [List.foldl_cons, List.map_cons, List.prod_cons, pairFactor]
    split
    · rename_i h
      rw [ih hl' hf, pairValue_inf h, one_mul]
    · rename_i h
      obtain ⟨hp, hq⟩ := not_or.mp h
      have hm : millerLoop pq.1 pq.2 ≠ fq12Zero := Config.pairing.ml pq.1 pq.2 h1 h2 hp hq
      have he : finalExp (fq12Mul f (millerLoop pq.1 pq.2)) = fq12Mul (finalExp f) (finalExp (millerLoop pq.1 pq.2)) :=
        Config.pairing.feMul _ _ hf hm
      rw [ih hl' (fq12Mul_ne_zero hf hm), he, toZq12_mul, pairValue_aff hp hq, mul_assoc]

theorem fq12One_ne_zero : fq12One ≠ fq12Zero := toZq12_ne_zero.mp (by rw [toZq12_one]; exact one_ne_zero)

/-- The value the verdict tests is 1 exactly when the product of the values of the pairs is (43_pairing R231, R234). -/
theorem isOne_finalExp_foldl {l : List (G1 × G2)} (hl : ∀ pq ∈ l, InG1 pq.1 ∧ InG2 pq.2) :
    isOne (finalExp (l.foldl pairFactor fq12One)) = true ↔ (l.map fun pq => pairValue pq.1 pq.2).prod = 1 := by
  have h1 : toZq12 (finalExp fq12One) = 1 := (congrArg toZq12 Config.pairing.feOne).trans toZq12_one
  have h := finalExp_foldl hl fq12One_ne_zero
  rw [h1, one_mul] at h
  rw [isOne, decide_eq_true_iff, ← toZq12_injective.eq_iff, h, toZq12_one]

end

end Sys2Proof.Machine
end

