-- ==== Sys2Proof/Laws/PerInstr.lean ====
section
/-! SUPPORT. Facts about every instruction as syntax, one lemma per constructor. -/
namespace Sys2Proof.Laws.TableMatch

/-- The row of spec/opcode_table.json of an instruction: its `mask` and its `match`. -/
def row : Instr → Word × Word
  | .g1add _ => (0xF, 0x1)
  | .g1mul _ => (0xF, 0x2)
  | .g1multiexp _ => (0xF, 0x3)
  | .g2add _ => (0xF, 0x4)
  | .g2mul _ => (0xF, 0x5)
  | .g2multiexp _ => (0xF, 0x6)
  | .pairing _ => (0xF, 0x7)
  | .start _ => (0x3, 0x1)
  | .srst _ _ => (0x2, 0x2)
  | .ieWrite _ => (0x3, 0x0)
  | .doneClr => (0x2, 0x2)

/-- The word the table's row speaks of: the OP register, or the word written to CTRL or STATUS. -/
def tableWord : Encoding → Word
  | .op opReg _ => opReg
  | .ctrlWrite v => v
  | .statusWrite v => v

/-- The instruction's encoding matches its own row of the opcode table. -/
def Statement (i : Instr) : Prop := tableWord (encode i) &&& (row i).1 = (row i).2

theorem g1add (n : Nat) : Statement (.g1add n) := by simp [Statement, tableWord, encode, row]
theorem g1mul (n : Nat) : Statement (.g1mul n) := by simp [Statement, tableWord, encode, row]
theorem g1multiexp (n : Nat) : Statement (.g1multiexp n) := by simp [Statement, tableWord, encode, row]
theorem g2add (n : Nat) : Statement (.g2add n) := by simp [Statement, tableWord, encode, row]
theorem g2mul (n : Nat) : Statement (.g2mul n) := by simp [Statement, tableWord, encode, row]
theorem g2multiexp (n : Nat) : Statement (.g2multiexp n) := by simp [Statement, tableWord, encode, row]
theorem pairing (n : Nat) : Statement (.pairing n) := by simp [Statement, tableWord, encode, row]
theorem start (ie : Bool) : Statement (.start ie) := by cases ie <;> rfl
theorem srst (st ie : Bool) : Statement (.srst st ie) := by cases st <;> cases ie <;> rfl
theorem ieWrite (ie : Bool) : Statement (.ieWrite ie) := by cases ie <;> rfl
theorem doneClr : Statement .doneClr := by unfold Statement; rfl

end Sys2Proof.Laws.TableMatch
end

