-- ==== Sys2Proof/Laws/Results.lean ====
section
/-! SUPPORT. The computations over a list of frames, and that a computation cannot fail once validation has passed
(42_dispatch R208). -/
namespace Sys2Proof.Machine

variable {F : Type} [DecidableEq F] {G : CurveGroup F} {ol : Nat}

/-- A sum over frame indices is the sum over the list of their terms. -/
theorem foldl_terms (K : FieldOps F) (f : Nat → Point F × Nat) (is : List Nat) (z : Point F) :
    is.foldl (fun acc i => pointAdd K acc (pointMul K (f i).2 (f i).1)) z =
      (is.map f).foldl (fun acc t => pointAdd K acc (pointMul K t.2 t.1)) z := by
  rw [List.foldl_map]

theorem multiExpCompute_eq (hG : G.Lawful ol) {u n : Nat} {q : Nat → Point F} {s : State}
    (hq : ∀ i, i < n / u → readPoint G s (u * i) = .ok (q i)) :
    ∃ s', multiExpCompute G u n s =
        .ok (s', G.encodePoint (multiExpSum G.ops ((List.range (n / u)).map fun i => (q i, readScalar s (u * i + G.pointBytes))))) ∧
      G.acc s' = multiExpSum G.ops ((List.range (n / u)).map fun i => (q i, readScalar s (u * i + G.pointBytes))) ∧
      OnlySequencer s s' := by
  have h0 := hG.setAcc_only s .inf
  obtain ⟨s', h1, h2, h3⟩ := multiExpLoop_eq hG (u := u) (q := q) (is := List.range (n / u)) (s := G.setAcc s .inf)
    (fun i hi => by rw [h0.readPoint]; exact hq i (List.mem_range.mp hi))
  have hacc : G.acc s' =
      multiExpSum G.ops ((List.range (n / u)).map fun i => (q i, readScalar s (u * i + G.pointBytes))) := by
    rw [h3, hG.acc_setAcc, multiExpSum,
      ← foldl_terms G.ops (fun i => (q i, readScalar s (u * i + G.pointBytes)))]
    congr 1
    funext acc i
    rw [h0.readScalar]
  refine ⟨s', ?_, hacc, h0.trans h2⟩
  unfold multiExpCompute
  rw [h1]
  show Except.ok (s', G.encodePoint (G.acc s')) = _
  rw [hacc]

theorem pairingLoop_eq {pq : Nat → G1 × G2} {is : List Nat} {s : State}
    (hq : ∀ i ∈ is, readPair s (384 * i) = .ok (pq i)) :
    ∃ s', pairingLoop is s = .ok s' ∧ OnlySequencer s s' ∧ s'.accF = (is.map pq).foldl pairFactor s.accF := by
  induction is generalizing s with
  | nil => exact ⟨s, rfl, .refl s, rfl⟩
  | cons i is ih =>
    have hstep : OnlySequencer s ((s.setIdx i).setAccF (pairFactor s.accF (pq i))) :=
      (onlySequencer_setIdx s i).trans (onlySequencer_setAccF _ _)
    obtain ⟨s', h1, h2, h3⟩ := ih (s := (s.setIdx i).setAccF (pairFactor s.accF (pq i)))
      (fun j hj => by rw [hstep.readPair]; exact hq j (by simp [hj]))
    refine ⟨s', ?_, hstep.trans h2, h3⟩
    unfold pairingLoop
    rw [hq i (by simp)]
    exact h1

/-- The product of the factors of a list of pairs (43_pairing R232, R235). -/
theorem pairingCompute_eq {pq : Nat → G1 × G2} {n : Nat} {s : State}
    (hq : ∀ i, i < n / 384 → readPair s (384 * i) = .ok (pq i)) :
    ∃ s', pairingCompute n s =
        .ok (s', encodeBool32 (isOne (finalExp (((List.range (n / 384)).map pq).foldl pairFactor fq12One)))) ∧
      s'.accF = ((List.range (n / 384)).map pq).foldl pairFactor fq12One ∧ OnlySequencer s s' := by
  have h0 := onlySequencer_setAccF s fq12One
  obtain ⟨s', h1, h2, h3⟩ := pairingLoop_eq (pq := pq) (is := List.range (n / 384)) (s := s.setAccF fq12One)
    (fun i hi => by rw [h0.readPair]; exact hq i (List.mem_range.mp hi))
  refine ⟨s'.setPhase .finalExp, ?_, h3, (h0.trans h2).trans (onlySequencer_setPhase _ _)⟩
  unfold pairingCompute
  rw [h1]
  show Except.ok (_, encodeBool32 (isOne (finalExp s'.accF))) = _
  rw [h3]
  rfl

/-! ## Validation passed: the operands read, and the computation ends -/

theorem exists_of_forall_lt {α : Type} [Inhabited α] {k : Nat} {p : Nat → α → Prop} (h : ∀ i, i < k → ∃ a, p i a) :
    ∃ f : Nat → α, ∀ i, i < k → p i (f i) := by
  classical
  refine ⟨fun i => if hi : i < k then (h i hi).choose else default, fun i hi => ?_⟩
  simp only [dif_pos hi]
  exact (h i hi).choose_spec

/-- The second decoding cannot fail (42_dispatch R208). -/
theorem compute_total {op : Operation} {n : Nat} {s : State} (hl : lengthOk op n = true)
    (hv : validate op n s = .ok ()) : ∃ s' out, computeOf op n (s.setPhase .compute) = .ok (s', out) := by
  have hp := onlySequencer_setPhase s .compute
  have key := fun {i : Nat} (hi : i < n / frameBytes op) {o : Operand} (ho : o ∈ frameOperands op) =>
    validateOperand_of_validate hv hi ho
  have h0 := pairCount_pos hl
  cases op
  case g1add =>
    obtain ⟨a, ha⟩ := readPoint_of_validate_g1 (key h0 (o := ⟨.g1pt, 0⟩) (by decide))
    obtain ⟨b, hb⟩ := readPoint_of_validate_g1 (key h0 (o := ⟨.g1pt, 128⟩) (by decide))
    obtain ⟨s', h, -⟩ := addCompute_eq groupG1_lawful n (s := s.setPhase .compute)
      (by rw [hp.readPoint]; exact ha) (by rw [hp.readPoint]; exact hb)
    exact ⟨s', _, h⟩
  case g2add =>
    obtain ⟨a, ha⟩ := readPoint_of_validate_g2 (key h0 (o := ⟨.g2pt, 0⟩) (by decide))
    obtain ⟨b, hb⟩ := readPoint_of_validate_g2 (key h0 (o := ⟨.g2pt, 256⟩) (by decide))
    obtain ⟨s', h, -⟩ := addCompute_eq groupG2_lawful n (s := s.setPhase .compute)
      (by rw [hp.readPoint]; exact ha) (by rw [hp.readPoint]; exact hb)
    exact ⟨s', _, h⟩
  case g1mul =>
    obtain ⟨a, ha⟩ := readPoint_of_validate_g1 (key h0 (o := ⟨.g1pt, 0⟩) (by decide))
    obtain ⟨s', h, -⟩ := mulCompute_eq groupG1_lawful n (s := s.setPhase .compute) (by rw [hp.readPoint]; exact ha)
    exact ⟨s', _, h⟩
  case g2mul =>
    obtain ⟨a, ha⟩ := readPoint_of_validate_g2 (key h0 (o := ⟨.g2pt, 0⟩) (by decide))
    obtain ⟨s', h, -⟩ := mulCompute_eq groupG2_lawful n (s := s.setPhase .compute) (by rw [hp.readPoint]; exact ha)
    exact ⟨s', _, h⟩
  case g1multiexp =>
    obtain ⟨q, hq⟩ := exists_of_forall_lt fun i hi =>
      readPoint_of_validate_g1 (key (i := i) hi (o := ⟨.g1pt, 0⟩) (by decide))
    obtain ⟨s', h, -⟩ := multiExpCompute_eq groupG1_lawful (u := 160) (n := n) (q := q) (s := s.setPhase .compute)
      (fun i hi => by rw [hp.readPoint]; exact hq i hi)
    exact ⟨s', _, h⟩
  case g2multiexp =>
    obtain ⟨q, hq⟩ := exists_of_forall_lt fun i hi =>
      readPoint_of_validate_g2 (key (i := i) hi (o := ⟨.g2pt, 0⟩) (by decide))
    obtain ⟨s', h, -⟩ := multiExpCompute_eq groupG2_lawful (u := 288) (n := n) (q := q) (s := s.setPhase .compute)
      (fun i hi => by rw [hp.readPoint]; exact hq i hi)
    exact ⟨s', _, h⟩
  case pairing =>
    obtain ⟨q, hq⟩ := exists_of_forall_lt fun i hi =>
      readPoint_of_validate_g1 (key (i := i) hi (o := ⟨.g1pt, 0⟩) (by decide))
    obtain ⟨q', hq'⟩ := exists_of_forall_lt fun i hi =>
      readPoint_of_validate_g2 (key (i := i) hi (o := ⟨.g2pt, 128⟩) (by decide))
    obtain ⟨s', h, -⟩ := pairingCompute_eq (pq := fun i => (q i, q' i)) (n := n) (s := s.setPhase .compute)
      (fun i hi => by rw [hp.readPair]; exact decodePair_ok.mpr ⟨hq i hi, hq' i hi⟩)
    exact ⟨s', _, h⟩

/-- An error of an evaluation is one of the whole input, at 0, or of an operand that failed validation, inside the input
(60_exceptions R283, R287). -/
theorem evaluate_err {op : Operation} {n : Nat} {s : State} {e : OpError}
    (h : evaluate op (computeOf op) n s = .err e) :
    e = ⟨.invalidInputLength, 0, false⟩ ∨ e = ⟨.capacityExceeded, 0, false⟩ ∨
      (validate op n s = .error e ∧ e.pos < n ∧
        (e.kind = .invalidFieldEncoding ∨ ((e.kind = .pointNotOnCurve ∨ e.kind = .incorrectSubgroup) ∧ e.detail = false))) := by
  rw [evaluate_eq] at h
  split at h
  · cases h; exact .inl rfl
  rename_i hl
  split at h
  · cases h; exact .inr (.inl rfl)
  split at h
  · cases h
  split at h
  · rename_i e' hv
    cases h
    refine .inr (.inr ⟨hv, ?_⟩)
    obtain ⟨pre, o, post, hs, -, ho⟩ := validateAll_error_iff.mp hv
    obtain ⟨h1, h2, h3⟩ := validateOperand_error ho
    have := operand_inside (op := op) (n := n) (o := o) (by rw [hs]; simp)
    exact ⟨by omega, h1⟩
  · rename_i hv
    obtain ⟨s', out, hc⟩ := compute_total (by simpa using hl) hv
    rw [hc] at h
    cases h

end Sys2Proof.Machine
end

