-- ==== Sys2Proof/Laws/Step.lean ====
section
/-! SUPPORT. What a step can do, said once. -/
namespace Sys2Proof.Machine

theorem exec_instrOf (op : Operation) (n : Nat) (s : State) :
    exec (instrOf op n) s = runOperation op (computeOf op) n s := by cases op <;> rfl

theorem opCodeOf_setWidth (c : BitVec 4) : opCodeOf (c.setWidth 32) = c := by
  unfold opCodeOf
  apply BitVec.eq_of_toNat_eq
  have := c.isLt
  simp
  omega

theorem decode_latched (s : State) : decode (latchedEncoding s) = decodeOp s.lOp s.lLen := by
  simp [decode, latchedEncoding, opCodeOf_setWidth]

/-- A code that decodes selects one of the seven operations, with the latched length. -/
theorem decodeOp_ok {c : BitVec 4} {l : Word} {i : Instr} (h : decodeOp c l = .ok i) :
    ∃ op, i = instrOf op l.toNat := by
  unfold decodeOp at h
  split at h <;> cases h
  exacts [⟨.g1add, rfl⟩, ⟨.g1mul, rfl⟩, ⟨.g1multiexp, rfl⟩, ⟨.g2add, rfl⟩, ⟨.g2mul, rfl⟩, ⟨.g2multiexp, rfl⟩,
    ⟨.pairing, rfl⟩]

/-- The sequencer's step: nothing while idle; while BUSY the completion of the latched operation, or of a reserved code. -/
theorem sequencerStep_cases (s : State) :
    (s.busy = false ∧ sequencerStep s = .next s) ∨
    (s.busy = true ∧ sequencerStep s = .next (s.finishErr ⟨.invalidOperation, 0, false⟩)) ∨
    (s.busy = true ∧ ∃ op, decodeOp s.lOp s.lLen = .ok (instrOf op s.lLen.toNat) ∧
      sequencerStep s = runOperation op (computeOf op) s.lLen.toNat s) := by
  unfold sequencerStep
  cases hb : s.busy
  · exact .inl ⟨rfl, rfl⟩
  · rw [decode_latched]
    cases h : decodeOp s.lOp s.lLen with
    | error e => exact .inr (.inl ⟨rfl, rfl⟩)
    | ok i =>
      obtain ⟨op, rfl⟩ := decodeOp_ok h
      exact .inr (.inr ⟨rfl, op, rfl, exec_instrOf op _ s⟩)

/-- What a completion leaves: the fields of `s` but for the result, the end of the operation and the accumulators. -/
inductive Completes (s : State) (n : Nat) (t : State) : Prop where
  | err (e : OpError) (ht : t = s.finishErr e) (hp : e.pos = 0 ∨ (e.pos < n ∧
      (e.kind = .invalidFieldEncoding ∨ e.kind = .pointNotOnCurve ∨ e.kind = .incorrectSubgroup)))
      (hd : e.detail = true → e.kind = .invalidFieldEncoding)
  | ok (s' : State) (out : List Byte) (ht : t = s'.finishOk out) (hs : OnlySequencer s s')
      (hl : out.length = 32 ∨ out.length = 128 ∨ out.length = 256)

theorem runOperation_completes {op : Operation} {n : Nat} {s t : State}
    (h : runOperation op (computeOf op) n s = .next t) : Completes s n t := by
  rcases runOperation_cases op n s with ⟨h1, -⟩ | ⟨e, h1, h2⟩ | ⟨s', out, h1, -, h3, h4⟩
  · rw [h1] at h; cases h
  · rw [h1] at h; cases h
    rcases evaluate_err h2 with rfl | rfl | ⟨-, h3, h4⟩
    · exact .err _ rfl (.inl rfl) (by simp)
    · exact .err _ rfl (.inl rfl) (by simp)
    · exact .err e rfl (.inr ⟨h3, by tauto⟩) (by rcases h4 with h4 | ⟨-, h4⟩ <;> simp [h4])
  · rw [h1] at h; cases h
    exact .ok s' out rfl h3 (by rw [h4]; cases op <;> decide)

/-- Everything an access that is no command can do to the engine. -/
inductive BusEffect (s : State) (t : State) : Prop where
  | none (h : s.SameEngine t)
  | opCode (v : BitVec 4) (hb : s.busy = false) (ht : t = (s.setOpCode v).setReply .writeOkay)
  | inLen (v : Word) (hb : s.busy = false) (ht : t = (s.setInLen v).setReply .writeOkay)
  | inBuf (a : Nat) (bs : List Byte) (hb : s.busy = false) (ha : a + bs.length ≤ Config.inBufBytes)
      (ht : t = (s.storeIn a bs).setReply .writeOkay)

theorem sameEngine_setReply (s : State) (r : Reply) : s.SameEngine (s.setReply r) := ⟨r, _, rfl⟩

theorem busRead_same (off w : Nat) (s : State) : s.SameEngine (busRead off w s) := by
  unfold busRead
  split
  exacts [⟨_, _, rfl⟩, ⟨_, _, rfl⟩]

/-- The address decoding of 20_memory R73, as a cascade of conditions. -/
theorem target_eq (off w : Nat) :
    target off w =
      if off < 0x1000 then
        if 0x100 ≤ off ∧ off < 0x200 then
          if (w = 1 ∨ w = 2 ∨ w = 4) ∧ off % w = 0 then some (.outBuf (off - 0x100)) else none
        else if w = 4 ∧ off % 4 = 0 then some (.reg off) else none
      else if ((w = 1 ∨ w = 2 ∨ w = 4) ∧ off % w = 0) ∧ off - 0x1000 < Config.inBufBytes then
        some (.inBuf (off - 0x1000))
      else none := by
  have hf : Config.fitsInBuf (off - 0x1000 + 1) = decide (off - 0x1000 < Config.inBufBytes) := by
    rw [Bool.eq_iff_iff, fitsInBuf_iff, decide_eq_true_eq, Nat.succ_le_iff]
  simp only [target, bufferAccessOk, natBlt_eq, natBle_eq, natBeq_eq, hf, ← Bool.decide_and, ← Bool.decide_or,
    Bool.cond_decide, or_assoc]

/-- An access to IN_BUF that is taken stays inside it (20_memory R73). -/
theorem target_inBuf_inside {off w a : Nat} (h : target off w = some (.inBuf a)) : a + w ≤ Config.inBufBytes := by
  have h4 := inBufBytes_mod_four
  rw [target_eq] at h
  split at h
  · split at h
    · split at h <;> simp at h
    · split at h <;> simp at h
  · split at h
    · rename_i hh
      obtain ⟨⟨hw, hm⟩, hf⟩ := hh
      simp only [Option.some.injEq, Target.inBuf.injEq] at h
      subst h
      rcases hw with rfl | rfl | rfl <;> omega
    · simp at h

@[simp] theorem lanes_length (w : Nat) (v : Word) : (lanes w v).length = w := by simp [lanes]

theorem lockedWrite_cases (s s' : State) :
    (s.busy = true ∧ lockedWrite s s' = s.setReply .writeError) ∨
      (s.busy = false ∧ lockedWrite s s' = s'.setReply .writeOkay) := by
  unfold lockedWrite; cases s.busy <;> simp

theorem busWrite_effect (off w : Nat) (v : Word) (s : State) : BusEffect s (busWrite off w v s) := by
  unfold busWrite
  split
  · exact .none (sameEngine_setReply _ _)
  · rcases lockedWrite_cases s (s.setOpCode (opCodeOf v)) with ⟨-, h⟩ | ⟨hb, h⟩ <;> rw [h]
    exacts [.none (sameEngine_setReply _ _), .opCode _ hb rfl]
  · rcases lockedWrite_cases s (s.setInLen v) with ⟨-, h⟩ | ⟨hb, h⟩ <;> rw [h]
    exacts [.none (sameEngine_setReply _ _), .inLen _ hb rfl]
  · exact .none (sameEngine_setReply _ _)
  · exact .none (sameEngine_setReply _ _)
  · rename_i a ht
    rcases lockedWrite_cases s (s.storeIn a (lanes w v)) with ⟨-, h⟩ | ⟨hb, h⟩ <;> rw [h]
    · exact .none (sameEngine_setReply _ _)
    · exact .inBuf a (lanes w v) hb (by rw [lanes_length]; exact target_inBuf_inside ht) rfl

/-- A write that carries a command reaches CTRL or STATUS and decodes to one of the four commands. -/
theorem commandOfWrite_cases {off w : Nat} {v : Word} {e : Encoding} (h : commandOfWrite off w v = some e) :
    w = 4 ∧ ((off = 4 ∧ e = .ctrlWrite v) ∨ (off = 16 ∧ e = .statusWrite v)) := by
  unfold commandOfWrite at h
  split at h
  · cases h; rename_i h; exact ⟨h.1, .inl ⟨h.2, rfl⟩⟩
  · split at h
    · cases h; rename_i h; exact ⟨h.1, .inr ⟨h.2, rfl⟩⟩
    · cases h

theorem decodeCtrl_cases (v : Word) :
    (∃ ie, decodeCtrl v = .start ie) ∨ (∃ st ie, decodeCtrl v = .srst st ie) ∨ (∃ ie, decodeCtrl v = .ieWrite ie) := by
  unfold decodeCtrl
  split
  · exact .inr (.inl ⟨_, _, rfl⟩)
  · split
    exacts [.inl ⟨_, rfl⟩, .inr (.inr ⟨_, rfl⟩)]

/-- Everything a write to the port can do. -/
inductive WriteEffect (s : State) (o : Host.Outcome State Fault Refusal) : Prop where
  | bus (t : State) (ho : o = .next t) (ht : BusEffect s t)
  | start (ie : Bool) (ho : o = execStart ie s)
  | srst (st ie : Bool) (ho : o = execSrst st ie s)
  | ieWrite (ie : Bool) (ho : o = execIeWrite ie s)
  | doneClr (ho : o = execDoneClr s)

theorem serveWrite_effect (off w : Nat) (v : Word) (s : State) : WriteEffect s (serveWrite off w v s) := by
  unfold serveWrite
  cases h : commandOfWrite off w v with
  | none => exact .bus _ rfl (busWrite_effect _ _ _ _)
  | some e =>
    rcases commandOfWrite_cases h with ⟨-, ⟨-, rfl⟩ | ⟨-, rfl⟩⟩
    · rcases decodeCtrl_cases v with ⟨ie, hd⟩ | ⟨st, ie, hd⟩ | ⟨ie, hd⟩ <;> simp only [decode, hd]
      exacts [.start ie rfl, .srst st ie rfl, .ieWrite ie rfl]
    · cases hd : decodeStatus v with
      | error e => simp only [decode, hd]; exact .bus _ rfl (busWrite_effect _ _ _ _)
      | ok i =>
        have : i = .doneClr := by unfold decodeStatus at hd; split at hd <;> cases hd; rfl
        subst this
        simp only [decode, hd]
        exact .doneClr rfl

/-- Everything one step can do, on the state `s0` that has the step's event taken off its list. -/
theorem step_cases (s : State) :
    ∃ s0, (∃ es, s0 = s.setInputs es) ∧
      ((step s = sequencerStep s0) ∨ (∃ off w, step s = .next (busRead off w s0)) ∨
        (∃ off w v, step s = serveWrite off w v s0) ∨ step s = .next s0.powerOn) := by
  unfold step
  cases h : s.inputs with
  | nil => exact ⟨s, ⟨s.inputs, rfl⟩, .inl rfl⟩
  | cons e es =>
    refine ⟨s.setInputs es, ⟨es, rfl⟩, ?_⟩
    cases e with
    | sequencer => exact .inl rfl
    | powerOn => exact .inr (.inr (.inr rfl))
    | access a =>
      cases a with
      | read off w => exact .inr (.inl ⟨off, w, rfl⟩)
      | write off w v => exact .inr (.inr (.inl ⟨off, w, v, rfl⟩))

/-- One step of a run of the machine. -/
theorem core_run (k : Nat) (s : State) :
    Sys2Proof.core.run (k + 1) s = match step s with
      | .next s' => Sys2Proof.core.run k s'
      | .fault r => .fault r
      | .refused r => .refused r := by
  have h : Sys2Proof.core.step s = step s := rfl
  cases hs : step s <;> rw [hs] at h <;> simp only [Host.Core.run, h]

/-- An aligned word of register space is taken (20_memory R73). -/
theorem target_reg {off : Nat} (h : off % 4 = 0) (h' : off < 0x100 ∨ (0x200 ≤ off ∧ off < 0x1000)) :
    target off 4 = some (.reg off) := by
  rw [target_eq]; split_ifs <;> first | rfl | (exfalso; omega)

/-- An aligned access inside OUT_BUF is taken (20_memory R73). -/
theorem target_outBuf {a w : Nat} (hw : w = 1 ∨ w = 2 ∨ w = 4) (ha : a % w = 0) (h : a < 256) :
    target (0x100 + a) w = some (.outBuf a) := by
  have hm : (0x100 + a) % w = 0 := by rcases hw with rfl | rfl | rfl <;> omega
  rw [target_eq, if_pos (by omega), if_pos (by omega), if_pos ⟨hw, hm⟩]
  rw [Nat.add_sub_cancel_left]

/-- An aligned access inside IN_BUF is taken (20_memory R73). -/
theorem target_inBuf {a w : Nat} (hw : w = 1 ∨ w = 2 ∨ w = 4) (ha : a % w = 0) (h : a < Config.inBufBytes) :
    target (0x1000 + a) w = some (.inBuf a) := by
  have hm : (0x1000 + a) % w = 0 := by rcases hw with rfl | rfl | rfl <;> omega
  rw [target_eq, if_neg (by omega), if_pos ⟨⟨hw, hm⟩, by omega⟩]
  rw [Nat.add_sub_cancel_left]

end Sys2Proof.Machine
end

