-- ==== Sys2Proof/Tests/Slice0.lean ====
section
/-! SUPPORT. Tests: ill-formed terms, words written out from 30_encoding, one-step tests on vectors of 95_test_vectors,
and for every statement with hypotheses a concrete case that meets them. -/
namespace Sys2Proof.Tests
open Sys2Proof.Machine

/-! ## Helpers -/

/-- The bytes of a string at addresses from `a` on. -/
def cellsFrom : Nat → List Byte → Memory
  | _, [] => []
  | a, b :: bs => (a, b) :: cellsFrom (a + 1) bs

/-- After reset, with `bs` written to IN_BUF from byte 0 on. -/
def loaded (bs : List Byte) : State := { State.reset with inBuf := cellsFrom 0 bs }

/-- `s` with an operation started: the code and the length written and latched, BUSY. -/
def startedOn (s : State) (code : BitVec 4) (n : Nat) : State :=
  { s with
    opCode := code, inLen := BitVec.ofNat 32 n, lOp := code, lLen := BitVec.ofNat 32 n, busy := true, phase := .validate }

/-- An operation started on the input `bs` of `n` bytes. -/
def started (code : BitVec 4) (n : Nat) (bs : List Byte) : State := startedOn (loaded bs) code n

/-- The state one step leaves, if it leaves one. -/
def after (s : State) : Option State :=
  match step s with
  | .next t => some t
  | .fault _ => none
  | .refused _ => none

/-- STATUS and ERR_POS after one step. -/
def statusAfter (s : State) : Option (Word × Word) := (after s).map fun t => (statusWord t, t.errPos)

/-- STATUS and the first `n` bytes of OUT_BUF after one step. -/
def outAfter (n : Nat) (s : State) : Option (Word × List Byte) :=
  (after s).map fun t => (statusWord t, (List.range n).map t.outByte)

/-- What a host access finds and answers: the response and STATUS after it. -/
def accessAfter (s : State) (a : Access) : Option (Reply × Word) :=
  (after (s.setInputs [.access a])).map fun t => (t.reply, statusWord t)

/-- `Aff(0, 1)`, of order 3 (95_test_vectors, section 2). -/
def a3 : G1 := .aff (fqOfNat 0) (fqOfNat 1)
/-- `Aff(0, P-1)`. -/
def a3Neg : G1 := .aff (fqOfNat 0) (fqOfNat (Config.P - 1))
/-- `Aff(P-1, 0)`, of order 2. -/
def t2 : G1 := .aff (fqOfNat (Config.P - 1)) (fqOfNat 0)
/-- `Aff(1, 1)`, not on the curve. -/
def x11 : G1 := .aff (fqOfNat 1) (fqOfNat 1)

/-- The G1 generator of 95_test_vectors. -/
abbrev g1 : G1 := g1Generator

/-- The G2 generator of 95_test_vectors. -/
abbrev g2 : G2 := g2Generator

/-- `2g2` of 95_test_vectors. -/
def g2Twice : G2 := .aff
  ⟨fqOfNat 0x016d31b9f625914e7717654ae659d1c0cfe58c83f1579a83b1f0717e9e6a41a053e6e88f7f56ec0bc2fd5b6d61713d79,
   fqOfNat 0x013314397e45ef715136c17ec005c87a36157abeb1f7a56d3543b7fc8e581da2d4ac27a0ceddfa0b1f3f55a777e94d5c⟩
  ⟨fqOfNat 0x013106bc403f57a46a1a948f33846771dcd578b8632fbd0470e947ce81c1dcd1fcba62e57360c6859b8c6f901a2f4a2a,
   fqOfNat 0x00e3e0ae82a18e0e5aee91c83d30519de4d2dbfa9147c43da20d55f1dcca734e600ceb36b99def794d69de8542315202⟩

/-- `3g2` of 95_test_vectors. -/
def g2Thrice : G2 := .aff
  ⟨fqOfNat 0x010989ed742d307e93acdd3ef1a3680e0bb12886bc4ee3fca003f51b04dc60ea6ff6d482b888da1601f96e4acccdeb2a,
   fqOfNat 0x0069c7a695505c5042f73f3f69027e0f97c21244c0fd397209582ac6f6f58d1a8b1e6118d9550c7f3d81a461fd12b64c⟩
  ⟨fqOfNat 0x0191cd587c9c65903e2cc24a5b031bb76ac23a2968294c604aa74e4574c8b60754fdb3abc99d7dd35707109e4f98c99a,
   fqOfNat 0x004ffd6a638c1b4eeba9769cee5a2ef0e87bbd284704f4ee4870771ad3dbf7510c7799240851ea08209d1ea57c8e2f5a⟩

/-- The G2 point with `x = (2, 0)`, on its curve and outside the subgroup (95_test_vectors). -/
def qns : G2 := .aff (fq2OfNat 2)
  ⟨fqOfNat 0x002f728d6cca7d59f7bc720bbe47e01bf65df9a72cad04932286bb5e6881e355d14d9f53f164345d3d152ae32db8a52b,
   fqOfNat 0x011182649c532870aec2a8e1aa2b6da4e6135217af1db9cd617a45556e71c9f1fe4c2ac76a56c3043fed1386cc3452a5⟩

/-! ## What the helpers give -/

theorem cellsFrom_wf (bs : List Byte) (a : Nat) : Memory.wfFrom .inBuf a (cellsFrom a bs) = true := by
  induction bs generalizing a with
  | nil => rfl
  | cons b bs ih => exact Memory.wfFrom_cons.mpr ⟨le_refl _, by simp [Memory.unlisted], ih (a + 1)⟩

theorem cellsFrom_below (bs : List Byte) (a : Nat) : Memory.below (a + bs.length) (cellsFrom a bs) := by
  induction bs generalizing a with
  | nil => simp [cellsFrom, Memory.below]
  | cons b bs ih =>
    have := ih (a + 1)
    unfold Memory.below at *
    simp only [cellsFrom, List.mem_cons, forall_eq_or_imp, List.length_cons]
    exact ⟨by omega, fun c hc => by have := this c hc; omega⟩

theorem cellsFrom_get (bs : List Byte) (a i : Nat) (h : i < bs.length) :
    Memory.get .inBuf (cellsFrom a bs) (a + i) = some bs[i] := by
  induction bs generalizing a i with
  | nil => simp at h
  | cons b bs ih =>
    rw [cellsFrom, Memory.get_cons]
    cases i with
    | zero => simp
    | succ i =>
      rw [if_neg (by simp), show a + (i + 1) = a + 1 + i by omega, ih (a + 1) i (by simpa using h)]
      simp

theorem loaded_memoryOk {bs : List Byte} (h : bs.length ≤ 512) : (loaded bs).MemoryOk := by
  refine ⟨cellsFrom_wf bs 0, ?_, rfl, by simp [Memory.below, loaded, State.reset]⟩
  intro c hc
  have h1 := cellsFrom_below bs 0 c hc
  have h2 := inBufBytes_ge
  omega

theorem loaded_written {bs : List Byte} {i : Nat} (h : i < bs.length) : (loaded bs).written i = true := by
  have := cellsFrom_get bs 0 i h
  rw [Nat.zero_add] at this
  exact State.written_iff.mpr ⟨_, this⟩

theorem loaded_memRead {bs : List Byte} {a n : Nat} (h : a + n ≤ bs.length) :
    (loaded bs).memRead a n = (bs.drop a).take n := by
  refine List.ext_getElem (by simp; omega) fun j hj _ => ?_
  rw [State.memRead_length] at hj
  have := cellsFrom_get bs 0 (a + j) (by omega)
  rw [Nat.zero_add] at this
  have h' : Memory.get .inBuf (loaded bs).inBuf (a + j) = some bs[a + j] := this
  simp [State.memRead, State.inByte, h']

theorem loaded_readG1 {bs : List Byte} {a : Nat} (h : a + 128 ≤ bs.length) :
    readPoint groupG1 (loaded bs) a = decodeG1 ((bs.drop a).take 128) a :=
  congrArg (fun w => decodeG1 w a) (loaded_memRead h)

theorem loaded_readG2 {bs : List Byte} {a : Nat} (h : a + 256 ≤ bs.length) :
    readPoint groupG2 (loaded bs) a = decodeG2 ((bs.drop a).take 256) a :=
  congrArg (fun w => decodeG2 w a) (loaded_memRead h)

/-! ## The parameters -/

/-- The relations 93_implementation_defined I1 gives between the constants. -/
theorem test_parameters : Config.R = Config.X ^ 4 - Config.X ^ 2 + 1 ∧
    Config.P = (Config.X - 1) ^ 2 * Config.R / 3 + Config.X ∧ Config.NR.val + 5 = Config.P ∧
    fq2Mul Config.B2 ⟨fqOfNat 0, fqOfNat 1⟩ = fq2OfNat 1 := by decide +kernel

/-! ## Ill-formed terms (10_state R37: IN_LEN has 32 bits) -/

theorem test_wellFormed_refuses_long_length :
    (Instr.g1add (2 ^ 32)).wellFormed = false ∧ (Instr.g1mul (2 ^ 32)).wellFormed = false ∧
    (Instr.g1multiexp (2 ^ 32)).wellFormed = false ∧ (Instr.g2add (2 ^ 32)).wellFormed = false ∧
    (Instr.g2mul (2 ^ 32)).wellFormed = false ∧ (Instr.g2multiexp (2 ^ 32)).wellFormed = false ∧
    (Instr.pairing (2 ^ 32)).wellFormed = false := by decide

theorem test_wellFormed_takes_largest_length :
    (Instr.g1add (2 ^ 32 - 1)).wellFormed = true ∧ (Instr.pairing 0).wellFormed = true ∧
    (Instr.srst true true).wellFormed = true := by decide

/-! ## Words written out bit by bit (30_encoding R100 to R103) -/

theorem test_decode_g1add : decode (.op 0b0000_0000_0000_0000_0000_0000_0000_0001 256) = .ok (.g1add 256) := by decide
theorem test_decode_g1mul : decode (.op 0b0000_0000_0000_0000_0000_0000_0000_0010 160) = .ok (.g1mul 160) := by decide
theorem test_decode_g1multiexp :
    decode (.op 0b0000_0000_0000_0000_0000_0000_0000_0011 320) = .ok (.g1multiexp 320) := by decide
theorem test_decode_g2add : decode (.op 0b0000_0000_0000_0000_0000_0000_0000_0100 512) = .ok (.g2add 512) := by decide
theorem test_decode_g2mul : decode (.op 0b0000_0000_0000_0000_0000_0000_0000_0101 288) = .ok (.g2mul 288) := by decide
theorem test_decode_g2multiexp :
    decode (.op 0b0000_0000_0000_0000_0000_0000_0000_0110 576) = .ok (.g2multiexp 576) := by decide
theorem test_decode_pairing : decode (.op 0b1111_1111_1111_1111_1111_1111_1111_0111 768) = .ok (.pairing 768) := by decide
theorem test_decode_start : decode (.ctrlWrite 0b101) = .ok (.start true) := by decide
theorem test_decode_srst_wins : decode (.ctrlWrite 0b011) = .ok (.srst true false) := by decide
theorem test_decode_ie_write : decode (.ctrlWrite 0b100) = .ok (.ieWrite true) := by decide
theorem test_decode_done_clr : decode (.statusWrite 0b010) = .ok .doneClr := by decide
theorem test_decode_reserved : decode (.op 0x8 0) = .error (.reservedOpCode 8) ∧
    decode (.op 0x10 0) = .error (.reservedOpCode 0) ∧ decode (.statusWrite 0xFFFFFFFD) = .error .noCommand := by decide

/-- Table words (log 3). -/
theorem test_table_words : decodeTableWord 8 0x1 = some (.g1add 0) ∧ decodeTableWord 8 0x7 = some (.pairing 0) ∧
    decodeTableWord 8 0x0 = some (.ieWrite false) ∧ decodeTableWord 8 0x8 = none := by decide

/-! ## One step per instruction (95_test_vectors) -/

/-- V-G1-1: `A3 + A3 = -A3`. -/
theorem test_g1add : outAfter 128 (started 1 256 (encodeG1 a3 ++ encodeG1 a3)) = some (0x2, encodeG1 a3Neg) := by
  decide +kernel

/-- V-V-12: the curve check of the first operand comes before the range check of the second. -/
theorem test_g1add_operand_major :
    statusAfter (started 1 256 (encodeG1 x11 ++ (zeros 16 ++ beBytes 48 Config.P) ++ encodeFq (fqOfNat 1))) =
      some (0x36, 0) := by decide +kernel

/-- PR2: `[2]A3 = -A3`. -/
theorem test_g1mul : outAfter 128 (started 2 160 (encodeG1 a3 ++ beBytes 32 2)) = some (0x2, encodeG1 a3Neg) := by
  decide +kernel

/-- V-G1-13: the scalar is not reduced modulo R. -/
theorem test_g1mul_not_reduced : pointMul fqOps Config.R a3 = a3 ∧ pointMul fqOps (2 ^ 256 - 1) a3 = .inf := by
  decide +kernel

/-- V-V-4. -/
theorem test_g1multiexp_lengths : statusAfter (started 3 0 []) = some (0x16, 0) ∧
    statusAfter (started 3 159 []) = some (0x16, 0) ∧ statusAfter (started 3 161 []) = some (0x16, 0) := by decide

/-- V-G1-18, its second input. -/
theorem test_g1multiexp_sum : multiExpSum fqOps [(a3, 1), (a3Neg, 1)] = .inf := by decide +kernel

/-- V-G2-1, V-G2-10. -/
theorem test_g2add : pointAdd fq2Ops g2 g2 = g2Twice ∧ pointAdd fq2Ops g2Twice g2 = g2Thrice := by decide +kernel

/-- V-V-6. -/
theorem test_g2_lengths : statusAfter (started 4 511 []) = some (0x16, 0) ∧
    statusAfter (started 5 289 []) = some (0x16, 0) ∧ statusAfter (started 6 575 []) = some (0x16, 0) := by decide

/-- V-G2-5. -/
theorem test_g2mul : pointMul fq2Ops 0 g2 = .inf ∧ pointMul fq2Ops 1 g2 = g2 ∧ pointMul fq2Ops 3 g2 = g2Thrice := by
  decide +kernel

/-- V-G2-6. -/
theorem test_g2multiexp : multiExpSum fq2Ops [(g2, 1), (g2, 1)] = g2Twice := by decide +kernel

/-- V-P-14, and V-V-5. -/
theorem test_pairing_lengths : statusAfter (started 7 0 []) = some (0x16, 0) ∧
    statusAfter (started 7 383 []) = some (0x16, 0) ∧ statusAfter (started 7 767 []) = some (0x16, 0) := by decide

/-- V-P-12: beside an infinity the other point is still checked for the subgroup. -/
theorem test_pairing_checks_both :
    checkPoint groupG1 true 0 .inf = .ok () ∧ checkPoint groupG1 true 0 a3 = .error ⟨.incorrectSubgroup, 0, false⟩ ∧
    checkPoint groupG1 false 0 a3 = .ok () := by decide +kernel

/-- V-V-14, V-H-10: a reserved code. -/
theorem test_reserved_code : statusAfter (started 0 0 []) = some (0x56, 0) := by decide

/-- V-H-14 and V-H-15: input never written. -/
theorem test_unwritten_input : after (startedOn State.reset 1 256) = none ∧
    statusAfter (startedOn State.reset 1 0) = some (0x16, 0) := by decide

/-- V-H-12: START clears the results of the operation before. -/
theorem test_start_clears :
    accessAfter { State.reset with done := true, err := true, errKind := 3 } (.write 4 4 1) = some (.writeOkay, 0x1) := by
  decide

/-- V-H-6: START while BUSY writes IE alone. -/
theorem test_start_while_busy : accessAfter (started 1 256 []) (.write 4 4 1) = some (.writeOkay, 0x1) := by decide

/-- V-H-8 and V-H-9. -/
theorem test_srst : accessAfter (started 1 256 []) (.write 4 4 2) = some (.writeOkay, 0) ∧
    accessAfter { State.reset with opCode := 1 } (.write 4 4 3) = some (.writeOkay, 0) := by decide

/-- V-H-3. -/
theorem test_ie_write : (after (State.reset.setInputs [.access (.write 4 4 4)])).map ctrlWord = some 4 := by decide

/-- PR2, line 8: DONE clear keeps the error. -/
theorem test_done_clr :
    accessAfter { State.reset with done := true, err := true, errKind := 2, errPos := 0x40 } (.write 0x10 4 2) =
      some (.writeOkay, 0x24) := by decide

/-! ## The port -/

/-- V-H-4. -/
theorem test_port_refuses : accessAfter State.reset (.write 0x10 1 2) = some (.writeError, 0) ∧
    accessAfter State.reset (.write 2 4 0) = some (.writeError, 0) ∧
    accessAfter State.reset (.write 0x1002 4 0) = some (.writeError, 0) ∧
    accessAfter State.reset (.write 0x1002 2 0) = some (.writeOkay, 0) := by decide

/-- V-H-5: the lanes are little-endian. -/
theorem test_lanes : accessAfter (loaded (lanes 4 0x04030201)) (.read 0x1003 1) = some (.readOkay 4, 0) ∧
    accessAfter (loaded (lanes 4 0x04030201)) (.read 0x1000 1) = some (.readOkay 1, 0) ∧
    lanes 4 0x04030201 = [1, 2, 3, 4] := by decide

/-- V-H-6: the lock. -/
theorem test_lock : accessAfter (started 1 256 []) (.write 0x1000 4 0) = some (.writeError, 1) ∧
    accessAfter (started 1 256 []) (.write 8 4 2) = some (.writeError, 1) ∧
    accessAfter (started 1 256 []) (.write 0xC 4 0) = some (.writeError, 1) ∧
    accessAfter (started 1 256 []) (.read 0x10 4) = some (.readOkay 1, 1) := by decide

/-- V-H-2. -/
theorem test_op_drops_bits : (after (State.reset.setInputs [.access (.write 8 4 0x17)])).map opWord = some 7 := by decide

/-! ## The codec -/

/-- V-C-3, V-C-4, V-C-7 and V-C-8. -/
theorem test_decode_fq : decodeFq (zeros 16 ++ beBytes 48 (Config.P - 1)) 0 = .ok (fqOfNat (Config.P - 1)) ∧
    decodeFq (zeros 16 ++ beBytes 48 Config.P) 64 = .error ⟨.invalidFieldEncoding, 64, true⟩ ∧
    decodeFq (zeros 15 ++ [0x80] ++ zeros 47 ++ [1]) 128 = .error ⟨.invalidFieldEncoding, 128, false⟩ ∧
    decodeFq ([1] ++ zeros 15 ++ List.replicate 48 0xFF) 0 = .error ⟨.invalidFieldEncoding, 0, false⟩ := by decide +kernel

/-- V-C-10, V-C-11, V-C-12 and V-C-14. -/
theorem test_decode_g1 : decodeG1 (zeros 128) 0 = .ok .inf ∧ decodeG1 (zeros 127 ++ [1]) 0 = .ok a3 ∧
    decodeG1 (zeros 64 ++ [1] ++ zeros 63) 0 = .error ⟨.invalidFieldEncoding, 64, false⟩ ∧
    decodeG1 ([1] ++ zeros 63 ++ [1] ++ zeros 63) 0 = .error ⟨.invalidFieldEncoding, 0, false⟩ := by decide +kernel

/-- V-C-17: c0 comes first. -/
theorem test_encode_g2 : (encodeG2 qns).take 128 = zeros 63 ++ [2] ++ zeros 64 := by decide +kernel

/-! ## Witnesses: what meets the hypotheses of each statement that has any -/

/-- The first `n` bytes of zeros with the point `q` in front. -/
def g1Then (q : G1) (n : Nat) : List Byte := encodeG1 q ++ zeros n

theorem loaded_ready {op : Operation} {bs : List Byte} (hl : lengthOk op bs.length = true) (h : bs.length ≤ 512) :
    InputReady op bs.length (loaded bs) :=
  ⟨hl, h.trans inBufBytes_ge, fun _ hi => loaded_written hi⟩

theorem loaded_cleared (bs : List Byte) : (loaded bs).Cleared := ⟨rfl, rfl, rfl, rfl, rfl, rfl⟩

/-- On an input all written an operation answers a next state. -/
theorem loaded_next (op : Operation) (bs : List Byte) : ∃ t, exec (instrOf op bs.length) (loaded bs) = .next t := by
  rw [exec_instrOf]
  rcases runOperation_cases op bs.length (loaded bs) with ⟨-, h⟩ | ⟨e, h, -⟩ | ⟨s', out, h, -⟩
  · rw [evaluate_eq] at h
    simp only [State.allWritten_iff.mpr (fun _ hi => loaded_written hi), Bool.true_eq_false, if_false] at h
    repeat' split at h
    all_goals cases h
  · exact ⟨_, h⟩
  · exact ⟨_, h⟩

/-- An operation whose operands fail ends with that error. -/
theorem loaded_fails {op : Operation} {bs : List Byte} {e : OpError} (hr : InputReady op bs.length (loaded bs))
    (h : validate op bs.length (loaded bs) = .error e) :
    exec (instrOf op bs.length) (loaded bs) = .next ((loaded bs).finishErr e) := by
  rw [exec_instrOf, runOperation, evaluate_of_ready hr.1 hr.2.1 hr.2.2, h]
  rfl

theorem validPoint_loaded_g1 {bs : List Byte} {a : Nat} {q : G1} (h : a + 128 ≤ bs.length)
    (hd : decodeG1 ((bs.drop a).take 128) a = .ok q) (hc : onCurve fqOps Config.B1 q = true) :
    ValidPoint groupG1 (loaded bs) a q := ⟨(loaded_readG1 h).trans hd, hc⟩

theorem validPoint_loaded_g2 {bs : List Byte} {a : Nat} {q : G2} (h : a + 256 ≤ bs.length)
    (hd : decodeG2 ((bs.drop a).take 256) a = .ok q) (hc : onCurve fq2Ops Config.B2 q = true) :
    ValidPoint groupG2 (loaded bs) a q := ⟨(loaded_readG2 h).trans hd, hc⟩

/-- The generators satisfy their curve equations and are in the subgroups (95_test_vectors). -/
theorem test_g1_in_subgroup : onCurve fqOps Config.B1 g1 = true ∧ inSubgroup fqOps g1 = true := inG1_generator
theorem test_g2_in_subgroup : onCurve fq2Ops Config.B2 g2 = true ∧ inSubgroup fq2Ops g2 = true := inG2_generator

/-! ### Encoding and the step -/

theorem test_witness_DecodeEncodeRoundTrip : (Instr.g1add 256).wellFormed = true ∧ (Instr.g1mul 160).wellFormed = true ∧
    (Instr.g1multiexp 0).wellFormed = true ∧ (Instr.g2add 512).wellFormed = true ∧ (Instr.g2mul 288).wellFormed = true ∧
    (Instr.g2multiexp 576).wellFormed = true ∧ (Instr.pairing (2 ^ 32 - 1)).wellFormed = true ∧
    (Instr.start true).wellFormed = true ∧ (Instr.srst true false).wellFormed = true ∧
    (Instr.ieWrite false).wellFormed = true ∧ Instr.doneClr.wellFormed = true := by decide

theorem test_witness_CommandBitsDecideCommand :
    accessOfEncoding (.ctrlWrite 1) = some (.write 4 4 1) ∧ accessOfEncoding (.statusWrite 2) = some (.write 0x10 4 2) ∧
    decode (.statusWrite 0xFFFFFFFF) = .ok .doneClr := by decide

theorem test_witness_StepRunsDecodedInstruction :
    (∃ (s : State) (es : List Event) (i : Instr), s.inputs = .sequencer :: es ∧ s.busy = true ∧ decode (.op (s.lOp.setWidth 32) s.lLen) = .ok i) ∧
    (∃ (s : State) (i : Instr), s.inputs = [] ∧ s.busy = true ∧ decode (.op (s.lOp.setWidth 32) s.lLen) = .ok i) ∧
    (∃ (s : State) (es : List Event) (off w : Nat) (v : Word) (e : Encoding) (i : Instr),
      s.inputs = .access (.write off w v) :: es ∧ commandOfWrite off w v = some e ∧ decode e = .ok i) :=
  ⟨⟨(started 7 384 []).setInputs [.sequencer], [], .pairing 384, rfl, rfl, by decide⟩,
   ⟨started 1 256 [], .g1add 256, rfl, rfl, by decide⟩,
   ⟨State.reset.setInputs [.access (.write 0x10 4 2)], [], 0x10, 4, 2, .statusWrite 2, .doneClr, rfl, by decide, by decide⟩⟩

theorem test_witness_StepServesOtherEvents :
    (∃ (s : State) (es : List Event), s.inputs = .sequencer :: es ∧ s.busy = false) ∧ (State.reset.inputs = [] ∧ State.reset.busy = false) ∧
    (∃ (s : State) (es : List Event), s.inputs = .access (.read 0x10 4) :: es) ∧
    (∃ (s : State) (es : List Event), s.inputs = .access (.write 8 4 1) :: es ∧ commandOfWrite 8 4 1 = none) ∧
    (∃ (s : State) (es : List Event) (v : Word), s.inputs = .access (.write 0x10 4 v) :: es ∧ v.getLsbD 1 = false) ∧
    (∃ (s : State) (es : List Event), s.inputs = .powerOn :: es) :=
  ⟨⟨State.reset.setInputs [.sequencer], [], rfl, rfl⟩, ⟨rfl, rfl⟩,
   ⟨State.reset.setInputs [.access (.read 0x10 4)], [], rfl⟩,
   ⟨State.reset.setInputs [.access (.write 8 4 1)], [], rfl, by decide⟩,
   ⟨State.reset.setInputs [.access (.write 0x10 4 0xFFFFFFFD)], [], 0xFFFFFFFD, rfl, by decide⟩,
   ⟨State.reset.setInputs [.powerOn], [], rfl⟩⟩

theorem test_witness_ReservedCodeCompletesInvalidOperation : ∀ c ∈ [(0 : BitVec 4), 8, 15], ∃ (s : State) (es : List Event),
    s.inputs = .sequencer :: es ∧ s.busy = true ∧ s.lOp = c ∧ (s.lOp.toNat = 0 ∨ 8 ≤ s.lOp.toNat) := by
  intro c hc
  refine ⟨(started c 256 []).setInputs [.sequencer], [], rfl, rfl, rfl, ?_⟩
  have hlOp : ((started c 256 []).setInputs [.sequencer]).lOp = c := rfl
  rw [hlOp]
  simp at hc
  rcases hc with rfl | rfl | rfl <;> decide

/-! ### Codec and frames -/

theorem test_witness_DecodeOfEncodeIsIdentity :
    onCurve fqOps Config.B1 a3 = true ∧ onCurve fqOps Config.B1 .inf = true ∧ onCurve fqOps Config.B1 t2 = true ∧
    onCurve fq2Ops Config.B2 qns = true ∧ onCurve fq2Ops Config.B2 .inf = true := by decide +kernel

theorem test_witness_EncodingsAreCanonical :
    (zeros 64).length = 64 ∧ decodeFq (zeros 64) 0 = .ok (fqOfNat 0) ∧ decodeFq (encodeFq (fqOfNat (Config.P - 1))) 0 =
      .ok (fqOfNat (Config.P - 1)) ∧
    decodeG1 (zeros 128) 0 = .ok .inf ∧ (encodeG1 t2).length = 128 ∧ decodeG1 (encodeG1 t2) 0 = .ok t2 ∧
    decodeG2 (zeros 256) 128 = .ok .inf ∧ (encodeG2 g2).length = 256 ∧ decodeG2 (encodeG2 g2) 128 = .ok g2 ∧
    (zeros 32).length = 32 ∧ 2 ^ 256 - 1 < 2 ^ 256 := by decide +kernel

/-- One case per outcome of each clause: padding, range, accepted; the first and the last word bad. -/
theorem test_witness_FirstBadWordIsReported :
    ([1] ++ zeros 63 : List Byte).length = 64 ∧ ([1] ++ zeros 63 : List Byte).take 16 ≠ zeros 16 ∧
    (zeros 16 ++ beBytes 48 Config.P).length = 64 ∧ ¬ be ((zeros 16 ++ beBytes 48 Config.P).drop 16) < Config.P ∧
    be ((zeros 64).drop 16) < Config.P ∧
    decodeG1 ([1] ++ zeros 127) 0 = .error ⟨.invalidFieldEncoding, 0, false⟩ ∧
    decodeG1 (zeros 64 ++ zeros 16 ++ beBytes 48 Config.P) 0 = .error ⟨.invalidFieldEncoding, 64, true⟩ ∧
    decodeG2 ([1] ++ zeros 255) 128 = .error ⟨.invalidFieldEncoding, 128, false⟩ ∧
    decodeG2 (zeros 192 ++ zeros 16 ++ beBytes 48 Config.P) 128 = .error ⟨.invalidFieldEncoding, 320, true⟩ := by
  decide +kernel

theorem test_witness_OperandListsTileInput : lengthOk .g1add 256 = true ∧ lengthOk .g1mul 160 = true ∧
    lengthOk .g1multiexp 160 = true ∧ lengthOk .g1multiexp 320 = true ∧ lengthOk .g2add 512 = true ∧
    lengthOk .g2mul 288 = true ∧ lengthOk .g2multiexp 288 = true ∧ lengthOk .pairing 384 = true ∧
    lengthOk .pairing 0 = false := by decide

/-! ### The group -/

theorem test_witness_GroupLawIsAbelian :
    onCurve fqOps Config.B1 a3 = true ∧ onCurve fqOps Config.B1 t2 = true ∧ onCurve fqOps Config.B1 a3Neg = true ∧
    onCurve fq2Ops Config.B2 g2 = true ∧ onCurve fq2Ops Config.B2 g2Twice = true ∧ onCurve fq2Ops Config.B2 qns = true := by
  decide +kernel

/-- A point outside each subgroup, a multiple of its order, and one inside each subgroup. -/
theorem test_witness_ScalarMulIsRepeatedSum :
    (onCurve fqOps Config.B1 a3 = true ∧ pointMul fqOps 3 a3 = .inf) ∧ onCurve fq2Ops Config.B2 qns = true ∧
    (onCurve fqOps Config.B1 g1 = true ∧ inSubgroup fqOps g1 = true) ∧
    (onCurve fq2Ops Config.B2 g2 = true ∧ inSubgroup fq2Ops g2 = true) ∧ pointMul fq2Ops Config.R g2 = .inf :=
  ⟨by decide +kernel, by decide +kernel, test_g1_in_subgroup, test_g2_in_subgroup,
    of_decide_eq_true test_g2_in_subgroup.2⟩

theorem test_witness_MultiExpOrderIsFree :
    [(a3, 1), (t2, 2)].Perm [(t2, 2), (a3, 1)] ∧ (∀ t ∈ [(a3, 1), (t2, 2)], onCurve fqOps Config.B1 t.1 = true) ∧
    [(g2, 1), (qns, 2)].Perm [(qns, 2), (g2, 1)] ∧ ∀ t ∈ [(g2, 1), (qns, 2)], onCurve fq2Ops Config.B2 t.1 = true := by
  refine ⟨List.Perm.swap _ _ _, ?_, List.Perm.swap _ _ _, ?_⟩ <;> decide +kernel

/-! ### The seven operations -/

theorem test_witness_G1AddCompletes : ∃ (s : State) (a b : G1), s.MemoryOk ∧ (∀ i, i < 256 → s.written i = true) ∧
    ValidPoint groupG1 s 0 a ∧ ValidPoint groupG1 s 128 b := by
  have hl : (encodeG1 a3 ++ encodeG1 t2).length = 256 := by simp
  exact ⟨loaded (encodeG1 a3 ++ encodeG1 t2), a3, t2, loaded_memoryOk (by omega), fun i hi => loaded_written (by omega),
    validPoint_loaded_g1 (by omega) (by decide +kernel) (by decide +kernel),
    validPoint_loaded_g1 (by omega) (by decide +kernel) (by decide +kernel)⟩

theorem test_witness_G1MulCompletes : ∃ (s : State) (q : G1), s.MemoryOk ∧ (∀ i, i < 160 → s.written i = true) ∧
    ValidPoint groupG1 s 0 q := by
  have hl : (encodeG1 a3 ++ beBytes 32 5).length = 160 := by simp
  exact ⟨loaded (encodeG1 a3 ++ beBytes 32 5), a3, loaded_memoryOk (by omega), fun i hi => loaded_written (by omega),
    validPoint_loaded_g1 (by omega) (by decide +kernel) (by decide +kernel)⟩

theorem test_witness_G1MultiExpCompletes : ∃ (s : State) (k : Nat) (q : Nat → G1), s.MemoryOk ∧ 1 ≤ k ∧
    160 * k ≤ Config.inBufBytes ∧ (∀ i, i < 160 * k → s.written i = true) ∧
    (∀ i, i < k → ValidPoint groupG1 s (160 * i) (q i)) := by
  have hl : (encodeG1 a3 ++ beBytes 32 1 ++ (encodeG1 t2 ++ beBytes 32 7)).length = 320 := by simp
  refine ⟨loaded (encodeG1 a3 ++ beBytes 32 1 ++ (encodeG1 t2 ++ beBytes 32 7)), 2, fun i => if i = 0 then a3 else t2,
    loaded_memoryOk (by omega), by decide, le_trans (by decide) inBufBytes_ge, fun i hi => loaded_written (by omega), ?_⟩
  intro i hi
  obtain rfl | rfl : i = 0 ∨ i = 1 := by omega
  · exact validPoint_loaded_g1 (by omega) (by decide +kernel) (by decide +kernel)
  · exact validPoint_loaded_g1 (by omega) (by decide +kernel) (by decide +kernel)

theorem test_witness_G2AddCompletes : ∃ (s : State) (a b : G2), s.MemoryOk ∧ (∀ i, i < 512 → s.written i = true) ∧
    ValidPoint groupG2 s 0 a ∧ ValidPoint groupG2 s 256 b := by
  have hl : (encodeG2 g2 ++ encodeG2 g2Twice).length = 512 := by simp
  exact ⟨loaded (encodeG2 g2 ++ encodeG2 g2Twice), g2, g2Twice, loaded_memoryOk (by omega),
    fun i hi => loaded_written (by omega),
    validPoint_loaded_g2 (by omega) (by decide +kernel) (by decide +kernel),
    validPoint_loaded_g2 (by omega) (by decide +kernel) (by decide +kernel)⟩

theorem test_witness_G2MulCompletes : ∃ (s : State) (q : G2), s.MemoryOk ∧ (∀ i, i < 288 → s.written i = true) ∧
    ValidPoint groupG2 s 0 q := by
  have hl : (encodeG2 qns ++ beBytes 32 5).length = 288 := by simp
  exact ⟨loaded (encodeG2 qns ++ beBytes 32 5), qns, loaded_memoryOk (by omega), fun i hi => loaded_written (by omega),
    validPoint_loaded_g2 (by omega) (by decide +kernel) (by decide +kernel)⟩

theorem test_witness_G2MultiExpCompletes : ∃ (s : State) (k : Nat) (q : Nat → G2), s.MemoryOk ∧ 1 ≤ k ∧
    288 * k ≤ Config.inBufBytes ∧ (∀ i, i < 288 * k → s.written i = true) ∧
    (∀ i, i < k → ValidPoint groupG2 s (288 * i) (q i)) := by
  have hl : (encodeG2 g2 ++ beBytes 32 5).length = 288 := by simp
  refine ⟨loaded (encodeG2 g2 ++ beBytes 32 5), 1, fun _ => g2, loaded_memoryOk (by omega), le_refl _,
    le_trans (by decide) inBufBytes_ge, fun i hi => loaded_written (by omega), ?_⟩
  intro i hi
  obtain rfl : i = 0 := by omega
  exact validPoint_loaded_g2 (by omega) (by decide +kernel) (by decide +kernel)

theorem test_witness_PairingCompletes : ∃ (s : State) (k : Nat) (p : Nat → G1) (q : Nat → G2), s.MemoryOk ∧ 1 ≤ k ∧
    384 * k ≤ Config.inBufBytes ∧ (∀ i, i < 384 * k → s.written i = true) ∧
    (∀ i, i < k → ValidSubgroupPoint groupG1 s (384 * i) (p i)) ∧
    (∀ i, i < k → ValidSubgroupPoint groupG2 s (384 * i + 128) (q i)) := by
  have hl : (encodeG1 g1 ++ encodeG2 g2).length = 384 := by simp
  refine ⟨loaded (encodeG1 g1 ++ encodeG2 g2), 1, fun _ => g1, fun _ => g2, loaded_memoryOk (by omega), le_refl _,
    le_trans (by decide) inBufBytes_ge, fun i hi => loaded_written (by omega), ?_, ?_⟩
  · intro i hi
    obtain rfl : i = 0 := by omega
    exact ⟨validPoint_loaded_g1 (by omega) (by decide +kernel) test_g1_in_subgroup.1, fun _ => test_g1_in_subgroup.2⟩
  · intro i hi
    obtain rfl : i = 0 := by omega
    exact ⟨validPoint_loaded_g2 (by omega) (by decide +kernel) test_g2_in_subgroup.1, fun _ => test_g2_in_subgroup.2⟩

theorem test_witness_TrivialPairingIsOne : ∃ (s : State) (k : Nat) (p : Nat → G1) (q : Nat → G2), s.MemoryOk ∧ 1 ≤ k ∧
    384 * k ≤ Config.inBufBytes ∧ (∀ i, i < 384 * k → s.written i = true) ∧
    (∀ i, i < k → ValidSubgroupPoint groupG1 s (384 * i) (p i)) ∧
    (∀ i, i < k → ValidSubgroupPoint groupG2 s (384 * i + 128) (q i)) ∧ (∀ i, i < k → p i = .inf ∨ q i = .inf) := by
  have hl : (g1Then g1 256).length = 384 := by simp [g1Then]
  refine ⟨loaded (g1Then g1 256), 1, fun _ => g1, fun _ => .inf, loaded_memoryOk (by omega), le_refl _,
    le_trans (by decide) inBufBytes_ge, fun i hi => loaded_written (by omega), ?_, ?_, fun _ _ => .inr rfl⟩
  · intro i hi
    obtain rfl : i = 0 := by omega
    exact ⟨validPoint_loaded_g1 (by omega) (by decide +kernel) test_g1_in_subgroup.1, fun _ => test_g1_in_subgroup.2⟩
  · intro i hi
    obtain rfl : i = 0 := by omega
    exact ⟨validPoint_loaded_g2 (by omega) (by decide +kernel) (by decide), fun h => absurd rfl h⟩

theorem test_witness_PairingParametersMeetR230 : InG1 g1 ∧ InG2 g2 ∧ g1 ≠ .inf ∧ g2 ≠ .inf ∧ pointMul fqOps 2 g1 ≠ .inf ∧
    pointMul fq2Ops 2 g2 ≠ .inf ∧ fq12One ≠ fq12Zero :=
  ⟨inG1_generator, inG2_generator, nofun, nofun, by decide +kernel, by decide +kernel, by decide +kernel⟩

/-- One case for each law. -/
theorem test_witness_PairingVerdictLaws : [(g1, g2), (.inf, g2)].Perm [(.inf, g2), (g1, g2)] ∧
    (∀ pq ∈ [(g1, g2)] ++ [(g1, g2)], InG1 pq.1 ∧ InG2 pq.2) ∧ InG1 g1 ∧ InG2 g2 ∧ g1 ≠ .inf ∧ g2 ≠ .inf ∧ 0 ≤ Config.R ∧
    ([(2, 3), (1, Config.R - 6)].map fun e => e.1 * e.2).sum % Config.R = 0 :=
  ⟨List.Perm.swap _ _ _, by simp [inG1_generator, inG2_generator], inG1_generator, inG2_generator, nofun, nofun,
    Nat.zero_le _, by decide⟩

/-- A pair whose verdict is 0, and one with an infinity side. -/
theorem test_witness_PairingVerdictIsExact : InG1 g1 ∧ InG2 g2 ∧ g1 ≠ .inf ∧ g2 ≠ .inf ∧ ∀ a ∈ [0, 1],
    ∃ s : State, s.MemoryOk ∧ 384 * 1 ≤ Config.inBufBytes ∧ (∀ i, i < 384 * 1 → s.written i = true) ∧
    (∀ i, i < 1 → ValidSubgroupPoint groupG1 s (384 * i) (pointMul fqOps a g1)) ∧
    ∀ i, i < 1 → ValidSubgroupPoint groupG2 s (384 * i + 128) (pointMul fq2Ops 1 g2) := by
  refine ⟨inG1_generator, inG2_generator, nofun, nofun, fun a ha => ?_⟩
  have h1 : InG1 (pointMul fqOps a g1) := inG1_generator.mul a
  have h2 : InG2 (pointMul fq2Ops 1 g2) := inG2_generator.mul 1
  have hl : (encodeG1 (pointMul fqOps a g1) ++ encodeG2 g2).length = 384 := by simp
  refine ⟨loaded (encodeG1 (pointMul fqOps a g1) ++ encodeG2 g2), loaded_memoryOk (by omega),
    le_trans (by decide) inBufBytes_ge, fun i hi => loaded_written (by omega), fun i hi => ?_, fun i hi => ?_⟩
  · obtain rfl : i = 0 := by omega
    refine ⟨validPoint_loaded_g1 (by omega) ?_ h1.1, fun _ => h1.2⟩
    rcases List.mem_pair.mp ha with rfl | rfl <;> decide +kernel
  · obtain rfl : i = 0 := by omega
    refine ⟨validPoint_loaded_g2 (by omega) ?_ h2.1, fun _ => h2.2⟩
    rcases List.mem_pair.mp ha with rfl | rfl <;> decide +kernel

theorem test_witness_PairingProductIgnoresOrderAndInfinity : [(g1, g2), (.inf, g2)].Perm [(.inf, g2), (g1, g2)] :=
  List.Perm.swap _ _ _

/-! ### Errors -/

theorem test_witness_WrongLengthIsReported : lengthOk .g1add 255 = false ∧ lengthOk .g1mul 320 = false ∧
    lengthOk .g1multiexp 0 = false ∧ lengthOk .g2add 256 = false ∧ lengthOk .g2mul 0 = false ∧
    lengthOk .g2multiexp 287 = false ∧ lengthOk .pairing 385 = false := by decide

/-- The largest frame count of 32 bits is above every capacity (00_scope R8). -/
theorem test_witness_OverCapacityIsReported : lengthOk .g1multiexp 4294967200 = true ∧ 4294967200 < 2 ^ 32 ∧
    Config.inBufBytes < 4294967200 :=
  ⟨by decide, by decide, lt_of_le_of_lt inBufBytes_le (by decide)⟩

theorem test_witness_OnlyUnwrittenInputStops :
    (lengthOk .g1add 256 = true ∧ 256 ≤ Config.inBufBytes ∧ ∃ i, i < 256 ∧ State.reset.written i = false) ∧
    exec (instrOf .g1add 255) State.reset ≠ .fault .unwrittenInput :=
  ⟨⟨by decide, le_trans (by decide) inBufBytes_ge, 255, by decide, rfl⟩, by
    have h : exec (instrOf .g1add 255) State.reset = .next (State.reset.finishErr ⟨.invalidInputLength, 0, false⟩) := rfl
    rw [h]; exact nofun⟩

/-- The second operand fails, the first passes. -/
theorem test_witness_FirstFailingOperandDecides : ∃ (op : Operation) (n : Nat) (s : State) (pre : List Operand) (o : Operand)
    (post : List Operand) (e : OpError), InputReady op n s ∧ operands op n = pre ++ o :: post ∧ pre ≠ [] ∧
    (∀ p ∈ pre, validateOperand (needsSubgroup op) s p = .ok ()) ∧
    validateOperand (needsSubgroup op) s o = .error e := by
  have hl : (encodeG1 a3 ++ encodeG1 x11).length = 256 := by simp
  refine ⟨.g1add, 256, loaded (encodeG1 a3 ++ encodeG1 x11), [⟨.g1pt, 0⟩], ⟨.g1pt, 128⟩, [], ⟨.pointNotOnCurve, 128, false⟩,
    ?_, by decide, by simp, ?_, ?_⟩
  · rw [← hl]; exact loaded_ready (by rw [hl]; decide) (by omega)
  · intro p hp
    simp only [List.mem_singleton] at hp
    subst hp
    have : readPoint groupG1 (loaded (encodeG1 a3 ++ encodeG1 x11)) 0 = .ok a3 :=
      (loaded_readG1 (by omega)).trans (by decide +kernel)
    simp only [validateOperand, validatePoint, this]
    decide +kernel
  · have : readPoint groupG1 (loaded (encodeG1 a3 ++ encodeG1 x11)) 128 = .ok x11 :=
      (loaded_readG1 (by omega)).trans (by decide +kernel)
    simp only [validateOperand, validatePoint, this]
    decide +kernel

/-- Every outcome of the checks: a bad word, `Inf`, off the curve, outside the subgroup, and inside it. -/
theorem test_witness_OperandChecks :
    (∃ e, readPoint groupG1 (loaded (zeros 127 ++ [1] ++ ([1] ++ zeros 255))) 128 = .error e) ∧
    (∃ e, readPoint groupG2 (loaded ([1] ++ zeros 255)) 0 = .error e) ∧
    readPoint groupG1 (loaded (zeros 128)) 0 = .ok .inf ∧ readPoint groupG1 (loaded (encodeG1 x11)) 0 = .ok x11 ∧
    onCurve fqOps Config.B1 x11 = false ∧ readPoint groupG1 (loaded (encodeG1 a3)) 0 = .ok a3 ∧
    onCurve fqOps Config.B1 a3 = true ∧ pointMul fqOps Config.R a3 ≠ .inf ∧
    readPoint groupG1 (loaded (encodeG1 g1)) 0 = .ok g1 ∧
    readPoint groupG2 (loaded (zeros 256)) 0 = .ok .inf ∧ readPoint groupG2 (loaded (encodeG2 g2)) 0 = .ok g2 := by
  refine ⟨⟨⟨.invalidFieldEncoding, 128, false⟩, (loaded_readG1 (by simp)).trans (by decide +kernel)⟩,
    ⟨⟨.invalidFieldEncoding, 0, false⟩, (loaded_readG2 (by simp)).trans (by decide +kernel)⟩,
    (loaded_readG1 (by simp)).trans (by decide +kernel), (loaded_readG1 (by simp)).trans (by decide +kernel),
    by decide +kernel, (loaded_readG1 (by simp)).trans (by decide +kernel), by decide +kernel, by decide +kernel,
    (loaded_readG1 (by simp)).trans (by decide +kernel), (loaded_readG2 (by simp)).trans (by decide +kernel),
    (loaded_readG2 (by simp)).trans (by decide +kernel)⟩

/-- PAIRING on a point of order 3 beside an infinity (V-P-12). -/
theorem test_pairing_outside_subgroup : exec (.pairing 384) (loaded (g1Then a3 256)) =
    .next ((loaded (g1Then a3 256)).finishErr ⟨.incorrectSubgroup, 0, false⟩) := by
  have hl : (g1Then a3 256).length = 384 := by simp [g1Then]
  have hv : validate .pairing (g1Then a3 256).length (loaded (g1Then a3 256)) = .error ⟨.incorrectSubgroup, 0, false⟩ := by
    have : readPoint groupG1 (loaded (g1Then a3 256)) 0 = .ok a3 := (loaded_readG1 (by omega)).trans (by decide +kernel)
    have hc : checkPoint groupG1 true 0 a3 = .error ⟨.incorrectSubgroup, 0, false⟩ := test_pairing_checks_both.2.1
    have ho : operands .pairing 384 = [⟨.g1pt, 0⟩, ⟨.g2pt, 128⟩] := by decide
    have hs : needsSubgroup .pairing = true := rfl
    rw [hl, validate, ho, hs]
    simp only [validateAll, validateOperand, validatePoint, this, hc]
  have := loaded_fails (loaded_ready (by rw [hl]; decide) (by omega)) hv
  rwa [hl] at this

theorem test_witness_OnlyPairingReportsSubgroup : ∃ (op : Operation) (n : Nat) (s t : State), s.Cleared ∧
    exec (instrOf op n) s = .next t ∧ t.errKind = 4 :=
  ⟨.pairing, 384, loaded (g1Then a3 256), _, loaded_cleared _, test_pairing_outside_subgroup, rfl⟩

/-- An error with a position, one without, and one with the detail bit. -/
theorem test_witness_ErrorPositionIsInsideInput :
    (∃ (op : Operation) (n : Nat) (s t : State), n < 2 ^ 32 ∧ s.Cleared ∧ exec (instrOf op n) s = .next t ∧ t.err = true ∧
      t.errKind = 4) ∧
    (∃ (op : Operation) (n : Nat) (s t : State), n < 2 ^ 32 ∧ s.Cleared ∧ exec (instrOf op n) s = .next t ∧ t.err = true ∧
      t.errKind = 1) ∧
    (∃ (op : Operation) (n : Nat) (s t : State), n < 2 ^ 32 ∧ s.Cleared ∧ exec (instrOf op n) s = .next t ∧ t.err = true ∧
      t.errDetail = true) := by
  refine ⟨⟨.pairing, 384, _, _, by decide, loaded_cleared _, test_pairing_outside_subgroup, rfl, rfl⟩,
    ⟨.g2add, 511, State.reset, _, by decide, loaded_cleared [], rfl, rfl, rfl⟩, ?_⟩
  have hl : (zeros 16 ++ beBytes 48 Config.P ++ zeros 192).length = 256 := by simp
  have hv : validate .g1add (zeros 16 ++ beBytes 48 Config.P ++ zeros 192).length
      (loaded (zeros 16 ++ beBytes 48 Config.P ++ zeros 192)) = .error ⟨.invalidFieldEncoding, 0, true⟩ := by
    have hr : readPoint groupG1 (loaded (zeros 16 ++ beBytes 48 Config.P ++ zeros 192)) 0 =
        .error ⟨.invalidFieldEncoding, 0, true⟩ := (loaded_readG1 (by omega)).trans (by decide +kernel)
    have ho : operands .g1add 256 = [⟨.g1pt, 0⟩, ⟨.g1pt, 128⟩] := by decide
    rw [hl, validate, ho]
    simp only [validateAll, validateOperand, validatePoint, hr]
  exact ⟨.g1add, _, _, _, by rw [hl]; decide, loaded_cleared _, loaded_fails (loaded_ready (by rw [hl]; decide) (by omega)) hv,
    rfl, rfl⟩

/-- A result of each family, and an error. -/
theorem test_witness_OutputLengths : ∀ op ∈ [Operation.g1add, .g1mul, .g1multiexp, .g2add, .g2mul, .g2multiexp, .pairing],
    ∃ (n : Nat) (s t : State), s.Cleared ∧ exec (instrOf op n) s = .next t :=
  fun op _ => ⟨_, _, _, loaded_cleared (zeros (frameBytes op)), (loaded_next op _).choose_spec⟩

theorem test_witness_OperationFrame : ∀ op : Operation, ∃ (n : Nat) (s t : State), s.MemoryOk ∧
    exec (instrOf op n) s = .next t :=
  fun op => ⟨_, _, _, loaded_memoryOk (bs := zeros (frameBytes op)) (by rw [zeros_length]; cases op <;> decide), (loaded_next op _).choose_spec⟩

/-- Two states that differ in an accumulator and in OP; and the same with nothing written. -/
theorem test_witness_ResultDependsOnInputAlone (bs : List Byte) : ∃ s₁ s₂ : State, s₁ ≠ s₂ ∧ s₁.Cleared ∧ s₂.Cleared ∧
    ∀ i, i < 256 → s₁.written i = s₂.written i ∧ s₁.inByte i = s₂.inByte i :=
  ⟨loaded bs, { loaded bs with accG1 := a3, opCode := 5 },
    fun h => absurd (congrArg State.opCode h) (by simp [loaded, State.reset]),
    loaded_cleared bs, ⟨rfl, rfl, rfl, rfl, rfl, rfl⟩, fun _ _ => ⟨rfl, rfl⟩⟩

/-! ### Host commands and the port -/

theorem test_witness_StartLatchesAndClears : State.reset.busy = false ∧ (started 1 256 []).busy = true := ⟨rfl, rfl⟩

theorem test_witness_EveryCtrlWriteSetsIe :
    (0xFFFFFFFC : Word).getLsbD 1 = false ∧ (0xFFFFFFFC : Word).getLsbD 0 = false := by decide

theorem startedOn_statusOk (code : BitVec 4) (n : Nat) (bs : List Byte) : (started code n bs).StatusOk where
  phase_eq := rfl
  idx_zero := rfl
  busy_clear := fun _ => ⟨rfl, rfl, rfl, rfl⟩
  busy_latched := fun _ => ⟨rfl, rfl⟩
  no_err_clear := fun _ => ⟨rfl, rfl, rfl⟩
  err_kind := nofun
  detail_kind := nofun
  err_pos := .inl rfl
  out_len := .inl rfl
  out_tail := fun _ _ => rfl

theorem test_witness_DoneClearAndIeWriteChangeOneBit : (2 : Word).getLsbD 1 = true ∧ (0xFFFFFFFD : Word).getLsbD 1 = false ∧
    ∃ s : State, s.StatusOk ∧ s.busy = true :=
  ⟨by decide, by decide, started 1 256 [], startedOn_statusOk _ _ _, rfl⟩

/-- One access of each kind at the edge of its region, and one past it. -/
theorem test_witness_PortTakesExactlyLegalAccesses : target 0x1FC 4 = some (.outBuf 252) ∧
    target 0x1FF 1 = some (.outBuf 255) ∧ target 0x11FC 4 = some (.inBuf 508) ∧ target 0x0FC 4 = some (.reg 0x0FC) ∧
    target 0x200 4 = some (.reg 0x200) ∧ target 0xFFC 4 = some (.reg 0xFFC) ∧ target 0x1FF 2 = none ∧
    target 0xFFE 4 = none ∧ target 0x004 1 = none ∧ target 0x100 3 = none ∧ target 0x1000 8 = none ∧
    target (0x1000 + Config.inBufBytes) 1 = none := by
  refine ⟨by decide, by decide, by decide, by decide, by decide, by decide, by decide, by decide, by decide, by decide,
    by decide, ?_⟩
  rw [target_eq, if_neg (by omega), if_neg (by omega)]

theorem test_witness_RegisterReads : ∀ off ∈ [0x020, 0x0FC, 0x200, 0xFFC],
    off % 4 = 0 ∧ ((0x020 ≤ off ∧ off < 0x100) ∨ (0x200 ≤ off ∧ off < 0x1000)) := by decide

/-- The last word, half word and byte of each buffer. -/
theorem test_witness_BufferReadsByLanes :
    (252 % 4 = 0 ∧ 3 < 4 ∧ 252 < 256) ∧ (254 % 2 = 0 ∧ 1 < 2 ∧ 254 < 256) ∧ (255 % 1 = 0 ∧ 0 < 1 ∧ 255 < 256) ∧
    (Config.inBufBytes - 4) % 4 = 0 ∧ Config.inBufBytes - 4 < Config.inBufBytes ∧
    (Config.inBufBytes - 1) % 1 = 0 ∧ Config.inBufBytes - 1 < Config.inBufBytes := by
  have h1 := inBufBytes_ge
  have h2 := inBufBytes_mod_four
  omega

theorem test_witness_InBufWriteStoresLanes : ∃ (s : State) (a w : Nat), s.MemoryOk ∧ s.busy = false ∧
    (w = 1 ∨ w = 2 ∨ w = 4) ∧ a % w = 0 ∧ a < Config.inBufBytes ∧ Config.inBufBytes = a + w := by
  have h1 := inBufBytes_ge
  have h2 := inBufBytes_mod_four
  exact ⟨loaded (zeros 512), Config.inBufBytes - 4, 4, loaded_memoryOk (by simp), rfl, .inr (.inr rfl), by omega, by omega,
    by omega⟩

theorem test_witness_ParameterWrites : (started 1 256 []).busy = true ∧ State.reset.busy = false := ⟨rfl, rfl⟩

theorem test_witness_ReadOnlyWritesAreIgnored :
    (∀ off ∈ [0x000, 0x014, 0x018, 0x01C, 0x020, 0x0FC, 0x200, 0xFFC],
      off % 4 = 0 ∧ (off = 0x000 ∨ (0x014 ≤ off ∧ off < 0x100) ∨ (0x200 ≤ off ∧ off < 0x1000))) ∧
    (252 % 4 = 0 ∧ 252 < 256 ∧ 254 % 2 = 0 ∧ 255 % 1 = 0) := by decide

theorem test_witness_InputLockWhileBusy : ∃ s : State, s.busy = true ∧ target 0x010 4 = some (.reg 0x010) ∧
    ∃ e es t, s.inputs = e :: es ∧ e ≠ .powerOn ∧ step s = .next t :=
  ⟨(started 1 256 []).setInputs [.access (.write 0x1000 4 7)], rfl, by decide, _, [], _, rfl, by decide, rfl⟩

theorem test_witness_ReadsHaveNoSideEffect : ∃ (s : State) (off w : Nat) (t : State),
    step (s.setInputs (.access (.read off w) :: s.inputs)) = .next t ∧ (target off w).isSome = true :=
  ⟨State.reset, 0x1000, 4, _, rfl, by decide⟩

/-! ### The machine -/

theorem test_witness_ResetValues : ∃ s s₀ : State, ∃ es, s₀.inputs = .powerOn :: es ∧ step s₀ = .next s :=
  ⟨_, (started 1 256 []).setInputs [.powerOn], [], rfl, rfl⟩

theorem test_witness_StepKeepsMemoryCanonical : ∃ s t : State, s.MemoryOk ∧ step s = .next t :=
  ⟨(loaded (zeros 512)).setInputs [.access (.write 0x1000 4 1)], _, loaded_memoryOk (bs := zeros 512) (by simp), rfl⟩

/-- A running operation of a wrong length: the invariant holds and the step completes it. -/
theorem test_witness_StepKeepsInvariant : ∃ s t : State, s.Inv ∧ s.busy = true ∧ step s = .next t :=
  ⟨started 1 0 [], _, ⟨loaded_memoryOk (bs := []) (by simp), startedOn_statusOk _ _ _⟩, rfl, rfl⟩

theorem test_witness_StepStopsOnlyOnUnwrittenInput : ∃ s : State, step s = .fault .unwrittenInput :=
  ⟨started 1 256 [], rfl⟩

theorem test_witness_ResultsStayUntilNextStart :
    (∃ s e es t, s.inputs = e :: es ∧ e.aborts = false ∧ e.startsOperation s = false ∧ (e = .sequencer → s.busy = false) ∧
      step s = .next t ∧ e = .access (.write 4 4 4)) ∧
    ∃ s e es t, s.inputs = e :: es ∧ e.aborts = false ∧ e.startsOperation s = false ∧ (e = .sequencer → s.busy = false) ∧
      step s = .next t ∧ e = .sequencer :=
  ⟨⟨State.reset.setInputs [.access (.write 4 4 4)], _, [], _, rfl, by decide, by decide, nofun, rfl, rfl⟩,
   ⟨State.reset.setInputs [.sequencer], _, [], _, rfl, rfl, rfl, fun _ => rfl, rfl, rfl⟩⟩

/-- Both turns, and both outcomes: an input of which no byte was written, and a wrong length. -/
theorem test_witness_BusyStepCompletes : (started 1 256 []).busy = true ∧ (started 1 256 []).inputs = [] ∧
    step (started 1 256 []) = .fault .unwrittenInput ∧
    ∃ s₀ s : State, ∃ es, s.busy = true ∧ s₀.inputs = .sequencer :: es ∧ s = s₀.setInputs es ∧
      step s₀ ≠ .fault .unwrittenInput :=
  ⟨rfl, rfl, rfl, (started 1 255 []).setInputs [.sequencer], _, [], rfl, rfl, rfl, by
    have h : step ((started 1 255 []).setInputs [.sequencer]) =
      .next (((started 1 255 []).setInputs []).finishErr ⟨.invalidInputLength, 0, false⟩) := rfl
    rw [h]; exact nofun⟩

theorem test_witness_RunningOperationEnds : ∃ s : State, s.busy = true ∧ s.inputs.length = 3 ∧
    ∀ e ∈ s.inputs, e.aborts = false :=
  ⟨(started 1 256 []).setInputs [.access (.read 0x10 4), .access (.write 4 4 5), .sequencer], rfl, rfl, by decide⟩

theorem test_witness_AbortLeavesNoCompletion : ∃ (s : State) (v : Word) (k : Nat) (es : List Event), v.getLsbD 1 = true ∧
    s.inputs = .access (.write 0x004 4 v) :: (List.replicate k .sequencer ++ es) ∧ s.busy = true :=
  ⟨(started 1 256 []).setInputs [.access (.write 4 4 2), .sequencer, .sequencer, .access (.read 0x10 4)], 2, 2,
    [.access (.read 0x10 4)], by decide, rfl, rfl⟩

end Sys2Proof.Tests
end

section
/-! # The state, its registers and the invariant (10_state, 20_memory, 44_host_commands) -/
namespace Sys2Proof.Machine

/-! ## The step, event by event -/

theorem step_nil {s : State} (h : s.inputs = []) : step s = sequencerStep s := by
  simp only [step, h]

theorem step_cons {s : State} {e : Event} {es : List Event} (h : s.inputs = e :: es) :
    step s = handle e (s.setInputs es) := by
  simp only [step, h]

theorem sequencerStep_idle {s : State} (h : s.busy = false) : sequencerStep s = .next s := by
  simp [sequencerStep, h]

theorem sequencerStep_decoded {s : State} {i : Instr} (hb : s.busy = true)
    (hd : decode (latchedEncoding s) = .ok i) : sequencerStep s = exec i s := by
  simp [sequencerStep, hb, hd]

theorem serveWrite_command {off w : Nat} {v : Word} {e : Encoding} {i : Instr} (s : State)
    (hc : commandOfWrite off w v = some e) (hd : decode e = .ok i) : serveWrite off w v s = exec i s := by
  simp only [serveWrite, hc, hd]

theorem serveWrite_noCommand {off w : Nat} {v : Word} (s : State) (hc : commandOfWrite off w v = none) :
    serveWrite off w v s = .next (busWrite off w v s) := by
  simp only [serveWrite, hc]

/-! ## Accesses to register space and to OUT_BUF -/

theorem commandOfWrite_eq_none {off w : Nat} (v : Word) (h : w = 4 → off ≠ 0x004 ∧ off ≠ 0x010) :
    commandOfWrite off w v = none := by
  unfold commandOfWrite
  split
  · omega
  · split
    · omega
    · rfl

/-- A taken write to a register that is neither OP nor IN_LEN is ignored (10_state R33, R42). -/
theorem busWrite_reg_ignored {off r w : Nat} (v : Word) (s : State) (ht : target off w = some (.reg r))
    (h8 : r ≠ 0x008) (hC : r ≠ 0x00C) : busWrite off w v s = s.setReply .writeOkay := by
  unfold busWrite
  split <;> simp_all

/-- A taken write to OUT_BUF is ignored (10_state R44). -/
theorem busWrite_outBuf_ignored {off a w : Nat} (v : Word) (s : State) (ht : target off w = some (.outBuf a)) :
    busWrite off w v s = s.setReply .writeOkay := by
  simp only [busWrite, ht]

/-- A STATUS write with bit 1 clear commands nothing and is ignored (30_encoding R103). -/
theorem serveWrite_status_noCommand {v : Word} (s : State) (hv : v.getLsbD 1 = false) :
    serveWrite 0x010 4 v s = .next (s.setReply .writeOkay) := by
  have hd : decode (.statusWrite v) = .error .noCommand := by
    simp only [decode, decodeStatus, hv, Bool.false_eq_true, if_false]
  have hc : commandOfWrite 0x010 4 v = some (.statusWrite v) := rfl
  have hb : busWrite 0x010 4 v s = s.setReply .writeOkay :=
    busWrite_reg_ignored v s (target_reg (by decide) (by decide)) (by decide) (by decide)
  simp only [serveWrite, hc, hd, hb]

/-- An aligned word read of register space answers the register (20_memory R73, 44_host_commands R265). -/
theorem busRead_reg {off : Nat} (s : State) (h : off % 4 = 0) (h' : off < 0x100 ∨ (0x200 ≤ off ∧ off < 0x1000)) :
    busRead off 4 s = s.setReply (.readOkay (regRead s off)) := by
  simp only [busRead, target_reg h h', readData]

theorem regRead_reserved {off : Nat} (s : State) (h : 0x020 ≤ off) : regRead s off = 0 := by
  unfold regRead
  split
  case h_9 => rfl
  all_goals omega

theorem ctrlWord_eq (s : State) : ctrlWord s = if s.ie = true then 4 else 0 := by
  cases h : s.ie <;> simp [ctrlWord, h]

theorem opWord_eq (s : State) : opWord s = BitVec.ofNat 32 s.opCode.toNat := (BitVec.ofNat_toNat ..).symm

/-- The fields of the STATUS word in their places, with bits 3 and 7 clear (10_state R38): 128 values of the fields. -/
theorem statusWord_fields (s : State) :
    (statusWord s).getLsbD 0 = s.busy ∧ (statusWord s).getLsbD 1 = s.done ∧ (statusWord s).getLsbD 2 = s.err ∧
      (statusWord s).getLsbD 3 = false ∧ (statusWord s).extractLsb' 4 3 = s.errKind ∧
      (statusWord s).getLsbD 7 = false ∧ (statusWord s).getLsbD 8 = s.errDetail := by
  unfold statusWord
  generalize s.errKind = k, s.busy = b, s.done = d, s.err = e, s.errDetail = x
  revert k b d e x
  decide

theorem statusWord_lt (s : State) : (statusWord s).toNat < 2 ^ 9 := by
  have hk := s.errKind.isLt
  have hb := s.busy.toNat_le
  have hd := s.done.toNat_le
  have he := s.err.toNat_le
  have hx := s.errDetail.toNat_le
  rw [statusWord, BitVec.toNat_ofNat]
  omega

theorem statusWord_getLsbD_high (s : State) {i : Nat} (h : 9 ≤ i) : (statusWord s).getLsbD i = false :=
  Nat.testBit_lt_two_pow ((statusWord_lt s).trans_le (Nat.pow_le_pow_right (by decide) h))

/-! ## The obligations on the step and the register window -/

/-- Settles O5: the step serves the first event, and each server runs what it decodes. -/
theorem stepRunsDecodedInstruction : Obligations.StepRunsDecodedInstruction := by
  refine ⟨fun s es i hi hb hd => ?_, fun s i hi hb hd => ?_, fun s es off w v e i hi hc hd => ?_⟩
  · rw [step_cons hi]; exact sequencerStep_decoded (s := s.setInputs es) hb hd
  · rw [step_nil hi]; exact sequencerStep_decoded hb hd
  · rw [step_cons hi]; exact serveWrite_command _ hc hd

/-- Settles O6: one equation per event that carries no instruction. -/
theorem stepServesOtherEvents : Obligations.StepServesOtherEvents := by
  refine ⟨fun s es hi hb => ?_, fun s hi hb => ?_, fun s es off w hi => ?_, fun s es off w v hi hc => ?_,
    fun s es v hi hv => ?_, fun s es hi => ?_⟩
  · rw [step_cons hi]; exact sequencerStep_idle (s := s.setInputs es) hb
  · rw [step_nil hi]; exact sequencerStep_idle hb
  · rw [step_cons hi]; rfl
  · rw [step_cons hi]; exact serveWrite_noCommand _ hc
  · rw [step_cons hi]; exact serveWrite_status_noCommand _ hv
  · rw [step_cons hi]; rfl

/-- Settles O43: an aligned word read of register space answers `regRead`. -/
theorem registerReads : Obligations.RegisterReads := by
  intro s
  refine ⟨busRead_reg s (by decide) (by decide), ?_, ?_, busRead_reg s (by decide) (by decide),
    busRead_reg s (by decide) (by decide), busRead_reg s (by decide) (by decide), busRead_reg s (by decide) (by decide),
    busRead_reg s (by decide) (by decide), fun off h4 hr => ?_⟩
  · rw [← ctrlWord_eq]; exact busRead_reg s (by decide) (by decide)
  · rw [← opWord_eq]; exact busRead_reg s (by decide) (by decide)
  · rw [busRead_reg s h4 (by omega), regRead_reserved s (by omega)]

/-- Settles O44: the fields of the STATUS word, which is below 2^9. -/
theorem statusReadsItsFields : Obligations.StatusReadsItsFields := by
  intro s
  obtain ⟨hbusy, hdone, herr, h3, hkind, h7, hdetail⟩ := statusWord_fields s
  exact ⟨statusWord s, busRead_reg s (by decide) (by decide), hbusy, hdone, herr, h3, hkind, h7, hdetail,
    fun _ => statusWord_getLsbD_high s⟩

/-- Settles O48: such a write carries no command, and the bus ignores it. -/
theorem readOnlyWritesAreIgnored : Obligations.ReadOnlyWritesAreIgnored := by
  refine ⟨fun s off v h4 hoff => ?_, fun s a w v hw hm ha => ?_⟩
  · rw [serveWrite_noCommand s (commandOfWrite_eq_none v (by omega)),
      busWrite_reg_ignored v s (target_reg h4 (by omega)) (by omega) (by omega)]
    rfl
  · rw [serveWrite_noCommand s (commandOfWrite_eq_none v (by omega)), busWrite_outBuf_ignored v s (target_outBuf hw hm ha)]
    rfl

/-! ## When an operation stops (10_state R52, 42_dispatch R208) -/

/-- Only the third check gives `unwritten`, once the two before it have passed. -/
theorem evaluate_unwritten_iff {op : Operation} {c : Compute} {n : Nat} {s : State} :
    evaluate op c n s = .unwritten ↔ lengthOk op n = true ∧ n ≤ Config.inBufBytes ∧ s.allWritten n = false := by
  rw [evaluate_eq]
  by_cases hl : lengthOk op n = false
  · simp [hl]
  by_cases hc : Config.inBufBytes < n
  · simp [hl, hc]
  by_cases hw : s.allWritten n = false
  · simp [hl, hc, hw, Nat.le_of_not_lt hc]
  · rw [if_neg hl, if_neg hc, if_neg hw]
    cases validate op n s with
    | error e => simp [hw]
    | ok u => cases c n (s.setPhase .compute) <;> simp [hw]

theorem allWritten_eq_false_iff {s : State} {n : Nat} :
    s.allWritten n = false ↔ ∃ i, i < n ∧ s.written i = false := by
  simp [State.allWritten]

/-- Settles O30: the fault is the evaluation `unwritten`, which the cascade of checks gives in one case only. -/
theorem onlyUnwrittenInputStops : Obligations.OnlyUnwrittenInputStops := by
  intro op n s
  rw [exec_instrOf, ← allWritten_eq_false_iff, ← evaluate_unwritten_iff (c := computeOf op)]
  rcases runOperation_cases op n s with ⟨hr, he⟩ | ⟨e, hr, he⟩ | ⟨s', out, hr, he, -, -⟩ <;> simp [hr, he]

end Sys2Proof.Machine
end

section
/-! # Every step keeps the invariant -/
namespace Sys2Proof.Machine

/-! ## Everything a step can do to the engine -/

/-- What a step that answers `t` does to `s`, the state with the step's event taken off its list. -/
inductive StepEffect (s t : State) : Prop where
  | bus (h : BusEffect s t)
  | completes (hb : s.busy = true) (h : Completes s s.lLen.toNat t)
  | start (ie : Bool) (hb : s.busy = false) (ht : t = (s.begin.setIe ie).setReply .writeOkay)
  | ieWrite (ie : Bool) (ht : t = (s.setIe ie).setReply .writeOkay)
  | srst (ie : Bool) (ht : t = (s.clearAll.setIe ie).setReply .writeOkay)
  | doneClr (ht : t = s.clearDone.setReply .writeOkay)
  | powerOn (ht : t = s.powerOn)

theorem sequencerStep_stepEffect {s t : State} (h : sequencerStep s = .next t) : StepEffect s t := by
  rcases sequencerStep_cases s with ⟨-, hs⟩ | ⟨hb, hs⟩ | ⟨hb, op, -, hs⟩
  · cases hs.symm.trans h
    exact .bus (.none (sameEngine_setReply s s.reply))
  · cases hs.symm.trans h
    exact .completes hb (.err _ rfl (.inl rfl) (by simp))
  · exact .completes hb (runOperation_completes (hs.symm.trans h))

theorem serveWrite_stepEffect {off w : Nat} {v : Word} {s t : State} (h : serveWrite off w v s = .next t) :
    StepEffect s t := by
  rcases serveWrite_effect off w v s with ⟨t', ho, ht⟩ | ⟨ie, ho⟩ | ⟨st, ie, ho⟩ | ⟨ie, ho⟩ | ho <;>
    cases ho.symm.trans h
  · exact .bus ht
  · cases hb : s.busy
    · exact .start ie hb rfl
    · exact .ieWrite ie rfl
  · exact .srst ie rfl
  · exact .ieWrite ie rfl
  · exact .doneClr rfl

theorem step_stepEffect {s t : State} (h : step s = .next t) : ∃ es, StepEffect (s.setInputs es) t := by
  obtain ⟨_, ⟨es, rfl⟩, hs | ⟨off, w, hs⟩ | ⟨off, w, v, hs⟩ | hs⟩ := step_cases s <;> rw [hs] at h <;> refine ⟨es, ?_⟩
  · exact sequencerStep_stepEffect h
  · cases h; exact .bus (.none (busRead_same _ _ _))
  · exact serveWrite_stepEffect h
  · cases h; exact .powerOn rfl

/-! ## Canonical memory -/

/-- The canonical form speaks of the two byte arrays alone. -/
theorem State.MemoryOk.congr {s t : State} (h : s.MemoryOk) (hi : t.inBuf = s.inBuf) (ho : t.outBuf = s.outBuf) :
    t.MemoryOk := by
  unfold State.MemoryOk
  rwa [hi, ho]

theorem State.MemoryOk.clear_outBuf {s t : State} (h : s.MemoryOk) (hi : t.inBuf = s.inBuf) (ho : t.outBuf = []) :
    t.MemoryOk := by
  obtain ⟨hwf, hbelow, -, -⟩ := h
  unfold State.MemoryOk
  rw [hi, ho]
  exact ⟨hwf, hbelow, Memory.wf_nil, nofun⟩

theorem State.MemoryOk.storeIn {s : State} (h : s.MemoryOk) {a : Nat} {bs : List Byte}
    (ha : a + bs.length ≤ Config.inBufBytes) : (s.storeIn a bs).MemoryOk := by
  obtain ⟨hwf, hbelow, hout⟩ := h
  exact ⟨Memory.wf_setBytes hwf, Memory.below_setBytes hbelow ha, hout⟩

theorem State.MemoryOk.finishOk {s : State} (h : s.MemoryOk) {out : List Byte} (hl : out.length ≤ Config.outBufBytes) :
    (s.finishOk out).MemoryOk := by
  obtain ⟨hwf, hbelow, hwf', hbelow'⟩ := h
  exact ⟨hwf, hbelow, Memory.wf_setBytes hwf', Memory.below_setBytes hbelow' (by omega)⟩

theorem OnlySequencer.outBuf {s s' : State} (h : OnlySequencer s s') : s'.outBuf = s.outBuf := by
  obtain ⟨_, _, _, _, _, rfl⟩ := h; rfl

theorem BusEffect.memoryOk {s t : State} (h : BusEffect s t) (hs : s.MemoryOk) : t.MemoryOk := by
  cases h with
  | none h => obtain ⟨r, d, rfl⟩ := h; exact hs.congr rfl rfl
  | opCode v hb ht => subst ht; exact hs.congr rfl rfl
  | inLen v hb ht => subst ht; exact hs.congr rfl rfl
  | inBuf a bs hb ha ht => subst ht; exact (hs.storeIn ha).congr rfl rfl

theorem Completes.memoryOk {s t : State} {n : Nat} (h : Completes s n t) (hs : s.MemoryOk) : t.MemoryOk := by
  cases h with
  | err e ht hp hd => subst ht; exact hs.congr rfl rfl
  | ok s' out ht ho hl =>
    subst ht
    exact (hs.congr ho.inBuf ho.outBuf).finishOk (by unfold Config.outBufBytes; omega)

theorem StepEffect.memoryOk {s t : State} (h : StepEffect s t) (hs : s.MemoryOk) : t.MemoryOk := by
  cases h with
  | bus h => exact h.memoryOk hs
  | completes hb h => exact h.memoryOk hs
  | start ie hb ht => subst ht; exact hs.clear_outBuf rfl rfl
  | ieWrite ie ht => subst ht; exact hs.congr rfl rfl
  | srst ie ht => subst ht; exact hs.clear_outBuf rfl rfl
  | doneClr ht => subst ht; exact hs.congr rfl rfl
  | powerOn ht => subst ht; exact ⟨Memory.wf_nil, nofun, Memory.wf_nil, nofun⟩

theorem step_memoryOk {s t : State} (hs : s.MemoryOk) (h : step s = .next t) : t.MemoryOk := by
  obtain ⟨es, he⟩ := step_stepEffect h
  exact he.memoryOk (hs.congr rfl rfl)

/-! ## The relations between the fields -/

/-- No relation of `StatusOk` reads IE, IN_BUF or the model's own fields. -/
theorem State.StatusOk.setUnrelated {s : State} (h : s.StatusOk) (ie : Bool) (m : Memory) (d : Nat) (r : Reply)
    (es : List Event) :
    State.StatusOk { s with ie := ie, inBuf := m, draws := d, reply := r, inputs := es } :=
  { h with }

/-- While idle OP and IN_LEN are free: the latched copies need not agree with them. -/
theorem State.StatusOk.setParameters {s : State} (h : s.StatusOk) (hb : s.busy = false) (c : BitVec 4) (l : Word) :
    State.StatusOk { s with opCode := c, inLen := l } :=
  { h with busy_latched := fun hb' => absurd (hb.symm.trans hb') nofun }

theorem State.StatusOk.clearDone {s : State} (h : s.StatusOk) : s.clearDone.StatusOk :=
  { h with busy_clear := fun hb => ⟨rfl, (h.busy_clear hb).2⟩ }

/-- With no result and no error recorded, only the sequencer's relations are left to hold. -/
theorem State.Cleared.statusOk {s : State} (h : s.Cleared) (hp : s.phase = if s.busy = true then .validate else .idle)
    (hi : s.idx = 0) (hd : s.done = false) (hl : s.busy = true → s.lOp = s.opCode ∧ s.lLen = s.inLen) : s.StatusOk := by
  obtain ⟨herr, hkind, hdetail, hpos, hlen, hbuf⟩ := h
  exact {
    phase_eq := hp
    idx_zero := hi
    busy_clear := fun _ => ⟨hd, herr, hlen, hbuf⟩
    busy_latched := hl
    no_err_clear := fun _ => ⟨hkind, hdetail, hpos⟩
    err_kind := fun h => by simp [herr] at h
    detail_kind := fun h => by simp [hdetail] at h
    err_pos := .inl hpos
    out_len := .inl hlen
    out_tail := fun a _ => State.outByte_nil hbuf a }

theorem State.begin_statusOk (s : State) : s.begin.StatusOk :=
  State.Cleared.statusOk ⟨rfl, rfl, rfl, rfl, rfl, rfl⟩ rfl rfl rfl fun _ => ⟨rfl, rfl⟩

theorem State.clearAll_statusOk (s : State) : s.clearAll.StatusOk :=
  State.Cleared.statusOk ⟨rfl, rfl, rfl, rfl, rfl, rfl⟩ rfl rfl rfl nofun

theorem State.powerOn_statusOk (s : State) : s.powerOn.StatusOk :=
  State.Cleared.statusOk ⟨rfl, rfl, rfl, rfl, rfl, rfl⟩ rfl rfl rfl nofun

/-- While BUSY nothing of an earlier operation is left (44_host_commands R260). -/
theorem State.StatusOk.cleared {s : State} (h : s.StatusOk) (hb : s.busy = true) : s.Cleared := by
  obtain ⟨-, herr, hlen, hbuf⟩ := h.busy_clear hb
  obtain ⟨hkind, hdetail, hpos⟩ := h.no_err_clear herr
  exact ⟨herr, hkind, hdetail, hpos, hlen, hbuf⟩

theorem OnlySequencer.cleared {s s' : State} (h : OnlySequencer s s') (hc : s.Cleared) : s'.Cleared := by
  obtain ⟨_, _, _, _, _, rfl⟩ := h; exact hc

theorem errCode_ne (k : ErrKind) : errCode k ≠ 0 ∧ errCode k ≠ 7 := by
  cases k <;> decide

/-- A failed operation records its error beside an empty output; its position stays inside the latched length, so the
32-bit ERR_POS holds it unreduced (60_exceptions R283). -/
theorem State.Cleared.finishErr_statusOk {s : State} (h : s.Cleared) {e : OpError}
    (hp : e.pos = 0 ∨ (e.pos < s.lLen.toNat ∧
      (e.kind = .invalidFieldEncoding ∨ e.kind = .pointNotOnCurve ∨ e.kind = .incorrectSubgroup)))
    (hd : e.detail = true → e.kind = .invalidFieldEncoding) : (s.finishErr e).StatusOk := by
  obtain ⟨-, -, -, -, hlen, hbuf⟩ := h
  obtain ⟨hk0, hk7⟩ := errCode_ne e.kind
  exact {
    phase_eq := rfl
    idx_zero := rfl
    busy_clear := nofun
    busy_latched := nofun
    no_err_clear := nofun
    err_kind := fun _ => ⟨hk0, hk7, hlen, hbuf⟩
    detail_kind := fun h => congrArg errCode (hd h)
    err_pos := by
      rcases hp with hp | ⟨hlt, hk⟩
      · left; rw [State.finishErr_errPos, hp]; rfl
      · right
        have hpos : (BitVec.ofNat 32 e.pos).toNat = e.pos := Nat.mod_eq_of_lt (hlt.trans s.lLen.isLt)
        refine ⟨hpos.trans_lt hlt, ?_⟩
        rcases hk with hk | hk | hk <;> simp [hk, errCode]
    out_len := .inl hlen
    out_tail := fun a _ => State.outByte_nil hbuf a }

/-- A successful operation writes its output over an empty OUT_BUF and records its length (10_state R40, R44). -/
theorem State.Cleared.finishOk_statusOk {s : State} (h : s.Cleared) {out : List Byte}
    (hl : out.length = 32 ∨ out.length = 128 ∨ out.length = 256) : (s.finishOk out).StatusOk := by
  obtain ⟨herr, hkind, hdetail, hpos, -, hbuf⟩ := h
  have hlen : (BitVec.ofNat 32 out.length).toNat = out.length := Nat.mod_eq_of_lt (by omega)
  exact {
    phase_eq := rfl
    idx_zero := rfl
    busy_clear := nofun
    busy_latched := nofun
    no_err_clear := fun _ => ⟨hkind, hdetail, hpos⟩
    err_kind := fun h => by simp [herr] at h
    detail_kind := fun h => by simp [hdetail] at h
    err_pos := .inl hpos
    out_len := by rcases hl with hl | hl | hl <;> simp [hl]
    out_tail := fun a ha => by
      have hwf : Memory.wf .outBuf s.outBuf = true := by rw [hbuf]; exact Memory.wf_nil
      rw [State.finishOk_outLen, hlen] at ha
      rw [State.outByte_setBytes hwf (State.finishOk_outBuf s out), dif_neg (by omega), State.outByte_nil hbuf] }

theorem BusEffect.statusOk {s t : State} (h : BusEffect s t) (hs : s.StatusOk) : t.StatusOk := by
  cases h with
  | none h => obtain ⟨r, d, rfl⟩ := h; exact hs.setUnrelated ..
  | opCode v hb ht => subst ht; exact (hs.setParameters hb ..).setUnrelated ..
  | inLen v hb ht => subst ht; exact (hs.setParameters hb ..).setUnrelated ..
  | inBuf a bs hb ha ht => subst ht; exact hs.setUnrelated ..

theorem Completes.statusOk {s t : State} (h : Completes s s.lLen.toNat t) (hs : s.Cleared) : t.StatusOk := by
  cases h with
  | err e ht hp hd => subst ht; exact hs.finishErr_statusOk hp hd
  | ok s' out ht ho hl => subst ht; exact (ho.cleared hs).finishOk_statusOk hl

theorem StepEffect.statusOk {s t : State} (h : StepEffect s t) (hs : s.StatusOk) : t.StatusOk := by
  cases h with
  | bus h => exact h.statusOk hs
  | completes hb h => exact h.statusOk (hs.cleared hb)
  | start ie hb ht => subst ht; exact s.begin_statusOk.setUnrelated ..
  | ieWrite ie ht => subst ht; exact hs.setUnrelated ..
  | srst ie ht => subst ht; exact s.clearAll_statusOk.setUnrelated ..
  | doneClr ht => subst ht; exact hs.clearDone.setUnrelated ..
  | powerOn ht => subst ht; exact s.powerOn_statusOk

theorem step_statusOk {s t : State} (hs : s.StatusOk) (h : step s = .next t) : t.StatusOk := by
  obtain ⟨es, he⟩ := step_stepEffect h
  exact he.statusOk (hs.setUnrelated ..)

/-- Settles O54: canonical memory and the relations between the fields are kept each by itself, by what a step can do. -/
theorem stepKeepsInvariant : Obligations.StepKeepsInvariant := by
  rintro s t ⟨hmem, hstatus⟩ h
  exact ⟨step_memoryOk hmem h, step_statusOk hstatus h⟩

end Sys2Proof.Machine
end

section
/-! # The window's memory: which accesses are taken, and what each changes (20_memory) -/
namespace Sys2Proof.Machine

/-! ## Address decoding (20_memory R73) -/

theorem target_isSome_iff (off w : Nat) :
    (target off w).isSome = true ↔
      (w = 4 ∧ off % 4 = 0 ∧ (off < 0x100 ∨ (0x200 ≤ off ∧ off < 0x1000))) ∨
      ((w = 1 ∨ w = 2 ∨ w = 4) ∧ off % w = 0 ∧
        ((0x100 ≤ off ∧ off < 0x200) ∨ (0x1000 ≤ off ∧ off < 0x1000 + Config.inBufBytes))) := by
  rw [target_eq]
  split_ifs <;> simp only [Option.isSome_some, Option.isSome_none, Bool.false_eq_true, true_iff, false_iff] <;> omega

theorem target_reg_iff {off w a : Nat} :
    target off w = some (.reg a) ↔
      off = a ∧ w = 4 ∧ off % 4 = 0 ∧ (off < 0x100 ∨ (0x200 ≤ off ∧ off < 0x1000)) := by
  rw [target_eq]
  split_ifs <;> simp only [Option.some.injEq, Target.reg.injEq, reduceCtorEq, false_iff] <;> omega

theorem target_outBuf_iff {off w a : Nat} :
    target off w = some (.outBuf a) ↔
      off = 0x100 + a ∧ a < 0x100 ∧ (w = 1 ∨ w = 2 ∨ w = 4) ∧ off % w = 0 := by
  rw [target_eq]
  split_ifs <;> simp only [Option.some.injEq, Target.outBuf.injEq, reduceCtorEq, false_iff] <;> omega

theorem target_inBuf_iff {off w a : Nat} :
    target off w = some (.inBuf a) ↔
      off = 0x1000 + a ∧ a < Config.inBufBytes ∧ (w = 1 ∨ w = 2 ∨ w = 4) ∧ off % w = 0 := by
  rw [target_eq]
  split_ifs <;> simp only [Option.some.injEq, Target.inBuf.injEq, reduceCtorEq, false_iff] <;> omega

/-- An access to OUT_BUF that is taken stays inside it. -/
theorem target_outBuf_inside {off w a : Nat} (h : target off w = some (.outBuf a)) : a + w ≤ 256 := by
  obtain ⟨hoff, ha, hw, hm⟩ := target_outBuf_iff.mp h
  rcases hw with rfl | rfl | rfl <;> omega

/-! ## What the port answers (20_memory R73, R75, R80) -/

theorem busRead_taken {off w : Nat} {t : Target} (s : State) (ht : target off w = some t) :
    busRead off w s = s.setReply (.readOkay (readData s w t)) := by
  simp only [busRead, ht]

theorem busRead_refused {off w : Nat} (s : State) (ht : target off w = none) :
    busRead off w s = s.draw.setReply (.readError (Config.freeReadData s.draws)) := by
  simp only [busRead, ht]

theorem busWrite_refused {off w : Nat} (v : Word) (s : State) (ht : target off w = none) :
    busWrite off w v s = s.setReply .writeError := by
  simp only [busWrite, ht]

theorem busWrite_inBuf {off w a : Nat} (v : Word) (s : State) (ht : target off w = some (.inBuf a)) :
    busWrite off w v s = lockedWrite s (s.storeIn a (lanes w v)) := by
  simp only [busWrite, ht]

theorem lockedWrite_busy {s : State} (s' : State) (hb : s.busy = true) : lockedWrite s s' = s.setReply .writeError := by
  simp [lockedWrite, hb]

theorem lockedWrite_idle {s : State} (s' : State) (hb : s.busy = false) :
    lockedWrite s s' = s'.setReply .writeOkay := by
  simp [lockedWrite, hb]

/-- The input lock: a write that reaches OP, IN_LEN or the input region is refused while BUSY (20_memory R80). -/
theorem busWrite_locked {off w : Nat} (v : Word) {s : State} (hb : s.busy = true)
    (hoff : off = 0x008 ∨ off = 0x00C ∨ 0x1000 ≤ off) : busWrite off w v s = s.setReply .writeError := by
  cases ht : target off w with
  | none => exact busWrite_refused v s ht
  | some t =>
    cases t with
    | reg a =>
      obtain ⟨rfl, -, -, hr⟩ := target_reg_iff.mp ht
      rcases hoff with rfl | rfl | hge
      · simp only [busWrite, ht]; exact lockedWrite_busy _ hb
      · simp only [busWrite, ht]; exact lockedWrite_busy _ hb
      · omega
    | outBuf a =>
      obtain ⟨rfl, ha, -, -⟩ := target_outBuf_iff.mp ht
      omega
    | inBuf a => rw [busWrite_inBuf v s ht, lockedWrite_busy _ hb]

/-- An access the port refuses carries no command: CTRL and STATUS take aligned words. -/
theorem commandOfWrite_of_refused {off w : Nat} (v : Word) (ht : target off w = none) :
    commandOfWrite off w v = none := by
  refine commandOfWrite_eq_none v fun hw => ?_
  subst hw
  constructor <;> rintro rfl <;> revert ht <;> decide

/-- A taken read is of the state's own fields, so the response before it does not show in it. -/
@[simp] theorem readData_setReply (s : State) (r : Reply) (w : Nat) (t : Target) :
    readData (s.setReply r) w t = readData s w t := by
  cases t <;> rfl

theorem step_access (s : State) (a : Access) : step (s.setInputs (.access a :: s.inputs)) = handle (.access a) s := rfl

/-- Settles O42: the address decoding inverted, region by region; what it refuses the port answers ERROR. -/
theorem portTakesExactlyLegalAccesses : Obligations.PortTakesExactlyLegalAccesses := by
  intro s off w
  refine ⟨target_isSome_iff off w, fun a ht => ?_, fun a ht => ?_, fun a ht => ?_, fun ht => ⟨?_, fun v => ?_⟩⟩
  · exact ⟨(target_outBuf_iff.mp ht).1, target_outBuf_inside ht⟩
  · exact ⟨(target_inBuf_iff.mp ht).1, target_inBuf_inside ht⟩
  · obtain ⟨rfl, rfl, hm, hr⟩ := target_reg_iff.mp ht
    omega
  · refine ⟨busRead off w s, Config.freeReadData s.draws, rfl, ?_, busRead_same off w s⟩
    rw [busRead_refused s ht, State.setReply_reply]
  · rw [step_access, handle, serveWrite_noCommand s (commandOfWrite_of_refused v ht), busWrite_refused v s ht]

/-- Settles O50: a taken read answers from fields no read changes. -/
theorem readsHaveNoSideEffect : Obligations.ReadsHaveNoSideEffect := by
  intro s off w t h
  rw [step_access, handle] at h
  cases h
  refine ⟨busRead_same off w s, fun ht => ?_⟩
  obtain ⟨tgt, ht⟩ := Option.isSome_iff_exists.mp ht
  rw [step_access, handle, busRead_taken s ht, busRead_taken _ ht, readData_setReply]
  rfl

/-- Settles O53: every effect a step can have keeps canonical memory. -/
theorem stepKeepsMemoryCanonical : Obligations.StepKeepsMemoryCanonical :=
  fun _ _ => step_memoryOk

/-! ## Bytes and lanes (20_memory R74) -/

/-- Byte `j` of the little-endian value of a byte string. -/
theorem littleEndian_byte (bs : List Byte) {j : Nat} (hj : j < bs.length) :
    bs.foldr (fun b v => b.toNat + 256 * v) 0 / 2 ^ (8 * j) % 256 = bs[j].toNat := by
  induction bs generalizing j with
  | nil => exact absurd hj (Nat.not_lt_zero j)
  | cons b bs ih =>
    have hb := b.isLt
    rw [List.foldr_cons]
    cases j with
    | zero => rw [Nat.mul_zero, pow_zero, Nat.div_one, List.getElem_cons_zero]; omega
    | succ j =>
      rw [List.getElem_cons_succ, ← ih (Nat.lt_of_succ_lt_succ hj), Nat.mul_succ, Nat.add_comm (8 * j), pow_add,
        ← Nat.div_div_eq_div_mul]
      congr 2
      omega

/-- Lane `j` of a data word holds byte `j`; a word has four lanes. -/
theorem ofLanes_lane {bs : List Byte} {j : Nat} (hj : j < bs.length) (h4 : j < 4) :
    (ofLanes bs).extractLsb' (8 * j) 8 = bs[j] := by
  apply BitVec.eq_of_toNat_eq
  rw [← littleEndian_byte bs hj, ofLanes, BitVec.extractLsb'_toNat, BitVec.toNat_ofNat, Nat.shiftRight_eq_div_pow]
  generalize bs.foldr (fun b v => b.toNat + 256 * v) 0 = n
  interval_cases j <;> omega

theorem ofLanes_range_lane (f : Nat → Byte) {w j : Nat} (hw : w ≤ 4) (hj : j < w) :
    (ofLanes ((List.range w).map f)).extractLsb' (8 * j) 8 = f j := by
  rw [ofLanes_lane (by simpa using hj) (by omega)]
  simp

theorem lanes_getElem {w j : Nat} (v : Word) (hj : j < (lanes w v).length) :
    (lanes w v)[j] = v.extractLsb' (8 * j) 8 := by
  simp [lanes]

/-- Settles O45: both buffers answer the word whose lanes are the bytes from the access's address on. -/
theorem bufferReadsByLanes : Obligations.BufferReadsByLanes := by
  intro s a w j hw hm hj
  have hw4 : w ≤ 4 := by omega
  refine ⟨fun ha => ⟨_, busRead_taken s (target_outBuf hw hm ha), ?_⟩,
    fun ha => ⟨_, busRead_taken s (target_inBuf hw hm ha), ?_⟩⟩
  · exact ofLanes_range_lane (fun j => s.outByte (a + j)) hw4 hj
  · exact ofLanes_range_lane (fun j => s.inByte (a + j)) hw4 hj

/-! ## Storing into IN_BUF (44_host_commands R268) -/

/-- A stored byte reads back and is written. -/
theorem State.storeIn_stored {s : State} (h : Memory.wf .inBuf s.inBuf = true) {a j : Nat} {bs : List Byte}
    (hj : j < bs.length) : (s.storeIn a bs).inByte (a + j) = bs[j] ∧ (s.storeIn a bs).written (a + j) = true := by
  have hg : Memory.get .inBuf (s.storeIn a bs).inBuf (a + j) = some bs[j] := by
    rw [State.storeIn_inBuf, Memory.get_setBytes h, if_pos (by omega), Nat.add_sub_cancel_left,
      List.getElem?_eq_getElem hj]
  exact ⟨by simp only [State.inByte, hg], State.written_iff.mpr ⟨_, hg⟩⟩

/-- A byte outside the stored range keeps its value and its WRITTEN bit. -/
theorem State.storeIn_unstored {s : State} (h : Memory.wf .inBuf s.inBuf = true) {a i : Nat} {bs : List Byte}
    (hi : i < a ∨ a + bs.length ≤ i) :
    (s.storeIn a bs).inByte i = s.inByte i ∧ (s.storeIn a bs).written i = s.written i := by
  have hg : Memory.get .inBuf (s.storeIn a bs).inBuf i = Memory.get .inBuf s.inBuf i := by
    rw [State.storeIn_inBuf, Memory.get_setBytes h, if_neg (by omega)]
  simp only [State.inByte, State.written, hg, State.storeIn_resets, and_self]

/-- Settles O46: an idle write to IN_BUF is `storeIn` of the lanes it moves. -/
theorem inBufWriteStoresLanes : Obligations.InBufWriteStoresLanes := by
  intro s a w v hmem hb hw hm ha
  have ht := target_inBuf hw hm ha
  have hinside := target_inBuf_inside ht
  have hwf : Memory.wf .inBuf s.inBuf = true := hmem.1
  refine ⟨(s.storeIn a (lanes w v)).setReply .writeOkay, (s.storeIn a (lanes w v)).inBuf, ?_, rfl, ?_,
    fun j hj => ?_, fun i hi => ?_⟩
  · rw [serveWrite_noCommand s (commandOfWrite_eq_none v (by omega)), busWrite_inBuf v s ht, lockedWrite_idle _ hb]
  · exact (hmem.storeIn (by rwa [lanes_length])).congr rfl rfl
  · rw [← lanes_getElem v (by rwa [lanes_length])]
    exact State.storeIn_stored hwf _
  · exact State.storeIn_unstored hwf (by rwa [lanes_length])

/-! ## CTRL and STATUS writes (44_host_commands R260 to R264) -/

theorem serveWrite_ctrl (v : Word) (s : State) : serveWrite 0x004 4 v s = exec (decodeCtrl v) s := rfl

/-- Every CTRL write is answered OKAY, whatever its command. -/
theorem serveWrite_ctrl_okay (v : Word) (s : State) :
    ∃ t, serveWrite 0x004 4 v s = .next t ∧ t.reply = .writeOkay := by
  rw [serveWrite_ctrl]
  rcases decodeCtrl_cases v with ⟨ie, hd⟩ | ⟨st, ie, hd⟩ | ⟨ie, hd⟩ <;> rw [hd] <;> exact ⟨_, rfl, rfl⟩

/-- A STATUS write clears DONE if bit 1 is set; it is answered OKAY either way. -/
theorem serveWrite_status (v : Word) (s : State) :
    serveWrite 0x010 4 v s = .next ((if v.getLsbD 1 = true then s.clearDone else s).setReply .writeOkay) := by
  cases hv : v.getLsbD 1
  · exact serveWrite_status_noCommand s hv
  · have hd : decode (.statusWrite v) = .ok .doneClr := by simp only [decode, decodeStatus, hv, if_true]
    exact serveWrite_command s rfl hd

/-- START while BUSY is ignored, but for its IE bit (44_host_commands R260). -/
theorem execStart_busy {s : State} (ie : Bool) (hb : s.busy = true) :
    execStart ie s = .next ((s.setIe ie).setReply .writeOkay) := by
  simp only [execStart, hb, cond_true, ctrlWriteEnd]

/-- A CTRL write that is neither a soft reset nor an accepted START writes IE alone. -/
theorem serveWrite_ctrl_ie {v : Word} {s : State} (h1 : v.getLsbD 1 = false)
    (h0 : v.getLsbD 0 = true → s.busy = true) :
    serveWrite 0x004 4 v s = .next ((s.setIe (v.getLsbD 2)).setReply .writeOkay) := by
  rw [serveWrite_ctrl, decodeCtrl, if_neg (Bool.eq_false_iff.mp h1)]
  split
  case isTrue h => exact execStart_busy _ (h0 h)
  case isFalse h => rfl

/-! ## The input lock (20_memory R80) -/

theorem BusEffect.inBuf_of_busy {s t : State} (h : BusEffect s t) (hb : s.busy = true) : t.inBuf = s.inBuf := by
  cases h with
  | none h => obtain ⟨r, d, rfl⟩ := h; rfl
  | opCode v hi ht => subst ht; rfl
  | inLen v hi ht => subst ht; rfl
  | inBuf a bs hi ha ht => simp [hb] at hi

theorem Completes.inBuf {s t : State} {n : Nat} (h : Completes s n t) : t.inBuf = s.inBuf := by
  cases h with
  | err e ht hp hd => subst ht; rfl
  | ok s' out ht ho hl => subst ht; exact ho.inBuf

theorem sequencerStep_inBuf {s t : State} (h : sequencerStep s = .next t) : t.inBuf = s.inBuf := by
  rcases sequencerStep_cases s with ⟨-, hs⟩ | ⟨-, hs⟩ | ⟨-, op, -, hs⟩
  · cases hs.symm.trans h; rfl
  · cases hs.symm.trans h; rfl
  · exact (runOperation_completes (hs.symm.trans h)).inBuf

/-- No write changes IN_BUF while BUSY: a soft reset keeps its bytes, a START is ignored. -/
theorem serveWrite_inBuf_of_busy {off w : Nat} {v : Word} {s t : State} (hb : s.busy = true)
    (h : serveWrite off w v s = .next t) : t.inBuf = s.inBuf := by
  rcases serveWrite_effect off w v s with ⟨t', ho, ht⟩ | ⟨ie, ho⟩ | ⟨st, ie, ho⟩ | ⟨ie, ho⟩ | ho
  · cases ho.symm.trans h; exact ht.inBuf_of_busy hb
  · rw [execStart_busy ie hb] at ho
    cases ho.symm.trans h; rfl
  all_goals cases ho.symm.trans h; rfl

/-- While BUSY only a reset event changes a byte of IN_BUF or its WRITTEN bit. -/
theorem handle_inBuf_of_busy {e : Event} {s t : State} (hb : s.busy = true) (he : e ≠ .powerOn)
    (h : handle e s = .next t) : t.inBuf = s.inBuf := by
  cases e with
  | access a =>
    cases a with
    | read off w => cases h; exact (BusEffect.none (busRead_same off w s)).inBuf_of_busy hb
    | write off w v => exact serveWrite_inBuf_of_busy hb h
  | sequencer => exact sequencerStep_inBuf h
  | powerOn => exact absurd rfl he

/-- Settles O49: the lock of the three targets, the accesses still served, and IN_BUF over one event. -/
theorem inputLockWhileBusy : Obligations.InputLockWhileBusy := by
  intro s hb
  refine ⟨fun off w v hoff => ?_, fun off w t ht => busRead_taken s ht,
    fun v => ⟨serveWrite_ctrl_okay v s, _, serveWrite_status v s, rfl⟩, fun e es t hi he h => ?_⟩
  · rw [serveWrite_noCommand s (commandOfWrite_eq_none v (by omega)), busWrite_locked v hb hoff]
    rfl
  · rw [step_cons hi] at h
    exact handle_inBuf_of_busy (s := s.setInputs es) hb he h

/-! ## How long results stay (20_memory R82) -/

/-- The result fields read neither the parameters, IE, DONE and IN_BUF nor the model's own fields. -/
theorem State.sameResult_setUnrelated (s : State) (ie : Bool) (c : BitVec 4) (l : Word) (done : Bool) (m : Memory)
    (d : Nat) (r : Reply) (es : List Event) :
    s.SameResult { s with
      ie := ie, opCode := c, inLen := l, done := done, inBuf := m, draws := d, reply := r, inputs := es } :=
  ⟨rfl, rfl, rfl, rfl, rfl, fun _ => rfl⟩

theorem BusEffect.sameResult {s t : State} (h : BusEffect s t) : s.SameResult t := by
  cases h with
  | none h => obtain ⟨r, d, rfl⟩ := h; exact s.sameResult_setUnrelated ..
  | opCode v hb ht => subst ht; exact s.sameResult_setUnrelated ..
  | inLen v hb ht => subst ht; exact s.sameResult_setUnrelated ..
  | inBuf a bs hb ha ht => subst ht; exact s.sameResult_setUnrelated ..

/-- A write that neither aborts nor starts an operation keeps the results: on CTRL it writes IE alone, on STATUS it clears
DONE at most, elsewhere it reaches no result register. -/
theorem serveWrite_sameResult {off w : Nat} {v : Word} {s t : State}
    (ha : Event.aborts (.access (.write off w v)) = false)
    (hs : Event.startsOperation s (.access (.write off w v)) = false) (h : serveWrite off w v s = .next t) :
    s.SameResult t := by
  cases hc : commandOfWrite off w v with
  | none =>
    cases (serveWrite_noCommand s hc).symm.trans h
    exact (busWrite_effect off w v s).sameResult
  | some e =>
    obtain ⟨rfl, ⟨rfl, -⟩ | ⟨rfl, -⟩⟩ := commandOfWrite_cases hc
    · have h1 : v.getLsbD 1 = false := ha
      have hs : (!v.getLsbD 1 && v.getLsbD 0 && !s.busy) = false := hs
      have h0 : v.getLsbD 0 = true → s.busy = true := by rw [h1] at hs; simpa using hs
      cases (serveWrite_ctrl_ie h1 h0).symm.trans h
      exact s.sameResult_setUnrelated ..
    · cases (serveWrite_status v s).symm.trans h
      split <;> exact s.sameResult_setUnrelated ..

theorem handle_sameResult {e : Event} {s t : State} (ha : e.aborts = false) (hs : e.startsOperation s = false)
    (hq : e = .sequencer → s.busy = false) (h : handle e s = .next t) : s.SameResult t := by
  cases e with
  | access a =>
    cases a with
    | read off w => cases h; exact (BusEffect.none (busRead_same off w s)).sameResult
    | write off w v => exact serveWrite_sameResult ha hs h
  | sequencer =>
    cases (sequencerStep_idle (hq rfl)).symm.trans h
    exact s.sameResult_setUnrelated ..
  | powerOn => cases ha

/-- Whether an event starts an operation does not depend on the events after it. -/
theorem Event.startsOperation_setInputs (e : Event) (s : State) (es : List Event) :
    e.startsOperation (s.setInputs es) = e.startsOperation s := by
  cases e with
  | access a => cases a <;> rfl
  | sequencer => rfl
  | powerOn => rfl

/-- Settles O56: event by event, `handle_sameResult`; taking the event off the list changes no result. -/
theorem resultsStayUntilNextStart : Obligations.ResultsStayUntilNextStart := by
  intro s e es t hi ha hs hq h
  rw [step_cons hi] at h
  exact handle_sameResult (s := s.setInputs es) ha (by rwa [Event.startsOperation_setInputs]) hq h

end Sys2Proof.Machine
end

section
/-! # Encoding: decoder and encoder, lengths, operand lists and output lengths (30_encoding) -/
namespace Sys2Proof.Machine

/-! ## Operation codes (30_encoding R100, R101) -/

/-- The OP_CODE of an operation (30_encoding R100). -/
def operationCode : Operation → Nat
  | .g1add => 1
  | .g1mul => 2
  | .g1multiexp => 3
  | .g2add => 4
  | .g2mul => 5
  | .g2multiexp => 6
  | .pairing => 7

theorem opCodeOf_toNat (opReg : Word) : (opCodeOf opReg).toNat = opReg.toNat % 16 := by
  simp [opCodeOf]

theorem operationCode_lt (op : Operation) : operationCode op < 8 := by cases op <;> decide

theorem opCodeOf_operationCode (op : Operation) :
    (opCodeOf (BitVec.ofNat 32 (operationCode op))).toNat = operationCode op := by
  have := operationCode_lt op
  rw [opCodeOf_toNat, BitVec.toNat_ofNat]
  omega

theorem encode_instrOf (op : Operation) (n : Nat) :
    encode (instrOf op n) = .op (BitVec.ofNat 32 (operationCode op)) (BitVec.ofNat 32 n) := by
  cases op <;> rfl

theorem operationCode_eq_of_instrOf_eq {a b : Operation} {n : Nat} (h : instrOf a n = instrOf b n) :
    operationCode a = operationCode b := by
  have he := congrArg encode h
  rw [encode_instrOf, encode_instrOf] at he
  injection he with hw
  rw [← opCodeOf_operationCode a, hw, opCodeOf_operationCode]

theorem decodeOp_of_code {c : BitVec 4} {op : Operation} (l : Word) (h : c.toNat = operationCode op) :
    decodeOp c l = .ok (instrOf op l.toNat) := by
  cases op <;> simp only [decodeOp, h, operationCode, instrOf]

theorem decodeOp_reserved {c : BitVec 4} (l : Word) (h : c.toNat = 0 ∨ 8 ≤ c.toNat) :
    decodeOp c l = .error (.reservedOpCode c) := by
  unfold decodeOp
  split
  case h_8 => rfl
  all_goals omega

/-- Every number is the code of an operation or reserved. -/
theorem exists_operationCode_or_reserved (c : Nat) : (∃ op, c = operationCode op) ∨ c = 0 ∨ 8 ≤ c := by
  match c with
  | 0 => exact .inr (.inl rfl)
  | 1 => exact .inl ⟨.g1add, rfl⟩
  | 2 => exact .inl ⟨.g1mul, rfl⟩
  | 3 => exact .inl ⟨.g1multiexp, rfl⟩
  | 4 => exact .inl ⟨.g2add, rfl⟩
  | 5 => exact .inl ⟨.g2mul, rfl⟩
  | 6 => exact .inl ⟨.g2multiexp, rfl⟩
  | 7 => exact .inl ⟨.pairing, rfl⟩
  | c + 8 => exact .inr (.inr (Nat.le_add_left 8 c))

theorem decodeOp_ok_iff {c : BitVec 4} {l : Word} {op : Operation} :
    decodeOp c l = .ok (instrOf op l.toNat) ↔ c.toNat = operationCode op := by
  refine ⟨fun h => ?_, decodeOp_of_code l⟩
  rcases exists_operationCode_or_reserved c.toNat with ⟨op', hc⟩ | hr
  · exact hc.trans (operationCode_eq_of_instrOf_eq (Except.ok.inj ((decodeOp_of_code l hc).symm.trans h)))
  · cases (decodeOp_reserved l hr).symm.trans h

theorem decodeOp_error_iff {c : BitVec 4} {l : Word} :
    (∃ e, decodeOp c l = .error e) ↔ c.toNat = 0 ∨ 8 ≤ c.toNat := by
  refine ⟨fun ⟨e, h⟩ => ?_, fun h => ⟨_, decodeOp_reserved l h⟩⟩
  rcases exists_operationCode_or_reserved c.toNat with ⟨op, hc⟩ | hr
  · cases (decodeOp_of_code l hc).symm.trans h
  · exact hr

/-- Settles O3: the decoder reads the code in bits [3:0] of OP, and inverts `operationCode`. -/
theorem opCodeSelectsOperation : Obligations.OpCodeSelectsOperation := by
  intro opReg len
  rw [← opCodeOf_toNat]
  exact ⟨fun _ => decodeOp_ok_iff, decodeOp_error_iff⟩

/-! ## Commands (30_encoding R102, R103) -/

theorem decodeCtrl_srst {v : Word} (h1 : v.getLsbD 1 = true) : decodeCtrl v = .srst (v.getLsbD 0) (v.getLsbD 2) :=
  if_pos h1

theorem decodeCtrl_start {v : Word} (h1 : v.getLsbD 1 = false) (h0 : v.getLsbD 0 = true) :
    decodeCtrl v = .start (v.getLsbD 2) := by
  rw [decodeCtrl, if_neg (Bool.eq_false_iff.mp h1), if_pos h0]

theorem decodeCtrl_ieWrite {v : Word} (h1 : v.getLsbD 1 = false) (h0 : v.getLsbD 0 = false) :
    decodeCtrl v = .ieWrite (v.getLsbD 2) := by
  rw [decodeCtrl, if_neg (Bool.eq_false_iff.mp h1), if_neg (Bool.eq_false_iff.mp h0)]

theorem decodeStatus_doneClr_iff {v : Word} : decodeStatus v = .ok .doneClr ↔ v.getLsbD 1 = true := by
  unfold decodeStatus
  split
  next h => exact iff_of_true rfl h
  next h => exact iff_of_false nofun h

/-- Settles O4: three equations of the CTRL decoder, and the two writes that carry a command. -/
theorem commandBitsDecideCommand : Obligations.CommandBitsDecideCommand := by
  refine ⟨fun v => ?_, fun v => decodeStatus_doneClr_iff, fun e a h => ?_⟩
  · refine congrArg Except.ok ?_
    split
    next h1 => exact decodeCtrl_srst h1
    next h1 h0 => exact decodeCtrl_start h1 h0
    next h1 h0 => exact decodeCtrl_ieWrite h1 h0
  · cases e with
    | op opReg inLen => cases h
    | ctrlWrite v => cases h; exact ⟨_, _, v, rfl, rfl⟩
    | statusWrite v => cases h; exact ⟨_, _, v, rfl, rfl⟩

/-! ## Decoding what was encoded -/

theorem wellFormed_instrOf {op : Operation} {n : Nat} : (instrOf op n).wellFormed = true ↔ n < 2 ^ 32 := by
  cases op <;> exact iff_of_eq Nat.blt_eq

/-- An instruction is one of the seven operations or one of the four commands. -/
theorem instr_cases (i : Instr) :
    (∃ op n, i = instrOf op n) ∨ (∃ ie, i = .start ie) ∨ (∃ st ie, i = .srst st ie) ∨ (∃ ie, i = .ieWrite ie) ∨
      i = .doneClr := by
  cases i with
  | g1add n => exact .inl ⟨.g1add, n, rfl⟩
  | g1mul n => exact .inl ⟨.g1mul, n, rfl⟩
  | g1multiexp n => exact .inl ⟨.g1multiexp, n, rfl⟩
  | g2add n => exact .inl ⟨.g2add, n, rfl⟩
  | g2mul n => exact .inl ⟨.g2mul, n, rfl⟩
  | g2multiexp n => exact .inl ⟨.g2multiexp, n, rfl⟩
  | pairing n => exact .inl ⟨.pairing, n, rfl⟩
  | start ie => exact .inr (.inl ⟨ie, rfl⟩)
  | srst st ie => exact .inr (.inr (.inl ⟨st, ie, rfl⟩))
  | ieWrite ie => exact .inr (.inr (.inr (.inl ⟨ie, rfl⟩)))
  | doneClr => exact .inr (.inr (.inr (.inr rfl)))

/-- A length that fits the 32-bit register is read back as it was written. -/
theorem decode_encode_instrOf (op : Operation) {n : Nat} (h : n < 2 ^ 32) :
    decode (encode (instrOf op n)) = .ok (instrOf op n) := by
  have hn : (BitVec.ofNat 32 n).toNat = n := Nat.mod_eq_of_lt h
  rw [encode_instrOf, decode, decodeOp_of_code _ (opCodeOf_operationCode op), hn]

theorem ctrlWriteWord_bits (start srst ie : Bool) :
    (ctrlWriteWord start srst ie).getLsbD 0 = start ∧ (ctrlWriteWord start srst ie).getLsbD 1 = srst ∧
      (ctrlWriteWord start srst ie).getLsbD 2 = ie := by
  revert start srst ie; decide

/-- The command a CTRL word carries, SRST before START (30_encoding R102). -/
theorem decodeCtrl_ctrlWriteWord (start srst ie : Bool) :
    decodeCtrl (ctrlWriteWord start srst ie) =
      if srst then .srst start ie else if start then .start ie else .ieWrite ie := by
  obtain ⟨h0, h1, h2⟩ := ctrlWriteWord_bits start srst ie
  rw [decodeCtrl, h0, h1, h2]

/-- Settles O2: an operation by its code and length, a command by the bits of the word written. -/
theorem decodeEncodeRoundTrip : Obligations.DecodeEncodeRoundTrip := by
  intro i hi
  rcases instr_cases i with ⟨op, n, rfl⟩ | ⟨ie, rfl⟩ | ⟨st, ie, rfl⟩ | ⟨ie, rfl⟩ | rfl
  · exact decode_encode_instrOf op (wellFormed_instrOf.mp hi)
  · exact congrArg Except.ok (decodeCtrl_ctrlWriteWord true false ie)
  · exact congrArg Except.ok (decodeCtrl_ctrlWriteWord st true ie)
  · exact congrArg Except.ok (decodeCtrl_ctrlWriteWord false false ie)
  · exact decodeStatus_doneClr_iff.mpr rfl

/-- Settles O1: the words are literals, so the decoder is evaluated on them. -/
theorem sampleWordsDecode : Obligations.SampleWordsDecode :=
  ⟨rfl, rfl, rfl, rfl, rfl, rfl, rfl, rfl, rfl, rfl, rfl, rfl, rfl, rfl, rfl, rfl, rfl, rfl, rfl⟩

/-! ## A reserved code (30_encoding R125, 42_dispatch R208) -/

theorem errCompletion_finishErr (s : State) (e : OpError) : ErrCompletion s (s.finishErr e) e where
  ended := ⟨rfl, rfl, rfl, rfl⟩
  inputs := ⟨rfl, rfl, rfl, rfl, rfl, rfl, rfl, rfl, rfl, rfl⟩
  error := ⟨rfl, rfl, rfl, rfl⟩
  output := ⟨rfl, fun _ => rfl⟩
  accumulators := ⟨rfl, rfl, rfl⟩

theorem sequencerStep_reserved {s : State} (hb : s.busy = true) (hc : s.lOp.toNat = 0 ∨ 8 ≤ s.lOp.toNat) :
    sequencerStep s = .next (s.finishErr ⟨.invalidOperation, 0, false⟩) := by
  simp only [sequencerStep, hb, cond_true, decode_latched, decodeOp_reserved _ hc, completeReserved, complete]

/-- Settles O7: the completion is the shared error completion, whatever L_LEN and IN_BUF hold. -/
theorem reservedCodeCompletesInvalidOperation : Obligations.ReservedCodeCompletesInvalidOperation := by
  intro s es hi hb hc
  refine ⟨(s.setInputs es).finishErr ⟨.invalidOperation, 0, false⟩, ?_, errCompletion_finishErr _ _, rfl⟩
  rw [step_cons hi]
  exact sequencerStep_reserved (s := s.setInputs es) hb hc

/-! ## Input lengths (30_encoding R120) -/

theorem frameBytes_pos (op : Operation) : 0 < frameBytes op := by cases op <;> decide

theorem lengthOk_fixed_iff {op : Operation} (h : fixedLength op = true) (n : Nat) :
    lengthOk op n = true ↔ n = frameBytes op := by
  rw [lengthOk, h, cond_true, Nat.beq_eq]

theorem lengthOk_unit_iff {op : Operation} (h : fixedLength op = false) (n : Nat) :
    lengthOk op n = true ↔ ∃ k, 1 ≤ k ∧ n = frameBytes op * k := by
  rw [lengthOk, h, cond_false, Bool.and_eq_true, Nat.beq_eq, Nat.ble_eq, ← Nat.dvd_iff_mod_eq_zero]
  constructor
  · rintro ⟨⟨k, rfl⟩, hle⟩
    exact ⟨k, Nat.pos_of_mul_pos_left ((frameBytes_pos op).trans_le hle), rfl⟩
  · rintro ⟨k, hk, rfl⟩
    exact ⟨⟨k, rfl⟩, Nat.le_mul_of_pos_right _ hk⟩

@[simp] theorem pairCount_mul (op : Operation) (k : Nat) : pairCount op (frameBytes op * k) = k :=
  Nat.mul_div_cancel_left k (frameBytes_pos op)

theorem exists_frames_of_lengthOk {op : Operation} {n : Nat} (h : lengthOk op n = true) :
    ∃ k, n = frameBytes op * k := by
  cases hf : fixedLength op
  · obtain ⟨k, -, hk⟩ := (lengthOk_unit_iff hf n).mp h
    exact ⟨k, hk⟩
  · exact ⟨1, by rw [Nat.mul_one, (lengthOk_fixed_iff hf n).mp h]⟩

/-- Settles O11: one frame exactly, or any positive number of frames. -/
theorem lengthTable : Obligations.LengthTable := by
  intro n
  exact ⟨lengthOk_fixed_iff rfl n, lengthOk_fixed_iff rfl n, lengthOk_unit_iff rfl n, lengthOk_fixed_iff rfl n,
    lengthOk_fixed_iff rfl n, lengthOk_unit_iff rfl n, lengthOk_unit_iff rfl n,
    fun k => ⟨pairCount_mul .g1multiexp k, pairCount_mul .g2multiexp k, pairCount_mul .pairing k⟩⟩

/-! ## Operand lists (30_encoding R122) -/

/-- The operands of frame `i`, at offsets in the input. -/
def operandsOfFrame (op : Operation) (i : Nat) : List Operand :=
  (frameOperands op).map fun o => ⟨o.type, frameBytes op * i + o.off⟩

theorem operands_mul (op : Operation) (k : Nat) :
    operands op (frameBytes op * k) = (List.range k).flatMap (operandsOfFrame op) := by
  rw [operands, pairCount_mul]
  rfl

theorem Tiles.append {a b c : Nat} {os os' : List Operand} (h : Tiles a b os) (h' : Tiles b c os') :
    Tiles a c (os ++ os') := by
  induction os generalizing a with
  | nil => cases h; exact h'
  | cons o os ih =>
    obtain ⟨hoff, hrest⟩ := h
    exact ⟨hoff, ih hrest⟩

/-- One frame's operands fill the frame: a point and a point, or a point and a scalar. -/
theorem operandsOfFrame_tiles (op : Operation) (i : Nat) :
    Tiles (frameBytes op * i) (frameBytes op * (i + 1)) (operandsOfFrame op i) := by
  cases op <;> exact ⟨rfl, rfl, rfl⟩

theorem frames_tile (op : Operation) (k : Nat) :
    Tiles 0 (frameBytes op * k) ((List.range k).flatMap (operandsOfFrame op)) := by
  induction k with
  | zero => rfl
  | succ k ih =>
    rw [List.range_succ, List.flatMap_append, List.flatMap_singleton]
    exact ih.append (operandsOfFrame_tiles op k)

/-- Settles O12: the input is a row of frames, each tiled by its own operands. -/
theorem operandListsTileInput : Obligations.OperandListsTileInput := by
  refine ⟨operands_mul .g1add 1, operands_mul .g1mul 1, operands_mul .g1multiexp, operands_mul .g2add 1,
    operands_mul .g2mul 1, operands_mul .g2multiexp, operands_mul .pairing, ⟨rfl, rfl, rfl⟩, fun op n h => ?_⟩
  obtain ⟨k, rfl⟩ := exists_frames_of_lengthOk h
  rw [operands_mul]
  exact frames_tile op k

/-! ## Output lengths (30_encoding R121) -/

/-- Settles O35: an error leaves the cleared OUT_LEN, a success records the length of its output. -/
theorem outputLengths : Obligations.OutputLengths := by
  intro op n s t hs h
  rw [exec_instrOf] at h
  rcases runOperation_cases op n s with ⟨hr, -⟩ | ⟨e, hr, -⟩ | ⟨s', out, hr, -, honly, hout⟩ <;>
    cases hr.symm.trans h
  · obtain ⟨-, -, -, -, hlen, -⟩ := hs
    rw [if_pos (State.finishErr_err s e), State.finishErr_outLen, hlen]
  · obtain ⟨herr, -⟩ := honly.cleared hs
    rw [State.finishOk_err, herr, if_neg Bool.false_ne_true, State.finishOk_outLen, hout]
    cases op <;> rfl

end Sys2Proof.Machine
end

section
/-! # The byte codec: round trip, canonical encodings, the first bad word (40_codec R140 to R152) -/
namespace Sys2Proof.Machine

/-! ## One word (40_codec R140, R146) -/

theorem decodeFq_eq_ok_iff {w : List Byte} {pos : Nat} {v : Fq} :
    decodeFq w pos = .ok v ↔ allZero (w.take 16) = true ∧ be (w.drop 16) = v.val := by
  unfold decodeFq
  split
  · split
    · simp_all [Fin.ext_iff]
    · have := v.isLt
      simp_all
      omega
  · simp_all

/-- The value of an element fits its 48 bytes: `P < 256^48`. -/
theorem be_beBytes_val (v : Fq) : be (beBytes 48 v.val) = v.val :=
  be_beBytes (v.isLt.trans (by decide))

theorem decodeFq_encodeFq (v : Fq) (pos : Nat) : decodeFq (encodeFq v) pos = .ok v := by
  rw [decodeFq_eq_ok_iff, encodeFq, List.take_left' (zeros_length 16), List.drop_left' (zeros_length 16)]
  exact ⟨allZero_zeros 16, be_beBytes_val v⟩

theorem eq_encodeFq_of_decodeFq {w : List Byte} {pos : Nat} {v : Fq} (hl : w.length = 64)
    (h : decodeFq w pos = .ok v) : w = encodeFq v := by
  obtain ⟨hpad, hval⟩ := decodeFq_eq_ok_iff.mp h
  have hz : w.take 16 = zeros 16 := by simpa [hl] using (allZero_iff _).mp hpad
  have hb : w.drop 16 = beBytes 48 v.val := by simpa [hl, hval] using (beBytes_be (w.drop 16)).symm
  rw [encodeFq, ← hz, ← hb, List.take_append_drop]

theorem allZero_encodeFq {v : Fq} : allZero (encodeFq v) = true ↔ v = fqOfNat 0 := by
  rw [encodeFq, allZero_append, allZero_zeros, Bool.true_and, ← be_eq_zero_iff, be_beBytes_val]
  rw [Fin.ext_iff]
  rfl

theorem allZero_encodeFq2 {v : Fq2} : allZero (encodeFq2 v) = true ↔ v = fq2OfNat 0 := by
  rw [encodeFq2, allZero_append, Bool.and_eq_true, allZero_encodeFq, allZero_encodeFq]
  cases v
  simp [fq2OfNat]

/-! ## Two operands in wire order (40_codec R141) -/

theorem decodePair_eq_error_iff {α β : Type} {x : Except OpError α} {y : Except OpError β} {e : OpError} :
    decodePair x y = .error e ↔ x = .error e ∨ (∃ a, x = .ok a) ∧ y = .error e := by
  unfold decodePair
  cases x <;> cases y <;> simp

theorem decodeFq2_eq_ok_iff {bs : List Byte} {pos : Nat} {v : Fq2} :
    decodeFq2 bs pos = .ok v ↔
      decodeFq (bs.take 64) pos = .ok v.c0 ∧ decodeFq (bs.drop 64) (pos + 64) = .ok v.c1 := by
  rw [← decodePair_ok (ab := (v.c0, v.c1)), decodeFq2]
  cases v
  split <;> next h => simp [h]

theorem decodeFq2_eq_error_iff {bs : List Byte} {pos : Nat} {e : OpError} :
    decodeFq2 bs pos = .error e ↔ decodeFq (bs.take 64) pos = .error e ∨
      (∃ a, decodeFq (bs.take 64) pos = .ok a) ∧ decodeFq (bs.drop 64) (pos + 64) = .error e := by
  rw [← decodePair_eq_error_iff, decodeFq2]
  split <;> next h => simp [h]

theorem decodeFq2_encodeFq2 (v : Fq2) (pos : Nat) : decodeFq2 (encodeFq2 v) pos = .ok v := by
  rw [decodeFq2_eq_ok_iff, encodeFq2, List.take_left' (encodeFq_length _), List.drop_left' (encodeFq_length _)]
  exact ⟨decodeFq_encodeFq _ _, decodeFq_encodeFq _ _⟩

theorem eq_encodeFq2_of_decodeFq2 {bs : List Byte} {pos : Nat} {v : Fq2} (hl : bs.length = 128)
    (h : decodeFq2 bs pos = .ok v) : bs = encodeFq2 v := by
  obtain ⟨h0, h1⟩ := decodeFq2_eq_ok_iff.mp h
  rw [encodeFq2, ← eq_encodeFq_of_decodeFq (by simp [hl]) h0, ← eq_encodeFq_of_decodeFq (by simp [hl]) h1,
    List.take_append_drop]

/-! ## A point, over either field (40_codec R143, R144)

The two point decoders differ in their coordinates alone: `decodeG1_eq` and `decodeG2_eq`. -/

/-- A point from its bytes and the results of its two coordinates: the sentinel, then x, then y. -/
def pointOfCoords {F : Type} (bs : List Byte) (x y : Except OpError F) : Except OpError (Point F) :=
  if allZero bs then .ok .inf
  else
    match decodePair x y with
    | .ok (x, y) => .ok (.aff x y)
    | .error e => .error e

theorem decodeG1_eq (bs : List Byte) (pos : Nat) :
    decodeG1 bs pos = pointOfCoords bs (decodeFq (bs.take 64) pos) (decodeFq (bs.drop 64) (pos + 64)) := by
  rw [decodeG1, pointOfCoords]
  cases decodePair (decodeFq (bs.take 64) pos) (decodeFq (bs.drop 64) (pos + 64)) <;> rfl

theorem decodeG2_eq (bs : List Byte) (pos : Nat) :
    decodeG2 bs pos = pointOfCoords bs (decodeFq2 (bs.take 128) pos) (decodeFq2 (bs.drop 128) (pos + 128)) := by
  rw [decodeG2, pointOfCoords]
  cases decodePair (decodeFq2 (bs.take 128) pos) (decodeFq2 (bs.drop 128) (pos + 128)) <;> rfl

section
variable {F : Type} {bs : List Byte} {x y : Except OpError F}

theorem pointOfCoords_of_allZero (h : allZero bs = true) : pointOfCoords bs x y = .ok .inf := if_pos h

theorem pointOfCoords_eq_inf_iff : pointOfCoords bs x y = .ok .inf ↔ allZero bs = true := by
  refine ⟨fun h => ?_, pointOfCoords_of_allZero⟩
  unfold pointOfCoords at h
  split at h
  · assumption
  · split at h <;> cases h

theorem pointOfCoords_eq_aff_iff {a b : F} :
    pointOfCoords bs x y = .ok (.aff a b) ↔ allZero bs = false ∧ x = .ok a ∧ y = .ok b := by
  rw [← decodePair_ok (ab := (a, b)), pointOfCoords]
  split
  · simp_all
  · split <;> simp_all

theorem pointOfCoords_eq_error_iff {e : OpError} : pointOfCoords bs x y = .error e ↔
    allZero bs = false ∧ (x = .error e ∨ (∃ a, x = .ok a) ∧ y = .error e) := by
  rw [← decodePair_eq_error_iff, pointOfCoords]
  split
  · simp_all
  · split <;> simp_all

end

/-! ## Decode of encode (40_codec R151) -/

theorem onCurve_g1_zero : onCurve fqOps Config.B1 (.aff (fqOfNat 0) (fqOfNat 0)) = false := by decide

theorem onCurve_g2_zero : onCurve fq2Ops Config.B2 (.aff (fq2OfNat 0) (fq2OfNat 0)) = false := by decide

theorem allZero_encodeG1_aff {x y : Fq} :
    allZero (encodeG1 (.aff x y)) = true ↔ x = fqOfNat 0 ∧ y = fqOfNat 0 := by
  rw [encodeG1, allZero_append, Bool.and_eq_true, allZero_encodeFq, allZero_encodeFq]

theorem allZero_encodeG2_aff {x y : Fq2} :
    allZero (encodeG2 (.aff x y)) = true ↔ x = fq2OfNat 0 ∧ y = fq2OfNat 0 := by
  rw [encodeG2, allZero_append, Bool.and_eq_true, allZero_encodeFq2, allZero_encodeFq2]

theorem decodeG1_encodeG1 {q : G1} (pos : Nat) (hq : onCurve fqOps Config.B1 q = true) :
    decodeG1 (encodeG1 q) pos = .ok q := by
  rw [decodeG1_eq]
  cases q with
  | inf => exact pointOfCoords_of_allZero (allZero_zeros 128)
  | aff x y =>
    have hz : allZero (encodeG1 (.aff x y)) = false := by
      rw [Bool.eq_false_iff, ne_eq, allZero_encodeG1_aff]
      rintro ⟨rfl, rfl⟩
      exact absurd hq (Bool.eq_false_iff.mp onCurve_g1_zero)
    refine pointOfCoords_eq_aff_iff.mpr ⟨hz, ?_, ?_⟩
    · rw [encodeG1, List.take_left' (encodeFq_length x), decodeFq_encodeFq]
    · rw [encodeG1, List.drop_left' (encodeFq_length x), decodeFq_encodeFq]

theorem decodeG2_encodeG2 {q : G2} (pos : Nat) (hq : onCurve fq2Ops Config.B2 q = true) :
    decodeG2 (encodeG2 q) pos = .ok q := by
  rw [decodeG2_eq]
  cases q with
  | inf => exact pointOfCoords_of_allZero (allZero_zeros 256)
  | aff x y =>
    have hz : allZero (encodeG2 (.aff x y)) = false := by
      rw [Bool.eq_false_iff, ne_eq, allZero_encodeG2_aff]
      rintro ⟨rfl, rfl⟩
      exact absurd hq (Bool.eq_false_iff.mp onCurve_g2_zero)
    refine pointOfCoords_eq_aff_iff.mpr ⟨hz, ?_, ?_⟩
    · rw [encodeG2, List.take_left' (encodeFq2_length x), decodeFq2_encodeFq2]
    · rw [encodeG2, List.drop_left' (encodeFq2_length x), decodeFq2_encodeFq2]

/-- Settles O8: a point on its curve is not `Aff(0, 0)`, so its encoding is not the sentinel and its words are read
back one by one. -/
theorem decodeOfEncodeIsIdentity : Obligations.DecodeOfEncodeIsIdentity := by
  refine ⟨decodeFq_encodeFq, fun _ => decodeG1_encodeG1, fun _ => decodeG2_encodeG2, fun pos => ⟨?_, ?_⟩,
    onCurve_g1_zero, onCurve_g2_zero⟩
  · rw [decodeG1_eq, pointOfCoords_of_allZero (allZero_encodeG1_aff.mpr ⟨rfl, rfl⟩)]
  · rw [decodeG2_eq, pointOfCoords_of_allZero (allZero_encodeG2_aff.mpr ⟨rfl, rfl⟩)]

/-! ## One accepted encoding (40_codec R152) -/

theorem allZero_iff_of_length {bs : List Byte} {n : Nat} (hl : bs.length = n) :
    allZero bs = true ↔ bs = zeros n := hl ▸ allZero_iff bs

theorem eq_encodeG1_of_decodeG1 {bs : List Byte} {pos : Nat} {q : G1} (hl : bs.length = 128)
    (h : decodeG1 bs pos = .ok q) : bs = encodeG1 q := by
  rw [decodeG1_eq] at h
  cases q with
  | inf => exact (allZero_iff_of_length hl).mp (pointOfCoords_eq_inf_iff.mp h)
  | aff x y =>
    obtain ⟨-, hx, hy⟩ := pointOfCoords_eq_aff_iff.mp h
    rw [encodeG1, ← eq_encodeFq_of_decodeFq (by simp [hl]) hx, ← eq_encodeFq_of_decodeFq (by simp [hl]) hy,
      List.take_append_drop]

theorem eq_encodeG2_of_decodeG2 {bs : List Byte} {pos : Nat} {q : G2} (hl : bs.length = 256)
    (h : decodeG2 bs pos = .ok q) : bs = encodeG2 q := by
  rw [decodeG2_eq] at h
  cases q with
  | inf => exact (allZero_iff_of_length hl).mp (pointOfCoords_eq_inf_iff.mp h)
  | aff x y =>
    obtain ⟨-, hx, hy⟩ := pointOfCoords_eq_aff_iff.mp h
    rw [encodeG2, ← eq_encodeFq2_of_decodeFq2 (by simp [hl]) hx, ← eq_encodeFq2_of_decodeFq2 (by simp [hl]) hy,
      List.take_append_drop]

theorem beBytes_decodeFr {bs : List Byte} {n : Nat} (hl : bs.length = n) :
    bs = beBytes n (decodeFr bs) ∧ decodeFr bs < 256 ^ n := by
  subst hl
  exact ⟨(beBytes_be bs).symm, be_lt bs⟩

/-- Settles O9: the padding and the 48 value bytes of a word are fixed by its value, so the words of a point are fixed
by its coordinates, and the sentinel by `Inf`. -/
theorem encodingsAreCanonical : Obligations.EncodingsAreCanonical := by
  have h32 : 2 ^ 256 = 256 ^ 32 := by norm_num
  refine ⟨fun _ _ _ => eq_encodeFq_of_decodeFq, fun _ _ _ => eq_encodeG1_of_decodeG1,
    fun _ _ _ => eq_encodeG2_of_decodeG2, fun bs hl => ?_, fun n hn => be_beBytes (h32 ▸ hn)⟩
  rw [h32]
  exact beBytes_decodeFr hl

/-! ## The first bad word (40_codec R140, R143, R144) -/

theorem decodeFq_eq_ite {w : List Byte} (pos : Nat) (hl : w.length = 64) :
    decodeFq w pos =
      if w.take 16 ≠ zeros 16 then .error ⟨.invalidFieldEncoding, pos, false⟩
      else if h : be (w.drop 16) < Config.P then .ok ⟨be (w.drop 16), h⟩
      else .error ⟨.invalidFieldEncoding, pos, true⟩ := by
  rw [decodeFq, ite_not]
  exact if_congr (allZero_iff_of_length (by simp [hl])) rfl rfl

/-- The result of the `i`-th 64-byte word of an operand at input position `pos`. -/
def decodeWord (bs : List Byte) (pos i : Nat) : Except OpError Fq :=
  decodeFq ((bs.drop (64 * i)).take 64) (pos + 64 * i)

/-- The first failure among `f 0`, …, `f (n - 1)` is `e`. -/
def FirstError {α : Type} (f : Nat → Except OpError α) (n : Nat) (e : OpError) : Prop :=
  ∃ j, j < n ∧ (∀ i, i < j → ∃ v, f i = .ok v) ∧ f j = .error e

theorem firstError_zero {α : Type} {f : Nat → Except OpError α} {e : OpError} : ¬ FirstError f 0 e := by
  rintro ⟨_, h, _⟩
  exact absurd h (Nat.not_lt_zero _)

theorem firstError_succ {α : Type} {f : Nat → Except OpError α} {n : Nat} {e : OpError} :
    FirstError f (n + 1) e ↔
      f 0 = .error e ∨ (∃ v, f 0 = .ok v) ∧ FirstError (fun i => f (i + 1)) n e := by
  constructor
  · rintro ⟨_ | j, hj, hok, he⟩
    · exact .inl he
    · exact .inr ⟨hok 0 j.succ_pos, j, by omega, fun i hi => hok (i + 1) (by omega), he⟩
  · rintro (he | ⟨h0, j, hj, hok, he⟩)
    · exact ⟨0, n.succ_pos, nofun, he⟩
    · refine ⟨j + 1, by omega, fun i hi => ?_, he⟩
      cases i with
      | zero => exact h0
      | succ i => exact hok i (by omega)

theorem decodeG1_eq_error_iff {bs : List Byte} {pos : Nat} {e : OpError} (hl : bs.length = 128) :
    decodeG1 bs pos = .error e ↔ bs ≠ zeros 128 ∧ FirstError (decodeWord bs pos) 2 e := by
  have h0 : decodeFq (bs.take 64) pos = decodeWord bs pos 0 := rfl
  have h1 : decodeFq (bs.drop 64) (pos + 64) = decodeWord bs pos 1 := by
    rw [decodeWord, List.take_of_length_le (by simp [hl])]
  rw [decodeG1_eq, pointOfCoords_eq_error_iff, h0, h1, Bool.eq_false_iff, ne_eq, allZero_iff_of_length hl]
  simp [firstError_succ, firstError_zero]

theorem decodeG2_eq_error_iff {bs : List Byte} {pos : Nat} {e : OpError} (hl : bs.length = 256) :
    decodeG2 bs pos = .error e ↔ bs ≠ zeros 256 ∧ FirstError (decodeWord bs pos) 4 e := by
  have h0 : decodeFq ((bs.take 128).take 64) pos = decodeWord bs pos 0 := by
    rw [List.take_take]; rfl
  have h1 : decodeFq ((bs.take 128).drop 64) (pos + 64) = decodeWord bs pos 1 := by
    rw [List.drop_take]; rfl
  have h2 : decodeFq ((bs.drop 128).take 64) (pos + 128) = decodeWord bs pos 2 := rfl
  have h3 : decodeFq ((bs.drop 128).drop 64) (pos + 128 + 64) = decodeWord bs pos 3 := by
    rw [decodeWord, List.drop_drop, List.take_of_length_le (by simp [hl])]
  have hx : (∃ a, decodeFq2 (bs.take 128) pos = .ok a) ↔
      (∃ v, decodeWord bs pos 0 = .ok v) ∧ ∃ v, decodeWord bs pos 1 = .ok v := by
    simp only [decodeFq2_eq_ok_iff, h0, h1]
    exact ⟨fun ⟨v, hv0, hv1⟩ => ⟨⟨v.c0, hv0⟩, v.c1, hv1⟩, fun ⟨⟨c0, hv0⟩, c1, hv1⟩ => ⟨⟨c0, c1⟩, hv0, hv1⟩⟩
  rw [decodeG2_eq, pointOfCoords_eq_error_iff, hx, decodeFq2_eq_error_iff, decodeFq2_eq_error_iff, h0, h1, h2, h3,
    Bool.eq_false_iff, ne_eq, allZero_iff_of_length hl]
  simp [firstError_succ, firstError_zero, or_assoc, and_or_left, and_assoc]

/-- Settles O10: each decoder passes on the error of its first half before it looks at the second, so the words are met
in wire order. -/
theorem firstBadWordIsReported : Obligations.FirstBadWordIsReported :=
  ⟨fun _ => decodeFq_eq_ite, fun _ _ _ => decodeG1_eq_error_iff, fun _ _ _ => decodeG2_eq_error_iff⟩

end Sys2Proof.Machine
end

section
/-! # The validator: a wrong length, the checks of one operand, the first failing operand (41_validator R170 to R187) -/
namespace Sys2Proof.Machine

/-! ## The checks of one point (41_validator R172 to R176) -/

section
variable {F : Type} [DecidableEq F] {G : CurveGroup F} {sub : Bool} {s : State} {off : Nat}

theorem validatePoint_of_read_error {e : OpError} (h : readPoint G s off = .error e) :
    validatePoint G sub s off = .error e := by
  rw [validatePoint, h]

theorem validatePoint_of_read_ok {q : Point F} (h : readPoint G s off = .ok q) :
    validatePoint G sub s off = checkPoint G sub off q := by
  rw [validatePoint, h]

theorem inSubgroup_eq_false_iff {K : FieldOps F} {q : Point F} :
    inSubgroup K q = false ↔ pointMul K Config.R q ≠ .inf :=
  decide_eq_false_iff_not

/-- The three checks of a decoded point as a cascade of conditions. -/
theorem checkPoint_eq (pos : Nat) (q : Point F) :
    checkPoint G sub pos q =
      if q = .inf then .ok ()
      else if onCurve G.ops G.coeffB q = false then .error ⟨.pointNotOnCurve, pos, false⟩
      else if sub = true ∧ pointMul G.ops Config.R q ≠ .inf then .error ⟨.incorrectSubgroup, pos, false⟩
      else .ok () := by
  simp only [checkPoint, ← inSubgroup_eq_false_iff]
  cases onCurve G.ops G.coeffB q
  · rfl
  · cases sub <;> cases inSubgroup G.ops q <;> rfl

/-- Where the subgroup is not asked for, no check of a point reports it. -/
theorem checkPoint_kind_ne_incorrectSubgroup {q : Point F} {e : OpError} (h : checkPoint G false off q = .error e) :
    e.kind ≠ .incorrectSubgroup := by
  rw [checkPoint_eq] at h
  split at h
  · cases h
  · split at h
    · cases h; exact nofun
    · rw [if_neg (fun hs => Bool.false_ne_true hs.1)] at h
      cases h

theorem validatePoint_kind_ne_incorrectSubgroup {ol : Nat} {e : OpError} (hG : G.Lawful ol)
    (h : validatePoint G false s off = .error e) : e.kind ≠ .incorrectSubgroup := by
  cases hr : readPoint G s off with
  | error e' =>
    rw [validatePoint_of_read_error hr] at h
    cases h
    obtain ⟨hk, -⟩ := hG.decode_error _ _ _ hr
    rw [hk]
    exact nofun
  | ok q =>
    rw [validatePoint_of_read_ok hr] at h
    exact checkPoint_kind_ne_incorrectSubgroup h

end

/-! ## The checks of one operand (41_validator R177, R180) -/

theorem needsSubgroup_iff (op : Operation) : needsSubgroup op = true ↔ op = .pairing :=
  decide_eq_true_iff

theorem validateOperand_kind_ne_incorrectSubgroup {s : State} {o : Operand} {e : OpError}
    (h : validateOperand false s o = .error e) : e.kind ≠ .incorrectSubgroup := by
  obtain ⟨ty, off⟩ := o
  cases ty with
  | scalar => cases h
  | g1pt => exact validatePoint_kind_ne_incorrectSubgroup groupG1_lawful h
  | g2pt => exact validatePoint_kind_ne_incorrectSubgroup groupG2_lawful h

/-- Settles O32: each point operand is decoded, then its point goes through `checkPoint_eq`. -/
theorem operandChecks : Obligations.OperandChecks :=
  ⟨fun _ _ _ => rfl, fun _ _ _ _ => validatePoint_of_read_error, fun _ _ _ _ => validatePoint_of_read_error,
    fun _ _ off q h => (validatePoint_of_read_ok h).trans (checkPoint_eq off q),
    fun _ _ off q h => (validatePoint_of_read_ok h).trans (checkPoint_eq off q), needsSubgroup_iff⟩

/-! ## Which error an operation reports (41_validator R170, R184) -/

/-- An evaluation that ends with an error completes with that error, and nothing else changes (60_exceptions R291). -/
theorem exec_errCompletion {op : Operation} {n : Nat} {s : State} {e : OpError}
    (h : evaluate op (computeOf op) n s = .err e) :
    ∃ t, exec (instrOf op n) s = .next t ∧ ErrCompletion s t e :=
  ⟨s.finishErr e, by rw [exec_instrOf, runOperation, h, complete], errCompletion_finishErr s e⟩

theorem evaluate_of_validate_error {op : Operation} {c : Compute} {n : Nat} {s : State} {e : OpError}
    (hr : InputReady op n s) (h : validate op n s = .error e) : evaluate op c n s = .err e := by
  obtain ⟨hlen, hcap, hwritten⟩ := hr
  rw [evaluate_of_ready hlen hcap hwritten, h]

/-- Settles O28: the length is the first check of the evaluation. -/
theorem wrongLengthIsReported : Obligations.WrongLengthIsReported :=
  fun _ _ _ h => exec_errCompletion ((evaluate_eq ..).trans (if_pos h))

/-- Settles O31: past the checks of the whole input, the scan ends at the first operand that fails. -/
theorem firstFailingOperandDecides : Obligations.FirstFailingOperandDecides := by
  intro op n s pre o post e hr hsplit hpre ho
  have hv : validate op n s = .error e := validateAll_error_iff.mpr ⟨pre, o, post, hsplit, hpre, ho⟩
  exact exec_errCompletion (evaluate_of_validate_error hr hv)

/-! ## IncorrectSubgroup (41_validator R176, R187) -/

theorem errCode_eq_four_iff (k : ErrKind) : errCode k = 4 ↔ k = .incorrectSubgroup := by
  cases k <;> decide

theorem eq_pairing_of_validate_incorrectSubgroup {op : Operation} {n : Nat} {s : State} {e : OpError}
    (h : validate op n s = .error e) (hk : e.kind = .incorrectSubgroup) : op = .pairing := by
  obtain ⟨pre, o, post, -, -, ho⟩ := validateAll_error_iff.mp h
  by_contra hop
  have hsub : needsSubgroup op = false := by rwa [Bool.eq_false_iff, ne_eq, needsSubgroup_iff]
  rw [hsub] at ho
  exact validateOperand_kind_ne_incorrectSubgroup ho hk

/-- An evaluation reports the subgroup from the validation of an operand alone, so in PAIRING alone. -/
theorem eq_pairing_of_evaluate_incorrectSubgroup {op : Operation} {n : Nat} {s : State} {e : OpError}
    (h : evaluate op (computeOf op) n s = .err e) (hk : e.kind = .incorrectSubgroup) : op = .pairing := by
  rcases evaluate_err h with rfl | rfl | ⟨hv, -, -⟩
  · cases hk
  · cases hk
  · exact eq_pairing_of_validate_incorrectSubgroup hv hk

/-- Settles O33: kind 4 cannot be a success's, which leaves the cleared kind, so it is that of the evaluation's error. -/
theorem onlyPairingReportsSubgroup : Obligations.OnlyPairingReportsSubgroup := by
  intro op n s t hs h hk
  rw [exec_instrOf] at h
  rcases runOperation_cases op n s with ⟨hr, -⟩ | ⟨e, hr, he⟩ | ⟨s', out, hr, -, honly, -⟩ <;>
    cases hr.symm.trans h
  · exact eq_pairing_of_evaluate_incorrectSubgroup he ((errCode_eq_four_iff e.kind).mp hk)
  · obtain ⟨-, hkind, -⟩ := honly.cleared hs
    exact absurd (hkind.symm.trans hk) (by decide)

end Sys2Proof.Machine
end

section
/-! # The group law and scalar multiplication (42_dispatch R202 to R205) -/
namespace Sys2Proof.Machine

section
variable {F k : Type} [DecidableEq F] [Field k] [DecidableEq k] {K : FieldOps F} {φ : F → k} {b : F} {q : Point F}

/-! ## The laws of the addition (42_dispatch R203) -/

theorem pointAdd_inf (K : FieldOps F) (p : Point F) : pointAdd K p .inf = p := by
  cases p <;> rfl

/-- The machine's addition has the laws of the curve's, which the points of the curve carry over. -/
theorem CurveMap.abelianGroupLaw (hK : CurveMap K φ b) : AbelianGroupLaw K b where
  closed _ _ hp hq := (pointAdd_map hK hp hq).1
  neg_closed _ hp := (pointNeg_map hK hp).1
  comm p q hp hq := by
    obtain ⟨hpq, hsum⟩ := pointAdd_map hK hp hq
    obtain ⟨hqp, hsum'⟩ := pointAdd_map hK hq hp
    exact toPoint_injective hK hpq hqp (by rw [hsum, hsum', add_comm])
  assoc p q r hp hq hr := by
    obtain ⟨hpq, hsum⟩ := pointAdd_map hK hp hq
    obtain ⟨hqr, hsum'⟩ := pointAdd_map hK hq hr
    obtain ⟨hleft, hsumLeft⟩ := pointAdd_map hK hpq hr
    obtain ⟨hright, hsumRight⟩ := pointAdd_map hK hp hqr
    exact toPoint_injective hK hleft hright (by rw [hsumLeft, hsumRight, hsum, hsum', add_assoc])
  left_id _ := rfl
  right_id := pointAdd_inf K
  inverse p hp := by
    obtain ⟨hn, hneg⟩ := pointNeg_map hK hp
    obtain ⟨hpn, hsum⟩ := pointAdd_map hK hp hn
    exact toPoint_injective hK hpn rfl (by rw [hsum, hneg, add_neg_cancel, toPoint_inf])

/-! ## Scalar multiplication (42_dispatch R204) -/

theorem pointMulRec_map (hK : CurveMap K φ b) (hq : onCurve K b q = true) (s : Nat) :
    onCurve K b (pointMulRec K q s) = true ∧ toPoint φ (φ b) (pointMulRec K q s) = s • toPoint φ (φ b) q := by
  induction s with
  | zero => exact ⟨rfl, (zero_nsmul _).symm⟩
  | succ s ih =>
    obtain ⟨hs, hmul⟩ := ih
    obtain ⟨hadd, hsum⟩ := pointAdd_map hK hs hq
    exact ⟨hadd, by rw [pointMulRec, hsum, hmul, succ_nsmul]⟩

/-- Doubling and adding is the repeated sum. -/
theorem pointMul_eq_pointMulRec (hK : CurveMap K φ b) (hq : onCurve K b q = true) (s : Nat) :
    pointMul K s q = pointMulRec K q s := by
  obtain ⟨hm, hmul⟩ := pointMul_map hK s hq
  obtain ⟨hr, hrec⟩ := pointMulRec_map hK hq s
  exact toPoint_injective hK hm hr (hmul.trans hrec.symm)

/-- A scalar acts as its residue modulo any `m` that annihilates the point. -/
theorem pointMul_mod (hK : CurveMap K φ b) (hq : onCurve K b q = true) (s : Nat) {m : Nat}
    (hm : pointMul K m q = .inf) : pointMul K s q = pointMul K (s % m) q := by
  obtain ⟨hs, hmul⟩ := pointMul_map hK s hq
  obtain ⟨hr, hres⟩ := pointMul_map hK (s % m) hq
  have hzero : m • toPoint φ (φ b) q = 0 := by rw [← (pointMul_map hK m hq).2, hm, toPoint_inf]
  refine toPoint_injective hK hs hr ?_
  rw [hmul, hres]
  exact nsmul_eq_mod_nsmul s hzero

theorem pointMul_mod_R (hK : CurveMap K φ b) (hq : onCurve K b q = true) (s : Nat) (hR : inSubgroup K q = true) :
    pointMul K s q = pointMul K (s % Config.R) q :=
  pointMul_mod hK hq s (of_decide_eq_true hR)

theorem pointMul_one (K : FieldOps F) (q : Point F) : pointMul K 1 q = q := rfl

/-! ## Multi-scalar sums (42_dispatch R205) -/

/-- A sum in input order from `z` on is a sum in the group of the curve. -/
theorem foldl_pointAdd_map (hK : CurveMap K φ b) {ts : List (Point F × Nat)} (hts : ∀ t ∈ ts, onCurve K b t.1 = true)
    {z : Point F} (hz : onCurve K b z = true) :
    onCurve K b (ts.foldl (fun acc t => pointAdd K acc (pointMul K t.2 t.1)) z) = true ∧
      toPoint φ (φ b) (ts.foldl (fun acc t => pointAdd K acc (pointMul K t.2 t.1)) z) =
        toPoint φ (φ b) z + (ts.map fun t => t.2 • toPoint φ (φ b) t.1).sum := by
  induction ts generalizing z with
  | nil => exact ⟨hz, (add_zero _).symm⟩
  | cons t ts ih =>
    obtain ⟨ht, hts⟩ := List.forall_mem_cons.mp hts
    obtain ⟨hm, hmul⟩ := pointMul_map hK t.2 ht
    obtain ⟨hadd, hsum⟩ := pointAdd_map hK hz hm
    obtain ⟨hon, hfold⟩ := ih hts hadd
    exact ⟨hon, by rw [List.foldl_cons, hfold, hsum, hmul, List.map_cons, List.sum_cons, add_assoc]⟩

theorem multiExpSum_map (hK : CurveMap K φ b) {ts : List (Point F × Nat)} (hts : ∀ t ∈ ts, onCurve K b t.1 = true) :
    onCurve K b (multiExpSum K ts) = true ∧
      toPoint φ (φ b) (multiExpSum K ts) = (ts.map fun t => t.2 • toPoint φ (φ b) t.1).sum := by
  obtain ⟨hon, hsum⟩ := foldl_pointAdd_map hK hts (z := .inf) rfl
  exact ⟨hon, hsum.trans (zero_add _)⟩

/-- The curve's addition is commutative, so the sum is that of every order of the terms. -/
theorem multiExpSum_perm (hK : CurveMap K φ b) {ts ts' : List (Point F × Nat)} (h : ts.Perm ts')
    (hts : ∀ t ∈ ts, onCurve K b t.1 = true) :
    multiExpSum K ts = multiExpSum K ts' ∧ onCurve K b (multiExpSum K ts) = true := by
  obtain ⟨hon, hsum⟩ := multiExpSum_map hK hts
  obtain ⟨hon', hsum'⟩ := multiExpSum_map hK (ts := ts') fun t ht => hts t (h.mem_iff.mpr ht)
  exact ⟨toPoint_injective hK hon hon' (by rw [hsum, hsum', (h.map _).sum_eq]), hon⟩

end

/-! ## The two curves -/

/-- G1's curve is that of a field, with decidable equality as its addition asks. -/
theorem exists_curveMap_g1 :
    ∃ (k : Type) (_ : Field k) (_ : DecidableEq k) (φ : Fq → k), CurveMap fqOps φ Config.B1 := by
  have : Fact (Nat.Prime Config.P) := ⟨P_prime⟩
  exact ⟨Zq, inferInstance, inferInstance, toZq, curveMap_g1⟩

/-- G2's curve likewise. -/
theorem exists_curveMap_g2 :
    ∃ (k : Type) (_ : Field k) (_ : DecidableEq k) (φ : Fq2 → k), CurveMap fq2Ops φ Config.B2 := by
  have : Fact (Nat.Prime Config.P) := ⟨P_prime⟩
  have : Fact (∀ r : Zq, r ^ 2 ≠ -5 + 0 * r) := neg_five_fact
  exact ⟨Zq2, inferInstance, Classical.decEq _, toZq2, curveMap_g2⟩

/-- Settles O13: on both curves the addition is Mathlib's on a Weierstrass curve. -/
theorem groupLawIsAbelian : Obligations.GroupLawIsAbelian := by
  obtain ⟨_, _, _, _, h1⟩ := exists_curveMap_g1
  obtain ⟨_, _, _, _, h2⟩ := exists_curveMap_g2
  exact ⟨h1.abelianGroupLaw, h2.abelianGroupLaw⟩

/-- Settles O14: both are the multiple in the curve's group. `Aff(0, 1)` has order 3, and `R` is 1 modulo 3. -/
theorem scalarMulIsRepeatedSum : Obligations.ScalarMulIsRepeatedSum := by
  obtain ⟨_, _, _, _, h1⟩ := exists_curveMap_g1
  obtain ⟨_, _, _, _, h2⟩ := exists_curveMap_g2
  have hon : onCurve fqOps Config.B1 (.aff (fqOfNat 0) (fqOfNat 1)) = true := by decide
  have h3 : pointMul fqOps 3 (.aff (fqOfNat 0) (fqOfNat 1)) = .inf := by decide +kernel
  have hR : Config.R % 3 = 1 := by decide
  refine ⟨fun q hq => ⟨pointMul_eq_pointMulRec h1 hq, fun s _ => pointMul_mod h1 hq s, pointMul_mod_R h1 hq⟩,
    fun q hq => ⟨pointMul_eq_pointMulRec h2 hq, fun s _ => pointMul_mod h2 hq s, pointMul_mod_R h2 hq⟩, h3, hR, ?_⟩
  rw [pointMul_mod h1 hon Config.R h3, hR, pointMul_one]

/-- Settles O15: the sum is the one in the curve's group. -/
theorem multiExpOrderIsFree : Obligations.MultiExpOrderIsFree := by
  obtain ⟨_, _, _, _, h1⟩ := exists_curveMap_g1
  obtain ⟨_, _, _, _, h2⟩ := exists_curveMap_g2
  exact ⟨fun _ _ => multiExpSum_perm h1, fun _ _ => multiExpSum_perm h2⟩

end Sys2Proof.Machine
end

section
/-! # The completions of the six group operations (42_dispatch R208 to R215) -/
namespace Sys2Proof.Machine

/-! ## A completion with a result (44_host_commands R266) -/

/-- A computation that leaves all but the sequencer's registers completes with its output and changes
nothing else. -/
theorem okCompletion_finishOk {s s' : State} (hm : s.MemoryOk) (h : OnlySequencer s s') (out : List Byte) :
    OkCompletion s (s'.finishOk out) out := by
  obtain ⟨-, -, hwf, -⟩ := hm
  have hbyte : ∀ i, (s'.finishOk out).outByte i = if h' : i < out.length then out[i] else s.outByte i := by
    intro i
    rw [State.outByte_setBytes (bs := out) (a := 0) hwf (by rw [State.finishOk_outBuf, h.outBuf])]
    simp
  obtain ⟨_, _, _, _, _, rfl⟩ := h
  exact {
    ended := ⟨rfl, rfl, rfl, rfl⟩
    inputs := ⟨rfl, rfl, rfl, rfl, rfl, rfl, rfl, rfl, rfl, rfl⟩
    errors := ⟨rfl, rfl, rfl, rfl⟩
    length := rfl
    output := fun i hi => by rw [hbyte, dif_pos hi]
    rest := fun i hi => by rw [hbyte, dif_neg (Nat.not_lt.mpr hi)] }

/-- A validated input whose computation ends completes with the computation's output and accumulators. -/
theorem exec_of_computed {op : Operation} {n : Nat} {s s' : State} {out : List Byte} (hm : s.MemoryOk)
    (hr : InputReady op n s) (hv : validate op n s = .ok ())
    (hc : computeOf op n (s.setPhase .compute) = .ok (s', out)) :
    ∃ t, exec (instrOf op n) s = .next t ∧ OkCompletion s t out ∧
      t.accG1 = s'.accG1 ∧ t.accG2 = s'.accG2 ∧ t.accF = s'.accF := by
  obtain ⟨hlen, hcap, hwritten⟩ := hr
  obtain ⟨honly, -⟩ := computeOf_frame op _ _ _ _ hc
  have he : evaluate op (computeOf op) n s = .ok (s'.setPhase .writeback) out := by
    rw [evaluate_of_ready hlen hcap hwritten, hv]
    simp only [hc]
  have hs : OnlySequencer s (s'.setPhase .writeback) :=
    ((onlySequencer_setPhase s .compute).trans honly).trans (onlySequencer_setPhase s' .writeback)
  exact ⟨(s'.setPhase .writeback).finishOk out, by rw [exec_instrOf, runOperation, he, complete],
    okCompletion_finishOk hm hs out, rfl, rfl, rfl⟩

/-! ## A computation that ends with a point -/

/-- The computation ends with `q` in the group's accumulator and its encoding as the output. -/
def ComputesPoint {F : Type} (G : CurveGroup F) (c : Compute) (n : Nat) (s : State) (q : Point F) : Prop :=
  ∃ s', c n s = .ok (s', G.encodePoint q) ∧ G.acc s' = q ∧ OnlySequencer s s'

theorem exec_g1_completes {op : Operation} {n : Nat} {s : State} {q : G1} (hop : resultBytes op = 128)
    (hm : s.MemoryOk) (hr : InputReady op n s) (hv : validate op n s = .ok ())
    (hc : ComputesPoint groupG1 (computeOf op) n (s.setPhase .compute) q) :
    ∃ t, exec (instrOf op n) s = .next t ∧ OkCompletion s t (encodeG1 q) ∧
      t.accG1 = q ∧ t.accG2 = s.accG2 ∧ t.accF = s.accF := by
  obtain ⟨s', hc, hacc, -⟩ := hc
  have hne : ∀ op', resultBytes op' ≠ 128 → op ≠ op' := fun _ h heq => h (heq ▸ hop)
  obtain ⟨-, hkeep2, hkeepF⟩ := computeOf_acc hc
  obtain ⟨t, ht, hok, h1, h2, hF⟩ := exec_of_computed hm hr hv hc
  exact ⟨t, ht, hok, h1.trans hacc, h2.trans (hkeep2 (hne _ (by decide)) (hne _ (by decide)) (hne _ (by decide))),
    hF.trans (hkeepF (hne _ (by decide)))⟩

theorem exec_g2_completes {op : Operation} {n : Nat} {s : State} {q : G2} (hop : resultBytes op = 256)
    (hm : s.MemoryOk) (hr : InputReady op n s) (hv : validate op n s = .ok ())
    (hc : ComputesPoint groupG2 (computeOf op) n (s.setPhase .compute) q) :
    ∃ t, exec (instrOf op n) s = .next t ∧ OkCompletion s t (encodeG2 q) ∧
      t.accG2 = q ∧ t.accG1 = s.accG1 ∧ t.accF = s.accF := by
  obtain ⟨s', hc, hacc, -⟩ := hc
  have hne : ∀ op', resultBytes op' ≠ 256 → op ≠ op' := fun _ h heq => h (heq ▸ hop)
  obtain ⟨hkeep1, -, hkeepF⟩ := computeOf_acc hc
  obtain ⟨t, ht, hok, h1, h2, hF⟩ := exec_of_computed hm hr hv hc
  exact ⟨t, ht, hok, h2.trans hacc, h1.trans (hkeep1 (hne _ (by decide)) (hne _ (by decide)) (hne _ (by decide))),
    hF.trans (hkeepF (hne _ (by decide)))⟩

section
variable {F : Type} [DecidableEq F] {G : CurveGroup F} {ol : Nat} {s : State}

theorem ValidPoint.validatePoint {off : Nat} {q : Point F} (h : ValidPoint G s off q) :
    validatePoint G false s off = .ok () :=
  validatePoint_ok_iff.mpr ⟨q, h.1, checkPoint_ok_iff.mpr (.inr ⟨h.2, nofun⟩)⟩

theorem ValidPoint.setPhase {off : Nat} {q : Point F} (h : ValidPoint G s off q) (p : Phase) :
    readPoint G (s.setPhase p) off = .ok q := by
  rw [(onlySequencer_setPhase s p).readPoint, h.1]

theorem addCompute_computesPoint (hG : G.Lawful ol) {a b : Point F} (n : Nat) (ha : ValidPoint G s 0 a)
    (hb : ValidPoint G s G.pointBytes b) :
    ComputesPoint G (addCompute G) n (s.setPhase .compute) (pointAdd G.ops a b) :=
  addCompute_eq hG n (ha.setPhase _) (hb.setPhase _)

theorem mulCompute_computesPoint (hG : G.Lawful ol) {q : Point F} (n : Nat) (hq : ValidPoint G s 0 q) :
    ComputesPoint G (mulCompute G) n (s.setPhase .compute) (pointMul G.ops (be (s.memRead G.pointBytes 32)) q) :=
  mulCompute_eq hG n (hq.setPhase _)

theorem multiExpCompute_computesPoint (hG : G.Lawful ol) {u k : Nat} (hu : 0 < u) {q : Nat → Point F}
    (hq : ∀ i, i < k → ValidPoint G s (u * i) (q i)) :
    ComputesPoint G (multiExpCompute G u) (u * k) (s.setPhase .compute)
      (multiExpSum G.ops ((List.range k).map fun i => (q i, be (s.memRead (u * i + G.pointBytes) 32)))) := by
  have hk : u * k / u = k := Nat.mul_div_cancel_left k hu
  have h := multiExpCompute_eq hG (u := u) (n := u * k) (q := q) (s := s.setPhase .compute)
    fun i hi => (hq i (hk ▸ hi)).setPhase _
  rw [hk] at h
  exact h

end

/-! ## Validation of whole frames -/

/-- The input passes when every operand of every frame does. -/
theorem validate_frames {op : Operation} {k : Nat} {s : State}
    (h : ∀ i, i < k → ∀ o ∈ frameOperands op,
      validateOperand (needsSubgroup op) s ⟨o.type, frameBytes op * i + o.off⟩ = .ok ()) :
    validate op (frameBytes op * k) s = .ok () := by
  refine validateAll_ok_iff.mpr fun o ho => ?_
  obtain ⟨i, hi, o', ho', rfl⟩ := mem_operands.mp ho
  exact h i (hi.trans_eq (pairCount_mul op k)) o' ho'

/-- An input of one frame. -/
theorem validate_frame {op : Operation} {s : State}
    (h : ∀ o ∈ frameOperands op, validateOperand (needsSubgroup op) s o = .ok ()) :
    validate op (frameBytes op) s = .ok () := by
  rw [← Nat.mul_one (frameBytes op)]
  refine validate_frames fun i hi o ho => ?_
  rw [Nat.lt_one_iff.mp hi, Nat.mul_zero, Nat.zero_add]
  exact h o ho

theorem forall_mem_pair {α : Type} {p : α → Prop} {a b : α} (ha : p a) (hb : p b) : ∀ x ∈ [a, b], p x :=
  List.forall_mem_cons.mpr ⟨ha, List.forall_mem_singleton.mpr hb⟩

/-- Input of one frame that was all written is ready: a frame is at most 512 bytes, and so is within every capacity. -/
theorem inputReady_frame {op : Operation} {s : State} (hop : fixedLength op = true)
    (hw : ∀ i, i < frameBytes op → s.written i = true) : InputReady op (frameBytes op) s := by
  have hle : frameBytes op ≤ 512 := by cases op <;> decide
  exact ⟨(lengthOk_fixed_iff hop _).mpr rfl, hle.trans inBufBytes_ge, hw⟩

theorem inputReady_frames {op : Operation} {k : Nat} {s : State} (hop : fixedLength op = false) (hk : 1 ≤ k)
    (hcap : frameBytes op * k ≤ Config.inBufBytes) (hw : ∀ i, i < frameBytes op * k → s.written i = true) :
    InputReady op (frameBytes op * k) s :=
  ⟨(lengthOk_unit_iff hop _).mpr ⟨k, hk, rfl⟩, hcap, hw⟩

/-! ## The operations of G1 (42_dispatch R210 to R212) -/

/-- Settles O16: both points pass their checks, and the sum is accumulated from `Inf`. -/
theorem g1AddCompletes : Obligations.G1AddCompletes := by
  intro s a b hm hw ha hb
  have hv : validate .g1add 256 s = .ok () := validate_frame (forall_mem_pair ha.validatePoint hb.validatePoint)
  exact exec_g1_completes (op := .g1add) rfl hm (inputReady_frame rfl hw) hv
    (addCompute_computesPoint groupG1_lawful 256 ha hb)

/-- Settles O17: the subgroup is not asked for, and a scalar has no check. -/
theorem g1MulCompletes : Obligations.G1MulCompletes := by
  intro s q hm hw hq
  have hv : validate .g1mul 160 s = .ok () := validate_frame (forall_mem_pair hq.validatePoint rfl)
  exact exec_g1_completes (op := .g1mul) rfl hm (inputReady_frame rfl hw) hv
    (mulCompute_computesPoint groupG1_lawful 160 hq)

/-- Settles O18: each frame as in G1MUL, the terms accumulated in input order. -/
theorem g1MultiExpCompletes : Obligations.G1MultiExpCompletes := by
  intro s k q hm hk hcap hw hq
  have hv : validate .g1multiexp (160 * k) s = .ok () :=
    validate_frames (op := .g1multiexp) fun i hi => forall_mem_pair (hq i hi).validatePoint rfl
  obtain ⟨t, ht, hok, hacc, hkeep2, hkeepF⟩ := exec_g1_completes (op := .g1multiexp) rfl hm
    (inputReady_frames rfl hk hcap hw) hv (multiExpCompute_computesPoint groupG1_lawful (by decide) hq)
  exact ⟨t, ht, hacc, by rwa [hacc], hkeep2, hkeepF⟩

/-! ## The operations of G2 (42_dispatch R213 to R215) -/

/-- Settles O19: as G1ADD, over Fq2. -/
theorem g2AddCompletes : Obligations.G2AddCompletes := by
  intro s a b hm hw ha hb
  have hv : validate .g2add 512 s = .ok () := validate_frame (forall_mem_pair ha.validatePoint hb.validatePoint)
  exact exec_g2_completes (op := .g2add) rfl hm (inputReady_frame rfl hw) hv
    (addCompute_computesPoint groupG2_lawful 512 ha hb)

/-- Settles O20: as G1MUL, over Fq2. -/
theorem g2MulCompletes : Obligations.G2MulCompletes := by
  intro s q hm hw hq
  have hv : validate .g2mul 288 s = .ok () := validate_frame (forall_mem_pair hq.validatePoint rfl)
  exact exec_g2_completes (op := .g2mul) rfl hm (inputReady_frame rfl hw) hv
    (mulCompute_computesPoint groupG2_lawful 288 hq)

/-- Settles O21: as G1MULTIEXP, over Fq2. -/
theorem g2MultiExpCompletes : Obligations.G2MultiExpCompletes := by
  intro s k q hm hk hcap hw hq
  have hv : validate .g2multiexp (288 * k) s = .ok () :=
    validate_frames (op := .g2multiexp) fun i hi => forall_mem_pair (hq i hi).validatePoint rfl
  obtain ⟨t, ht, hok, hacc, hkeep1, hkeepF⟩ := exec_g2_completes (op := .g2multiexp) rfl hm
    (inputReady_frames rfl hk hcap hw) hv (multiExpCompute_computesPoint groupG2_lawful (by decide) hq)
  exact ⟨t, ht, hacc, by rwa [hacc], hkeep1, hkeepF⟩

/-! ## MULTIEXP over one pair (42_dispatch R216) -/

section
variable {op op' : Operation} {n : Nat} {s : State}

/-- The end of an operation sets IDX to 0, so two operations that agree on the checks complete alike when their
computations do, IDX aside. -/
theorem runOperation_eq_of_setIdx {c c' : Compute} (hl : lengthOk op n = lengthOk op' n)
    (hv : validate op n s = validate op' n s)
    (hc : c n (s.setPhase .compute) = (c' n (s.setPhase .compute)).map fun r => (r.1.setIdx 0, r.2)) :
    runOperation op c n s = runOperation op' c' n s := by
  simp only [runOperation, evaluate_eq, hl, hv, hc]
  split
  · rfl
  split
  · rfl
  split
  · rfl
  cases validate op' n s with
  | error e => rfl
  | ok u => cases c' n (s.setPhase .compute) <;> rfl

/-- One pair is accumulated onto `Inf`, so the accumulator holds the multiple; only IDX is written beside. -/
theorem multiExpCompute_one {F : Type} [DecidableEq F] {G : CurveGroup F} {u : Nat} (hu : u / u = 1)
    (hset : ∀ (s : State) p q i, G.setAcc ((G.setAcc s p).setIdx i) q = (G.setAcc s q).setIdx i)
    {ol : Nat} (hG : G.Lawful ol) (s : State) :
    multiExpCompute G u u s = (mulCompute G u s).map fun r => (r.1.setIdx 0, r.2) := by
  have hread := (hG.setAcc_only s .inf).readPoint G 0
  have hscalar := (hG.setAcc_only s .inf).readScalar G.pointBytes
  simp only [multiExpCompute, hu, List.range_one, multiExpLoop, hread, hscalar, accumulate, hG.acc_setIdx,
    hG.acc_setAcc, hset, mulCompute, Nat.mul_zero, Nat.zero_add]
  cases readPoint G s 0 with
  | error e => rfl
  | ok q => simp only [Except.map, hG.acc_setIdx, hG.acc_setAcc, pointAdd]

end

/-- Settles O27: the checks of the two operations agree, and so do their computations but for IDX. -/
theorem multiExpOfOnePairIsMul : Obligations.MultiExpOfOnePairIsMul := by
  intro s
  exact ⟨runOperation_eq_of_setIdx (op := .g1multiexp) (op' := .g1mul) rfl rfl
      (multiExpCompute_one (by decide) (fun _ _ _ _ => rfl) groupG1_lawful _),
    runOperation_eq_of_setIdx (op := .g2multiexp) (op' := .g2mul) rfl rfl
      (multiExpCompute_one (by decide) (fun _ _ _ _ => rfl) groupG2_lawful _)⟩

/-! ## Over capacity (42_dispatch R208) -/

/-- Settles O29: the capacity is the second check of the evaluation. -/
theorem overCapacityIsReported : Obligations.OverCapacityIsReported := by
  intro op n s hl hc
  refine exec_errCompletion ?_
  rw [evaluate_eq, if_neg (by rw [hl]; exact nofun), if_pos hc]

end Sys2Proof.Machine
end

section
/-! # The result depends on the operation, its length and the input bytes alone (42_dispatch R208, 10_state R53) -/
namespace Sys2Proof.Machine

/-- The states hold the same bytes of an input of `n` bytes, the same of them written. -/
def SameInput (n : Nat) (s t : State) : Prop :=
  ∀ i, i < n → s.written i = t.written i ∧ s.inByte i = t.inByte i

/-! ## What is read is the same -/

section
variable {F : Type} {G : CurveGroup F} {n off : Nat} {s t : State}

theorem SameInput.allWritten_eq (h : SameInput n s t) : s.allWritten n = t.allWritten n := by
  rw [Bool.eq_iff_iff, State.allWritten_iff, State.allWritten_iff]
  exact forall₂_congr fun i hi => by rw [(h i hi).1]

theorem SameInput.memRead_eq (h : SameInput n s t) {len : Nat} (hin : off + len ≤ n) :
    s.memRead off len = t.memRead off len :=
  State.memRead_congr fun j hj => (h (off + j) (by omega)).2

theorem SameInput.readPoint_eq (h : SameInput n s t) (hin : off + G.pointBytes ≤ n) :
    readPoint G s off = readPoint G t off := by
  rw [readPoint, readPoint, h.memRead_eq hin]

theorem SameInput.readScalar_eq (h : SameInput n s t) (hin : off + 32 ≤ n) : readScalar s off = readScalar t off := by
  rw [readScalar, readScalar, h.memRead_eq hin]

theorem SameInput.readPair_eq (h : SameInput n s t) (hin : off + 384 ≤ n) : readPair s off = readPair t off := by
  rw [readPair, readPair, h.readPoint_eq (G := groupG1) (by show off + 128 ≤ n; omega),
    h.readPoint_eq (G := groupG2) (by show off + 128 + 256 ≤ n; omega)]

/-- A change of the sequencer's registers alone leaves the input. -/
theorem SameInput.onlySequencer {s' t' : State} (h : SameInput n s t) (hs : OnlySequencer s s')
    (ht : OnlySequencer t t') : SameInput n s' t' := by
  obtain ⟨_, _, _, _, _, rfl⟩ := hs
  obtain ⟨_, _, _, _, _, rfl⟩ := ht
  exact h

/-! ## So the validation is -/

theorem SameInput.validatePoint_eq [DecidableEq F] (h : SameInput n s t) (sub : Bool) (hin : off + G.pointBytes ≤ n) :
    validatePoint G sub s off = validatePoint G sub t off := by
  rw [validatePoint, validatePoint, h.readPoint_eq hin]

theorem SameInput.validateOperand_eq (h : SameInput n s t) (sub : Bool) {o : Operand}
    (hin : o.off + operandBytes o.type ≤ n) :
    validateOperand sub s o = validateOperand sub t o := by
  obtain ⟨type, off⟩ := o
  cases type with
  | scalar => rfl
  | g1pt => exact h.validatePoint_eq (G := groupG1) sub hin
  | g2pt => exact h.validatePoint_eq (G := groupG2) sub hin

theorem SameInput.validateAll_eq (h : SameInput n s t) (sub : Bool) {os : List Operand}
    (hin : ∀ o ∈ os, o.off + operandBytes o.type ≤ n) : validateAll sub s os = validateAll sub t os := by
  induction os with
  | nil => rfl
  | cons o os ih =>
    obtain ⟨ho, hos⟩ := List.forall_mem_cons.mp hin
    rw [validateAll, validateAll, h.validateOperand_eq sub ho, ih hos]

theorem SameInput.validate_eq (h : SameInput n s t) (op : Operation) : validate op n s = validate op n t :=
  h.validateAll_eq _ fun _ => operand_inside

end

/-! ## And so is the output of the computation -/

theorem frame_inside {u n i : Nat} (hi : i < n / u) : u * i + u ≤ n :=
  (Nat.mul_le_mul_left u hi).trans (Nat.mul_div_le n u)

section
variable {F : Type} [DecidableEq F] {G : CurveGroup F} {ol n u : Nat} {s t : State}

theorem SameInput.addCompute_output (hG : G.Lawful ol) (h : SameInput n s t) (hin : G.pointBytes + G.pointBytes ≤ n) :
    (addCompute G n s).map Prod.snd = (addCompute G n t).map Prod.snd := by
  rw [addCompute, addCompute, h.readPoint_eq (off := 0) (by omega), h.readPoint_eq hin]
  cases decodePair (readPoint G t 0) (readPoint G t G.pointBytes) with
  | error e => rfl
  | ok ab => simp only [Except.map, acc_accumulate hG, hG.acc_setAcc]

theorem SameInput.mulCompute_output (hG : G.Lawful ol) (h : SameInput n s t) (hin : G.pointBytes + 32 ≤ n) :
    (mulCompute G n s).map Prod.snd = (mulCompute G n t).map Prod.snd := by
  rw [mulCompute, mulCompute, h.readPoint_eq (off := 0) (by omega), h.readScalar_eq hin]
  cases readPoint G t 0 with
  | error e => rfl
  | ok q => simp only [Except.map, hG.acc_setAcc]

theorem SameInput.multiExpLoop_output (hG : G.Lawful ol) (hu : G.pointBytes + 32 ≤ u) {is : List Nat}
    (his : ∀ i ∈ is, u * i + u ≤ n) (h : SameInput n s t) (hacc : G.acc s = G.acc t) :
    (multiExpLoop G u is s).map (fun s' => G.encodePoint (G.acc s')) =
      (multiExpLoop G u is t).map fun t' => G.encodePoint (G.acc t') := by
  induction is generalizing s t with
  | nil => exact congrArg (fun q => Except.ok (G.encodePoint q)) hacc
  | cons i is ih =>
    obtain ⟨hi, his⟩ := List.forall_mem_cons.mp his
    rw [multiExpLoop, multiExpLoop, h.readPoint_eq (by omega), h.readScalar_eq (by omega)]
    cases readPoint G t (u * i) with
    | error e => rfl
    | ok q =>
      refine ih his (h.onlySequencer ((onlySequencer_setIdx s i).trans (accumulate_only hG _ _))
        ((onlySequencer_setIdx t i).trans (accumulate_only hG _ _))) ?_
      rw [acc_accumulate hG, acc_accumulate hG, hG.acc_setIdx, hG.acc_setIdx, hacc]

theorem multiExpCompute_map_snd (n : Nat) (s : State) :
    (multiExpCompute G u n s).map Prod.snd =
      (multiExpLoop G u (List.range (n / u)) (G.setAcc s .inf)).map fun s' => G.encodePoint (G.acc s') := by
  rw [multiExpCompute]
  cases multiExpLoop G u (List.range (n / u)) (G.setAcc s .inf) <;> rfl

theorem SameInput.multiExpCompute_output (hG : G.Lawful ol) (hu : G.pointBytes + 32 ≤ u) (h : SameInput n s t) :
    (multiExpCompute G u n s).map Prod.snd = (multiExpCompute G u n t).map Prod.snd := by
  rw [multiExpCompute_map_snd, multiExpCompute_map_snd]
  exact (h.onlySequencer (hG.setAcc_only s .inf) (hG.setAcc_only t .inf)).multiExpLoop_output hG hu
    (fun i hi => frame_inside (List.mem_range.mp hi)) (by rw [hG.acc_setAcc, hG.acc_setAcc])

end

section
variable {n : Nat} {s t : State}

theorem SameInput.pairingLoop_output {is : List Nat} (his : ∀ i ∈ is, 384 * i + 384 ≤ n) (h : SameInput n s t)
    (hacc : s.accF = t.accF) :
    (pairingLoop is s).map (fun s' => encodeBool32 (isOne (finalExp s'.accF))) =
      (pairingLoop is t).map fun t' => encodeBool32 (isOne (finalExp t'.accF)) := by
  induction is generalizing s t with
  | nil => exact congrArg (fun f => Except.ok (encodeBool32 (isOne (finalExp f)))) hacc
  | cons i is ih =>
    obtain ⟨hi, his⟩ := List.forall_mem_cons.mp his
    rw [pairingLoop, pairingLoop, h.readPair_eq hi]
    cases readPair t (384 * i) with
    | error e => rfl
    | ok pq =>
      refine ih his (h.onlySequencer ((onlySequencer_setIdx s i).trans (onlySequencer_setAccF _ _))
        ((onlySequencer_setIdx t i).trans (onlySequencer_setAccF _ _))) ?_
      rw [State.setAccF_accF, State.setAccF_accF, hacc]

theorem pairingCompute_map_snd (n : Nat) (s : State) :
    (pairingCompute n s).map Prod.snd =
      (pairingLoop (List.range (n / 384)) (s.setAccF fq12One)).map
        fun s' => encodeBool32 (isOne (finalExp s'.accF)) := by
  rw [pairingCompute]
  cases pairingLoop (List.range (n / 384)) (s.setAccF fq12One) <;> rfl

theorem SameInput.pairingCompute_output (h : SameInput n s t) :
    (pairingCompute n s).map Prod.snd = (pairingCompute n t).map Prod.snd := by
  rw [pairingCompute_map_snd, pairingCompute_map_snd]
  exact (h.onlySequencer (onlySequencer_setAccF s fq12One) (onlySequencer_setAccF t fq12One)).pairingLoop_output
    (fun i hi => frame_inside (List.mem_range.mp hi)) rfl

theorem SameInput.computeOf_output (h : SameInput n s t) {op : Operation} (hl : lengthOk op n = true) :
    (computeOf op n s).map Prod.snd = (computeOf op n t).map Prod.snd := by
  have hle : frameBytes op ≤ n := by simpa using frame_inside (pairCount_pos hl)
  cases op with
  | g1add => exact h.addCompute_output groupG1_lawful hle
  | g1mul => exact h.mulCompute_output groupG1_lawful hle
  | g1multiexp => exact h.multiExpCompute_output groupG1_lawful (by decide)
  | g2add => exact h.addCompute_output groupG2_lawful hle
  | g2mul => exact h.mulCompute_output groupG2_lawful hle
  | g2multiexp => exact h.multiExpCompute_output groupG2_lawful (by decide)
  | pairing => exact h.pairingCompute_output

/-! ## The two evaluations -/

/-- The evaluations give the same output or the same error, or both stop. -/
inductive SameEvaluation : Evaluation → Evaluation → Prop
  | ok (s t : State) (out : List Byte) : SameEvaluation (.ok s out) (.ok t out)
  | err (e : OpError) : SameEvaluation (.err e) (.err e)
  | unwritten : SameEvaluation .unwritten .unwritten

theorem SameInput.sameEvaluation (h : SameInput n s t) (op : Operation) :
    SameEvaluation (evaluate op (computeOf op) n s) (evaluate op (computeOf op) n t) := by
  rw [evaluate_eq, evaluate_eq, h.allWritten_eq, h.validate_eq]
  split
  · exact .err _
  rename_i hlen
  have hl : lengthOk op n = true := by simpa using hlen
  split
  · exact .err _
  split
  · exact .unwritten
  cases hv : validate op n t with
  | error e => exact .err e
  | ok u =>
    obtain ⟨s', out, hs⟩ := compute_total hl ((h.validate_eq op).trans hv)
    obtain ⟨t', out', ht⟩ := compute_total hl hv
    have hout :=
      (h.onlySequencer (onlySequencer_setPhase s .compute) (onlySequencer_setPhase t .compute)).computeOf_output hl
    rw [hs, ht] at hout
    obtain rfl : out = out' := Except.ok.inj hout
    rw [hs, ht]
    exact .ok _ _ out

theorem onlySequencer_of_evaluate_ok {op : Operation} {s' : State} {out : List Byte}
    (h : evaluate op (computeOf op) n s = .ok s' out) : OnlySequencer s s' := by
  rcases runOperation_cases op n s with ⟨-, he⟩ | ⟨e, -, he⟩ | ⟨_, _, -, he, hs, -⟩ <;> cases he.symm.trans h
  exact hs

/-! ## The two completions of a cleared state -/

theorem State.Cleared.sameResult_finishErr (hs : s.Cleared) (ht : t.Cleared) (e : OpError) :
    (s.finishErr e).SameResult (t.finishErr e) := by
  obtain ⟨-, -, -, -, hlen, hbuf⟩ := hs
  obtain ⟨-, -, -, -, hlen', hbuf'⟩ := ht
  refine ⟨rfl, rfl, rfl, rfl, hlen'.trans hlen.symm, fun a => ?_⟩
  rw [State.outByte, State.outByte, State.finishErr_outBuf, State.finishErr_outBuf, hbuf, hbuf']

theorem State.Cleared.sameResult_finishOk (hs : s.Cleared) (ht : t.Cleared) (out : List Byte) :
    (s.finishOk out).SameResult (t.finishOk out) := by
  obtain ⟨herr, hkind, hdetail, hpos, -, hbuf⟩ := hs
  obtain ⟨herr', hkind', hdetail', hpos', -, hbuf'⟩ := ht
  refine ⟨herr'.trans herr.symm, hkind'.trans hkind.symm, hdetail'.trans hdetail.symm, hpos'.trans hpos.symm, rfl,
    fun a => ?_⟩
  rw [State.outByte, State.outByte, State.finishOk_outBuf, State.finishOk_outBuf, hbuf, hbuf']

end

/-- Settles O37: the same input gives the same evaluation, and no result of an earlier operation is left beside its. -/
theorem resultDependsOnInputAlone : Obligations.ResultDependsOnInputAlone := by
  intro op n s t hs ht hin
  have h := SameInput.sameEvaluation hin op
  rw [exec_instrOf, exec_instrOf, runOperation, runOperation]
  generalize hes : evaluate op (computeOf op) n s = es at h ⊢
  generalize het : evaluate op (computeOf op) n t = et at h ⊢
  cases h with
  | ok s' t' out =>
    have hs' := (onlySequencer_of_evaluate_ok hes).cleared hs
    have ht' := (onlySequencer_of_evaluate_ok het).cleared ht
    exact .inr ⟨_, _, rfl, rfl, hs'.sameResult_finishOk ht' out⟩
  | err e => exact .inr ⟨_, _, rfl, rfl, hs.sameResult_finishErr ht e⟩
  | unwritten => exact .inl ⟨rfl, rfl⟩

end Sys2Proof.Machine
end

section
/-! # PAIRING: the product of the factors, the verdict and the parameters (43_pairing R230 to R238) -/
namespace Sys2Proof.Machine

/-! ## The factors (43_pairing R234, R235) -/

theorem pairFactor_of_inf {pq : G1 × G2} (h : pq.1 = .inf ∨ pq.2 = .inf) (f : Fq12) : pairFactor f pq = f := if_pos h

/-- Two factors may be taken in either order, as the product of Fq12 is commutative and associative. -/
theorem pairFactor_right_comm (f : Fq12) (x y : G1 × G2) :
    pairFactor (pairFactor f x) y = pairFactor (pairFactor f y) x := by
  by_cases hx : x.1 = .inf ∨ x.2 = .inf
  · simp only [pairFactor_of_inf hx]
  by_cases hy : y.1 = .inf ∨ y.2 = .inf
  · simp only [pairFactor_of_inf hy]
  · simp only [pairFactor, if_neg hx, if_neg hy]
    rw [fq12Mul_assoc, fq12Mul_assoc, fq12Mul_comm (millerLoop x.1 x.2)]

theorem foldl_pairFactor_perm {l l' : List (G1 × G2)} (h : l.Perm l') (f : Fq12) :
    l.foldl pairFactor f = l'.foldl pairFactor f :=
  h.foldl_eq' (fun x _ y _ f => pairFactor_right_comm f x y) f

theorem foldl_pairFactor_of_inf {l : List (G1 × G2)} (h : ∀ pq ∈ l, pq.1 = .inf ∨ pq.2 = .inf) (f : Fq12) :
    l.foldl pairFactor f = f := by
  induction l with
  | nil => rfl
  | cons pq l ih =>
    obtain ⟨hpq, hl⟩ := List.forall_mem_cons.mp h
    rw [List.foldl_cons, pairFactor_of_inf hpq, ih hl]

/-- Settles O24: factors commute, and a pair with an infinity side gives none. -/
theorem pairingProductIgnoresOrderAndInfinity : Obligations.PairingProductIgnoresOrderAndInfinity := by
  intro l l' h
  refine ⟨foldl_pairFactor_perm h fq12One, ?_⟩
  rw [List.foldl_filter]
  refine List.foldl_ext _ _ _ fun f pq _ => ?_
  by_cases hpq : pq.1 = .inf ∨ pq.2 = .inf
  · rw [pairFactor_of_inf hpq, if_neg (by simpa [or_iff_not_imp_left] using hpq)]
  · rw [if_pos (by simpa using hpq)]

/-! ## The verdict through the values of the pairs (43_pairing R230, R236) -/

theorem finalExp_one : finalExp fq12One = fq12One := Config.pairing.feOne

/-- `e` has the laws 43_pairing R230 names of the value of a pair, and its product over a list decides the verdict. -/
structure DecidesPairing {M : Type} [CommMonoid M] (e : G1 → G2 → M) : Prop where
  verdict_iff : ∀ {l : List (G1 × G2)}, (∀ pq ∈ l, InG1 pq.1 ∧ InG2 pq.2) →
    (pairingVerdict l = true ↔ (l.map fun pq => e pq.1 pq.2).prod = 1)
  mul : ∀ {p q}, InG1 p → InG2 q → ∀ a b, e (pointMul fqOps a p) (pointMul fq2Ops b q) = e p q ^ (a * b)
  pow_R : ∀ {p q}, InG1 p → InG2 q → e p q ^ Config.R = 1
  order : ∀ {p q}, InG1 p → InG2 q → p ≠ .inf → q ≠ .inf → orderOf (e p q) = Config.R

/-- The value `pairValue` in the field Fq12 is such an `e`. -/
theorem exists_decidesPairing : ∃ (M : Type) (_ : CommMonoid M) (e : G1 → G2 → M), DecidesPairing e := by
  have : Fact (Nat.Prime Config.P) := ⟨P_prime⟩
  have : Fact (∀ r : Zq, r ^ 2 ≠ -5 + 0 * r) := neg_five_fact
  have : Fact (Irreducible towerPoly) := towerPoly_fact
  have : Fact (Irreducible topPoly) := ⟨topPoly_irreducible⟩
  exact ⟨Zq12, inferInstance, pairValue, {
    verdict_iff := isOne_finalExp_foldl
    mul := fun hp hq a b => by rw [pairValue_mul_g1 hp (hq.mul b), pairValue_mul_g2 hp hq, ← pow_mul, mul_comm]
    pow_R := pairValue_pow_R
    order := orderOf_pairValue }⟩

section
variable {M : Type} [CommMonoid M] {e : G1 → G2 → M} {p : G1} {q : G2}

/-- The value at a point and at the point's negative cancel. -/
theorem DecidesPairing.mul_neg (he : DecidesPairing e) (hp : InG1 p) (hq : InG2 q) :
    e p q * e (pointNeg fqOps p) q = 1 := by
  have hneg : e (pointNeg fqOps p) q = e p q ^ (Config.R - 1) := by
    rw [pointNeg_g1 hp, ← pointMul_one fq2Ops q, he.mul hp hq, pointMul_one, mul_one]
  rw [hneg, mul_pow_sub_one R_prime.ne_zero, he.pow_R hp hq]

theorem prod_map_pow_eq_pow_sum {ι : Type} (x : M) (f : ι → Nat) (is : List ι) :
    (is.map fun i => x ^ f i).prod = x ^ (is.map f).sum := by
  induction is with
  | nil => exact (pow_zero x).symm
  | cons i is ih => simp only [List.map_cons, List.prod_cons, List.sum_cons, ih, pow_add]

/-- The verdict on multiples of two points is decided by one power of their value. -/
theorem DecidesPairing.verdict_multiples_iff (he : DecidesPairing e) (hp : InG1 p) (hq : InG2 q) {ι : Type}
    (is : List ι) (a b : ι → Nat) :
    pairingVerdict (is.map fun i => (pointMul fqOps (a i) p, pointMul fq2Ops (b i) q)) = true ↔
      e p q ^ (is.map fun i => a i * b i).sum = 1 := by
  rw [he.verdict_iff, List.map_map, ← prod_map_pow_eq_pow_sum]
  · simp only [Function.comp_def, he.mul hp hq]
  · exact List.forall_mem_map.mpr fun i _ => ⟨hp.mul (a i), hq.mul (b i)⟩

end

/-- The exact verdict (43_pairing R236): the value of two points other than Inf has order R. -/
theorem pairingVerdict_multiples_iff {p : G1} {q : G2} (hp : InG1 p) (hq : InG2 q) (hp0 : p ≠ .inf) (hq0 : q ≠ .inf)
    {ι : Type} (is : List ι) (a b : ι → Nat) :
    pairingVerdict (is.map fun i => (pointMul fqOps (a i) p, pointMul fq2Ops (b i) q)) = true ↔
      (is.map fun i => a i * b i).sum % Config.R = 0 := by
  obtain ⟨M, _, e, he⟩ := exists_decidesPairing
  rw [he.verdict_multiples_iff hp hq, ← orderOf_dvd_iff_pow_eq_one, he.order hp hq hp0 hq0, Nat.dvd_iff_mod_eq_zero]

/-- A sum that is 0 mod R gives 1, be the points Inf or not. -/
theorem pairingVerdict_multiples_eq_true {p : G1} {q : G2} (hp : InG1 p) (hq : InG2 q) (es : List (Nat × Nat))
    (hsum : (es.map fun e => e.1 * e.2).sum % Config.R = 0) :
    pairingVerdict (es.map fun e => (pointMul fqOps e.1 p, pointMul fq2Ops e.2 q)) = true := by
  obtain ⟨M, _, e, he⟩ := exists_decidesPairing
  obtain ⟨c, hc⟩ := Nat.dvd_of_mod_eq_zero hsum
  rw [he.verdict_multiples_iff hp hq, hc, pow_mul, he.pow_R hp hq, one_pow]

/-! ## The laws of the verdict (43_pairing R238) -/

theorem pairingVerdict_perm {l l' : List (G1 × G2)} (h : l.Perm l') : pairingVerdict l = pairingVerdict l' := by
  rw [pairingVerdict, pairingVerdict, foldl_pairFactor_perm h]

theorem pairingVerdict_of_inf {l : List (G1 × G2)} (h : ∀ pq ∈ l, pq.1 = .inf ∨ pq.2 = .inf) :
    pairingVerdict l = true := by
  rw [pairingVerdict, foldl_pairFactor_of_inf h, finalExp_one]
  exact decide_eq_true rfl

theorem pairingVerdict_insert_inf (l l' : List (G1 × G2)) {p : G1} {q : G2} (h : p = .inf ∨ q = .inf) :
    pairingVerdict (l ++ (p, q) :: l') = pairingVerdict (l ++ l') := by
  simp only [pairingVerdict, List.foldl_append, List.foldl_cons, pairFactor_of_inf (pq := (p, q)) h]

theorem pairingVerdict_insert_neg {l l' : List (G1 × G2)} {p : G1} {q : G2}
    (hl : ∀ pq ∈ l ++ l', InG1 pq.1 ∧ InG2 pq.2) (hp : InG1 p) (hq : InG2 q) :
    pairingVerdict (l ++ (p, q) :: (pointNeg fqOps p, q) :: l') = pairingVerdict (l ++ l') := by
  obtain ⟨M, _, e, he⟩ := exists_decidesPairing
  have hl2 : ∀ pq ∈ l ++ (p, q) :: (pointNeg fqOps p, q) :: l', InG1 pq.1 ∧ InG2 pq.2 := by
    rw [List.forall_mem_append] at hl ⊢
    exact ⟨hl.1, List.forall_mem_cons.mpr ⟨⟨hp, hq⟩, List.forall_mem_cons.mpr ⟨⟨hp.neg, hq⟩, hl.2⟩⟩⟩
  rw [Bool.eq_iff_iff, he.verdict_iff hl, he.verdict_iff hl2]
  simp only [List.map_append, List.map_cons, List.prod_append, List.prod_cons]
  rw [← mul_assoc (e p q), he.mul_neg hp hq, one_mul]

/-- Settles O26: the laws on lists are those of the product; a verdict on multiples of two points is R236's. -/
theorem pairingVerdictLaws : Obligations.PairingVerdictLaws := by
  refine ⟨fun _ _ => pairingVerdict_perm, fun l l' _ _ => pairingVerdict_insert_inf l l',
    fun _ _ _ _ => pairingVerdict_insert_neg, fun p q hp hq => ?_, fun p q a hp hq ha => ?_,
    fun p q hp hq hp0 hq0 => ?_, fun _ _ es hp hq => pairingVerdict_multiples_eq_true hp hq es⟩
  · exact (pairingVerdict_insert_neg (l := []) (l' := []) nofun hp hq).trans (pairingVerdict_of_inf nofun)
  · refine pairingVerdict_multiples_eq_true hp hq [(a, 1), (1, Config.R - a)] ?_
    have hsum : ([(a, 1), (1, Config.R - a)].map fun e => e.1 * e.2).sum = Config.R := by simp [ha]
    rw [hsum, Nat.mod_self]
  · rw [Bool.eq_false_iff]
    intro h
    have hone := (pairingVerdict_multiples_iff hp hq hp0 hq0 [()] (fun _ => 1) (fun _ => 1)).mp h
    exact absurd hone (by decide)

/-! ## The completion of PAIRING (43_pairing R232, R233) -/

theorem ValidSubgroupPoint.validatePoint {F : Type} [DecidableEq F] {G : CurveGroup F} {s : State} {off : Nat}
    {q : Point F} (h : ValidSubgroupPoint G s off q) : validatePoint G true s off = .ok () := by
  obtain ⟨⟨hread, hon⟩, hsub⟩ := h
  refine validatePoint_ok_iff.mpr ⟨q, hread, checkPoint_ok_iff.mpr ?_⟩
  by_cases hq : q = .inf
  · exact .inl hq
  · exact .inr ⟨hon, fun _ => hsub hq⟩

/-- PAIRING of valid pairs completes with their verdict, and with the product of their factors in ACC_F. -/
theorem exec_pairing_completes {s : State} {k : Nat} {p : Nat → G1} {q : Nat → G2} (hm : s.MemoryOk) (hk : 1 ≤ k)
    (hcap : 384 * k ≤ Config.inBufBytes) (hw : ∀ i, i < 384 * k → s.written i = true)
    (hp : ∀ i, i < k → ValidSubgroupPoint groupG1 s (384 * i) (p i))
    (hq : ∀ i, i < k → ValidSubgroupPoint groupG2 s (384 * i + 128) (q i)) :
    ∃ t, exec (.pairing (384 * k)) s = .next t ∧
      t.accF = ((List.range k).map fun i => (p i, q i)).foldl pairFactor fq12One ∧
      OkCompletion s t (encodeBool32 (pairingVerdict ((List.range k).map fun i => (p i, q i)))) ∧
      t.accG1 = s.accG1 ∧ t.accG2 = s.accG2 := by
  have hv : validate .pairing (384 * k) s = .ok () :=
    validate_frames (op := .pairing) fun i hi => forall_mem_pair (hp i hi).validatePoint (hq i hi).validatePoint
  have hdiv : 384 * k / 384 = k := Nat.mul_div_cancel_left k (by decide)
  have hread : ∀ i, i < 384 * k / 384 → readPair (s.setPhase .compute) (384 * i) = .ok (p i, q i) := fun i hi =>
    decodePair_ok.mpr ⟨(hp i (hdiv ▸ hi)).1.setPhase _, (hq i (hdiv ▸ hi)).1.setPhase _⟩
  obtain ⟨s', hc, hacc, -⟩ := pairingCompute_eq hread
  rw [hdiv] at hc hacc
  obtain ⟨hkeep1, hkeep2, -⟩ := computeOf_acc (op := .pairing) hc
  obtain ⟨t, ht, hok, h1, h2, hF⟩ := exec_of_computed (op := .pairing) hm (inputReady_frames rfl hk hcap hw) hv hc
  exact ⟨t, ht, hF.trans hacc, hok, h1.trans (hkeep1 nofun nofun nofun), h2.trans (hkeep2 nofun nofun nofun)⟩

/-- The verdict byte by the proposition it tests. -/
theorem encodeBool32_eq_of_iff {t : Bool} {P : Prop} [Decidable P] (h : t = true ↔ P) :
    encodeBool32 t = zeros 31 ++ [if P then 1 else 0] := by
  rw [encodeBool32, if_congr h rfl rfl]

/-- Settles O22: the verdict tests FINAL_EXP of the product left in ACC_F. -/
theorem pairingCompletes : Obligations.PairingCompletes := by
  intro s k p q hm hk hcap hw hp hq
  obtain ⟨t, ht, hF, hok, h1, h2⟩ := exec_pairing_completes hm hk hcap hw hp hq
  refine ⟨t, ht, hF, ?_, h1, h2⟩
  rwa [hF, ← encodeBool32_eq_of_iff decide_eq_true_iff]

/-- Settles O23: no pair gives a factor, and FINAL_EXP keeps 1. -/
theorem trivialPairingIsOne : Obligations.TrivialPairingIsOne := by
  intro s k p q hm hk hcap hw hp hq hinf
  have hl : ∀ pq ∈ (List.range k).map fun i => (p i, q i), pq.1 = .inf ∨ pq.2 = .inf :=
    List.forall_mem_map.mpr fun i hi => hinf i (List.mem_range.mp hi)
  obtain ⟨t, ht, hF, hok, -, -⟩ := exec_pairing_completes hm hk hcap hw hp hq
  rw [pairingVerdict_of_inf hl] at hok
  exact ⟨finalExp_one, t, ht, hF.trans (foldl_pairFactor_of_inf hl _), hok⟩

/-- Settles O60: both groups are cyclic of order R, and the verdict is that on multiples of the generators. -/
theorem pairingVerdictIsExact : Obligations.PairingVerdictIsExact := by
  intro g1 g2 hg1 hg2 hg10 hg20
  refine ⟨fun p hp => ?_, fun q hq => ?_, fun s k a b hm hk hcap hw hp hq => ?_⟩
  · obtain ⟨a, ha, rfl⟩ := exists_log_g1 hg1 hg10 hp
    exact ⟨a, ha, rfl, by rw [pointMul_g1_eq_inf_iff hg1 hg10, Nat.mod_eq_of_lt ha]⟩
  · obtain ⟨b, hb, rfl⟩ := exists_log_g2 hg2 hg20 hq
    exact ⟨b, hb, rfl, by rw [pointMul_g2_eq_inf_iff hg2 hg20, Nat.mod_eq_of_lt hb]⟩
  · obtain ⟨t, ht, -, hok, -, -⟩ := exec_pairing_completes hm hk hcap hw hp hq
    rw [encodeBool32_eq_of_iff (pairingVerdict_multiples_iff hg1 hg2 hg10 hg20 _ a b)] at hok
    exact ⟨t, ht, hok⟩

/-! ## The parameters (43_pairing R230) -/

theorem norm12_zero [Fact (Nat.Prime Config.P)] [Fact (∀ r : Zq, r ^ 2 ≠ -5 + 0 * r)] : norm12 fq12Zero = 0 := by
  have hz : toZq2 (fq2OfNat 0) = 0 := by rw [toZq2_ofNat, Nat.cast_zero]
  simp [norm12, fq12Zero, toTower6, toZq6_eq, hz]

/-- Powers of the zero of Fq12 are zero, so no power of it is 1. -/
theorem ne_zero_of_fq12Pow_eq_one {f : Fq12} {n : Nat} (hn : n ≠ 0) (h : fq12Pow f n = fq12One) : f ≠ fq12Zero := by
  have : Fact (Nat.Prime Config.P) := ⟨P_prime⟩
  have : Fact (∀ r : Zq, r ^ 2 ≠ -5 + 0 * r) := neg_five_fact
  have : Fact (Irreducible towerPoly) := towerPoly_fact
  have : Fact (Irreducible topPoly) := ⟨topPoly_irreducible⟩
  have hpow : toZq12 f ^ n = 1 := by rw [← toZq12_pow, h, toZq12_one]
  rw [← toZq12_ne_zero]
  intro h0
  rw [h0, zero_pow hn] at hpow
  exact zero_ne_one hpow

/-- Settles O25: the parameters by their definition; the ate pairing by its Miller values at a point and at the point's
negative, which are conjugate up to a sign. -/
theorem pairingParametersMeetR230 : Obligations.PairingParametersMeetR230 := by
  have hfe : ∀ a, a ≠ fq12Zero → fq12Pow (finalExp a) Config.R = fq12One := Config.pairing.feOrder
  refine ⟨Config.pairing.ml, fun a ha => ⟨ne_zero_of_fq12Pow_eq_one R_prime.ne_zero (hfe a ha), hfe a ha⟩,
    Config.pairing.feMul, finalExp_one, Config.pairing.bil, Config.pairing.ndg, fun p q hp => ?_,
    fun _ => ateFinalExp_feOrder, ateFinalExp_mul, ateFinalExp_one⟩
  have : Fact (Nat.Prime Config.P) := ⟨P_prime⟩
  have : Fact (∀ r : Zq, r ^ 2 ≠ -5 + 0 * r) := neg_five_fact
  have : Fact (Irreducible towerPoly) := towerPoly_fact
  have hconj := ateMillerLoop_conj (y_ne_zero_of_inSubgroup hp.1 hp.2) q
  refine ⟨fun h0 => ?_, hconj.ateFinalExp_eq_one⟩
  obtain ⟨hnorm, -⟩ := hconj
  exact hnorm (h0 ▸ norm12_zero)

end Sys2Proof.Machine
end

section
/-! # The host commands, and how an operation ends or is abandoned (44_host_commands R260 to R270) -/
namespace Sys2Proof.Machine

/-! ## The completion (44_host_commands R266) -/

theorem Completes.justDone {s t : State} {n : Nat} (h : Completes s n t) : t.JustDone := by
  cases h with
  | err e ht hp hd => subst ht; exact ⟨rfl, rfl, rfl, rfl⟩
  | ok s' out ht ho hl => subst ht; exact ⟨rfl, rfl, rfl, rfl⟩

theorem Completes.sameInputs {s t : State} {n : Nat} (h : Completes s n t) : s.SameInputs t := by
  cases h with
  | err e ht hp hd => subst ht; exact (errCompletion_finishErr s e).inputs
  | ok s' out ht ho hl =>
    obtain ⟨_, _, _, _, _, rfl⟩ := ho
    subst ht
    exact ⟨rfl, rfl, rfl, rfl, rfl, rfl, rfl, rfl, rfl, rfl⟩

/-- While BUSY the sequencer's turn is the model fault or a completion. -/
theorem sequencerStep_busy {s : State} (hb : s.busy = true) :
    sequencerStep s = .fault .unwrittenInput ∨ ∃ t, sequencerStep s = .next t ∧ Completes s s.lLen.toNat t := by
  rcases sequencerStep_cases s with ⟨hi, -⟩ | ⟨-, hs⟩ | ⟨-, op, -, hs⟩
  · exact absurd (hb.symm.trans hi) nofun
  · exact .inr ⟨_, hs, .err _ rfl (.inl rfl) nofun⟩
  · rcases runOperation_cases op s.lLen.toNat s with ⟨hr, -⟩ | ⟨e, hr, -⟩ | ⟨s', out, hr, -⟩
    · exact .inl (hs.trans hr)
    all_goals exact .inr ⟨_, hs.trans hr, runOperation_completes hr⟩

/-- The fault is that of the decoded operation; a reserved code completes (42_dispatch R208). -/
theorem sequencerStep_fault_iff {s : State} (hb : s.busy = true) :
    sequencerStep s = .fault .unwrittenInput ↔
      ∃ (op : Operation) (n : Nat), decode (latchedEncoding s) = .ok (instrOf op n) ∧ lengthOk op n = true ∧
        n ≤ Config.inBufBytes ∧ ∃ i, i < n ∧ s.written i = false := by
  refine ⟨fun h => ?_, fun ⟨op, n, hd, hstop⟩ => ?_⟩
  · rw [decode_latched]
    rcases exists_operationCode_or_reserved s.lOp.toNat with ⟨op, hc⟩ | hc
    · have hd := decodeOp_of_code s.lLen hc
      rw [sequencerStep_decoded hb ((decode_latched s).trans hd)] at h
      exact ⟨op, _, hd, (onlyUnwrittenInputStops op _ s).1.mp h⟩
    · cases (sequencerStep_reserved hb hc).symm.trans h
  · rw [sequencerStep_decoded hb hd]
    exact (onlyUnwrittenInputStops op n s).1.mpr hstop

/-- Settles O57: either turn is `sequencerStep`, whose outcome while BUSY is the fault or a completion. -/
theorem busyStepCompletes : Obligations.BusyStepCompletes := by
  intro s₀ s hb hturn
  have hstep : step s₀ = sequencerStep s := by
    rcases hturn with ⟨es, hi, rfl⟩ | ⟨hi, rfl⟩
    exacts [step_cons hi, step_nil hi]
  rw [hstep]
  refine ⟨sequencerStep_fault_iff hb, fun hne => ?_⟩
  obtain ⟨t, ht, hc⟩ := (sequencerStep_busy hb).resolve_left hne
  obtain ⟨-, hdone, -, -⟩ := hc.justDone
  obtain ⟨-, -, -, hie, -⟩ := hc.sameInputs
  exact ⟨t, ht, hc.justDone, by rw [State.irq, hdone, hie, Bool.true_and], hc.sameInputs⟩

/-! ## A running operation ends (44_host_commands R270) -/

theorem BusEffect.busy_inputs {s t : State} (h : BusEffect s t) : t.busy = s.busy ∧ t.inputs = s.inputs := by
  cases h with
  | none h => obtain ⟨r, d, rfl⟩ := h; exact ⟨rfl, rfl⟩
  | opCode v hb ht => subst ht; exact ⟨rfl, rfl⟩
  | inLen v hb ht => subst ht; exact ⟨rfl, rfl⟩
  | inBuf a bs hb ha ht => subst ht; exact ⟨rfl, rfl⟩

/-- A write that is no soft reset is served while BUSY and leaves the operation running. -/
theorem serveWrite_keeps_busy {off w : Nat} {v : Word} {s : State} (hb : s.busy = true)
    (ha : Event.aborts (.access (.write off w v)) = false) :
    ∃ t, serveWrite off w v s = .next t ∧ t.busy = s.busy ∧ t.inputs = s.inputs := by
  cases hc : commandOfWrite off w v with
  | none => exact ⟨_, serveWrite_noCommand s hc, (busWrite_effect off w v s).busy_inputs⟩
  | some e =>
    obtain ⟨rfl, ⟨rfl, -⟩ | ⟨rfl, -⟩⟩ := commandOfWrite_cases hc
    · exact ⟨_, serveWrite_ctrl_ie ha fun _ => hb, rfl, rfl⟩
    · refine ⟨_, serveWrite_status v s, ?_⟩
      split <;> exact ⟨rfl, rfl⟩

/-- The end of a running operation: its completion, or the model fault (44_host_commands R266, 10_state R52). -/
def Ended (o : Host.Outcome State Fault Refusal) : Prop :=
  o = .fault .unwrittenInput ∨ ∃ t, o = .next t ∧ t.JustDone

theorem sequencerStep_ended {s : State} (hb : s.busy = true) : Ended (sequencerStep s) :=
  (sequencerStep_busy hb).imp_right fun ⟨t, ht, hc⟩ => ⟨t, ht, hc.justDone⟩

/-- While BUSY an event that does not abort either ends the operation or leaves it running. -/
theorem handle_ended_or_busy {e : Event} {s : State} (hb : s.busy = true) (ha : e.aborts = false) :
    Ended (handle e s) ∨ ∃ t, handle e s = .next t ∧ t.busy = s.busy ∧ t.inputs = s.inputs := by
  cases e with
  | access a =>
    cases a with
    | read off w => exact .inr ⟨_, rfl, (BusEffect.none (busRead_same off w s)).busy_inputs⟩
    | write off w v => exact .inr (serveWrite_keeps_busy hb ha)
  | sequencer => exact .inl (sequencerStep_ended hb)
  | powerOn => cases ha

theorem core_run_one (s : State) : Sys2Proof.core.run 1 s = step s := by
  rw [core_run]
  cases step s <;> rfl

theorem core_run_of_step {s t : State} (h : step s = .next t) (k : Nat) :
    Sys2Proof.core.run (k + 1) s = Sys2Proof.core.run k t := by
  rw [core_run, h]

/-- One step for each event to come, and one turn more, are enough. -/
theorem exists_run_ended (es : List Event) {s : State} (hi : s.inputs = es) (hb : s.busy = true)
    (ha : ∀ e ∈ es, e.aborts = false) : ∃ k, k ≤ es.length + 1 ∧ Ended (Sys2Proof.core.run k s) := by
  induction es generalizing s with
  | nil => exact ⟨1, le_rfl, by rw [core_run_one, step_nil hi]; exact sequencerStep_ended hb⟩
  | cons e es ih =>
    obtain ⟨he, hes⟩ := List.forall_mem_cons.mp ha
    rcases handle_ended_or_busy (s := s.setInputs es) hb he with hend | ⟨t, ht, htb, hti⟩
    · exact ⟨1, Nat.le_add_left .., by rw [core_run_one, step_cons hi]; exact hend⟩
    · obtain ⟨k, hk, hend⟩ := ih hti (htb.trans hb) hes
      exact ⟨k + 1, Nat.succ_le_succ hk, by rw [core_run_of_step ((step_cons hi).trans ht)]; exact hend⟩

/-- Settles O58: every event but an abort ends the operation or leaves it running, and the turn after the last ends it. -/
theorem runningOperationEnds : Obligations.RunningOperationEnds :=
  fun s hb ha => exists_run_ended s.inputs rfl hb ha

/-! ## Soft reset (44_host_commands R262) -/

/-- A soft reset, whatever its START bit. -/
theorem exec_srst (st ie : Bool) (s : State) :
    exec (.srst st ie) s = .next ((s.clearAll.setIe ie).setReply .writeOkay) := rfl

theorem serveWrite_ctrl_srst {v : Word} (s : State) (h1 : v.getLsbD 1 = true) :
    serveWrite 0x004 4 v s = .next ((s.clearAll.setIe (v.getLsbD 2)).setReply .writeOkay) := by
  rw [serveWrite_ctrl, decodeCtrl_srst h1, exec_srst]

/-- Settles O39: field by field, from the values of `clearAll`. -/
theorem softResetLeavesResetValues : Obligations.SoftResetLeavesResetValues := by
  intro s st ie
  exact ⟨_, exec_srst st ie s, rfl, rfl, rfl, rfl, rfl, rfl, rfl, State.outByte_nil rfl, rfl, rfl, rfl, rfl, rfl, rfl, rfl,
    fun _ => ⟨rfl, rfl⟩, rfl, rfl, rfl⟩

/-- Turns of an idle sequencer change nothing but the list of events. -/
theorem core_run_idle_turns (k : Nat) {es : List Event} {s : State} (hb : s.busy = false)
    (hi : s.inputs = List.replicate k .sequencer ++ es) : Sys2Proof.core.run k s = .next (s.setInputs es) := by
  induction k generalizing s with
  | zero =>
    obtain rfl : s.inputs = es := hi
    rfl
  | succ k ih =>
    have hstep : step s = .next (s.setInputs (List.replicate k .sequencer ++ es)) :=
      (step_cons hi).trans (sequencerStep_idle hb)
    exact (core_run_of_step hstep k).trans (ih hb rfl)

/-- Settles O59: the soft reset leaves BUSY 0, so that every turn after it is idle. -/
theorem abortLeavesNoCompletion : Obligations.AbortLeavesNoCompletion := by
  intro s v k es h1 hi
  have hstep := (step_cons hi).trans (serveWrite_ctrl_srst _ h1)
  exact ⟨_, (core_run_of_step hstep k).trans (core_run_idle_turns k rfl rfl), rfl, rfl, rfl, rfl, rfl, rfl,
    State.outByte_nil rfl, fun _ => rfl, rfl⟩

/-! ## START and the other CTRL writes (44_host_commands R260, R264) -/

theorem execStart_idle {s : State} (ie : Bool) (hb : s.busy = false) :
    execStart ie s = .next ((s.begin.setIe ie).setReply .writeOkay) := by
  simp only [execStart, hb, cond_false, ctrlWriteEnd]

/-- Settles O38: the two cases of BUSY. -/
theorem startLatchesAndClears : Obligations.StartLatchesAndClears := by
  intro s ie
  refine ⟨execStart_idle ie, execStart_busy ie, ?_⟩
  cases hb : s.busy
  · exact ⟨_, execStart_idle ie hb, fun _ => ⟨rfl, State.outByte_nil rfl⟩⟩
  · exact ⟨_, execStart_busy ie hb, nofun⟩

/-- Every CTRL write ends with the write of IE from bit 2, after the action of its command. -/
theorem serveWrite_ctrl_end (v : Word) (s : State) :
    ∃ t : State, serveWrite 0x004 4 v s = .next ((t.setIe (v.getLsbD 2)).setReply .writeOkay) := by
  rw [serveWrite_ctrl, decodeCtrl]
  split
  · exact ⟨_, exec_srst ..⟩
  split
  exacts [⟨_, rfl⟩, ⟨s, rfl⟩]

/-- Settles O40: the end every CTRL write has; with no command bit set it is all the write does. -/
theorem everyCtrlWriteSetsIe : Obligations.EveryCtrlWriteSetsIe := by
  intro s v
  obtain ⟨t, ht⟩ := serveWrite_ctrl_end v s
  refine ⟨_, ht, rfl, rfl, rfl, fun h1 h0 => ?_⟩
  have hie := serveWrite_ctrl_ie (s := s) h1 fun h => absurd (h0.symm.trans h) nofun
  exact Host.Outcome.next.inj (ht.symm.trans hie)

/-! ## STATUS writes (44_host_commands R263) -/

theorem State.clearDone_of_done {s : State} (h : s.done = false) : s.clearDone = s := by
  rw [State.clearDone, ← h]

/-- Settles O41: a STATUS write by its bit 1; while BUSY a sound state has DONE clear already. -/
theorem doneClearAndIeWriteChangeOneBit : Obligations.DoneClearAndIeWriteChangeOneBit := by
  intro s
  refine ⟨fun ie => rfl, rfl, fun v h1 => ⟨_, ?_, rfl, rfl, s.sameResult_setUnrelated ..⟩, fun v h1 => ?_,
    fun v hs hb => ?_⟩
  · rw [serveWrite_status, if_pos h1]
    rfl
  · exact serveWrite_status_noCommand s h1
  · obtain ⟨hdone, -⟩ := hs.busy_clear hb
    rw [serveWrite_status, State.clearDone_of_done hdone, ite_self]
    rfl

/-! ## Parameter writes (44_host_commands R267) -/

theorem serveWrite_opCode (v : Word) (s : State) :
    serveWrite 0x008 4 v s = .next (lockedWrite s (s.setOpCode (opCodeOf v))) := rfl

theorem serveWrite_inLen (v : Word) (s : State) : serveWrite 0x00C 4 v s = .next (lockedWrite s (s.setInLen v)) := rfl

/-- Settles O47: both registers are written under the input lock. -/
theorem parameterWrites : Obligations.ParameterWrites := by
  intro s v
  rw [serveWrite_opCode, serveWrite_inLen]
  refine ⟨fun hb => ?_, fun hb => ?_⟩
  · rw [lockedWrite_busy _ hb, lockedWrite_busy _ hb]
    exact ⟨rfl, rfl⟩
  · rw [lockedWrite_idle _ hb, lockedWrite_idle _ hb]
    exact ⟨rfl, rfl⟩

end Sys2Proof.Machine
end

section
/-! # Where errors point, what an operation leaves unchanged, and what stops the machine (60_exceptions R283 to R291) -/
namespace Sys2Proof.Machine

/-! ## Error positions (60_exceptions R283, R284) -/

/-- Settles O34: from a cleared state ERR is that of the evaluation's error, which is of the whole input or of an operand
inside it; the 32 bits of ERR_POS show no more than its position. -/
theorem errorPositionIsInsideInput : Obligations.ErrorPositionIsInsideInput := by
  rintro op n s t - hs h herr
  rw [exec_instrOf] at h
  rcases runOperation_cases op n s with ⟨hr, -⟩ | ⟨e, hr, he⟩ | ⟨s', out, hr, -, honly, -⟩ <;>
    cases hr.symm.trans h
  · rcases evaluate_err he with rfl | rfl | ⟨-, hlt, hkind⟩
    · exact ⟨.inr ⟨.inl rfl, rfl⟩, nofun⟩
    · exact ⟨.inr ⟨.inr rfl, rfl⟩, nofun⟩
    · have hpos : (BitVec.ofNat 32 e.pos).toNat < n := (Nat.mod_le ..).trans_lt hlt
      rcases hkind with hk | ⟨hk, hd⟩
      · exact ⟨.inl ⟨.inl (congrArg errCode hk), hpos⟩, fun _ => congrArg errCode hk⟩
      · have hcode : errCode e.kind = 3 ∨ errCode e.kind = 4 := hk.imp (congrArg errCode) (congrArg errCode)
        exact ⟨.inl ⟨.inr hcode, hpos⟩, fun h => absurd (hd.symm.trans h) nofun⟩
  · obtain ⟨hclear, -⟩ := honly.cleared hs
    exact absurd (hclear.symm.trans herr) nofun

/-! ## The frame of an operation (60_exceptions R291, 42_dispatch R209) -/

theorem State.SameInputs.inByte {s t : State} (h : s.SameInputs t) (i : Nat) : t.inByte i = s.inByte i := by
  obtain ⟨hbuf, -, -, -, -, -, hresets, -⟩ := h
  rw [State.inByte, State.inByte, hbuf, hresets]

theorem State.SameInputs.written {s t : State} (h : s.SameInputs t) (i : Nat) : t.written i = s.written i := by
  obtain ⟨hbuf, -⟩ := h
  rw [State.written, State.written, hbuf]

/-- An evaluation ends with an output only where its computation does, and adds the phase alone. -/
theorem evaluate_ok_compute {op : Operation} {c : Compute} {n : Nat} {s s' : State} {out : List Byte}
    (h : evaluate op c n s = .ok s' out) :
    ∃ u, c n (s.setPhase .compute) = .ok (u, out) ∧ s' = u.setPhase .writeback := by
  rw [evaluate_eq] at h
  split at h
  · cases h
  split at h
  · cases h
  split at h
  · cases h
  cases hv : validate op n s <;> rw [hv] at h
  case error e => cases h
  case ok =>
    cases hc : c n (s.setPhase .compute) <;> rw [hc] at h <;> cases h
    exact ⟨_, rfl, rfl⟩

/-- An evaluation leaves the accumulators that are not its operation's own. -/
theorem evaluate_ok_acc {op : Operation} {n : Nat} {s s' : State} {out : List Byte}
    (h : evaluate op (computeOf op) n s = .ok s' out) :
    (op ≠ .g1add → op ≠ .g1mul → op ≠ .g1multiexp → s'.accG1 = s.accG1) ∧
      (op ≠ .g2add → op ≠ .g2mul → op ≠ .g2multiexp → s'.accG2 = s.accG2) ∧ (op ≠ .pairing → s'.accF = s.accF) := by
  obtain ⟨u, hc, rfl⟩ := evaluate_ok_compute h
  obtain ⟨hG1, hG2, hF⟩ := computeOf_acc hc
  exact ⟨hG1, hG2, hF⟩

/-- Settles O36: each of the two completions has its frame; the output of a success has the operation's length. -/
theorem operationFrame : Obligations.OperationFrame := by
  intro op n s t hm h
  rw [exec_instrOf] at h
  rcases runOperation_cases op n s with ⟨hr, -⟩ | ⟨e, hr, -⟩ | ⟨s', out, hr, he, honly, hlen⟩ <;>
    cases hr.symm.trans h
  · have hc := errCompletion_finishErr s e
    obtain ⟨-, hout⟩ := hc.output
    obtain ⟨hG1, hG2, hF⟩ := hc.accumulators
    exact ⟨hc.inputs, hc.ended, hc.inputs.inByte, hc.inputs.written, fun i _ => hout i, fun _ _ _ => hG1,
      fun _ _ _ => hG2, fun _ => hF⟩
  · have hc := okCompletion_finishOk hm honly out
    obtain ⟨hG1, hG2, hF⟩ := evaluate_ok_acc he
    exact ⟨hc.inputs, hc.ended, hc.inputs.inByte, hc.inputs.written, fun i hi => hc.rest i (hlen.trans_le hi), hG1,
      hG2, hF⟩

/-! ## What stops the machine (60_exceptions R285, R286) -/

theorem serveWrite_next (off w : Nat) (v : Word) (s : State) : ∃ t, serveWrite off w v s = .next t := by
  rcases serveWrite_effect off w v s with ⟨t, ho, -⟩ | ⟨ie, ho⟩ | ⟨st, ie, ho⟩ | ⟨ie, ho⟩ | ho
  all_goals exact ⟨_, ho⟩

/-- The model fault of the running operation: a byte of its input was never written (10_state R52). -/
def StopsOnInput (s : State) (o : Host.Outcome State Fault Refusal) : Prop :=
  o = .fault .unwrittenInput ∧ s.busy = true ∧ ∃ i, i < s.lLen.toNat ∧ s.written i = false

theorem sequencerStep_next_or_stops (s : State) :
    (∃ t, sequencerStep s = .next t) ∨ StopsOnInput s (sequencerStep s) := by
  rcases sequencerStep_cases s with ⟨-, hs⟩ | ⟨-, hs⟩ | ⟨hb, op, -, hs⟩
  · exact .inl ⟨_, hs⟩
  · exact .inl ⟨_, hs⟩
  · rcases runOperation_cases op s.lLen.toNat s with ⟨hr, he⟩ | ⟨e, hr, -⟩ | ⟨s', out, hr, -⟩
    · obtain ⟨-, -, hw⟩ := evaluate_unwritten_iff.mp he
      exact .inr ⟨hs.trans hr, hb, allWritten_eq_false_iff.mp hw⟩
    · exact .inl ⟨_, hs.trans hr⟩
    · exact .inl ⟨_, hs.trans hr⟩

/-- Only the sequencer's turn can stop: every access and every reset event is served. -/
theorem handle_next_or_stops (e : Event) (s : State) :
    (∃ t, handle e s = .next t) ∨ e = .sequencer ∧ StopsOnInput s (handle e s) := by
  cases e with
  | access a =>
    cases a with
    | read off w => exact .inl ⟨_, rfl⟩
    | write off w v => exact .inl (serveWrite_next off w v s)
  | sequencer => exact (sequencerStep_next_or_stops s).imp_right (.intro rfl)
  | powerOn => exact .inl ⟨_, rfl⟩

theorem step_next_or_stops (s : State) :
    (∃ t, step s = .next t) ∨
      (s.inputs = [] ∨ ∃ es, s.inputs = .sequencer :: es) ∧ StopsOnInput s (step s) := by
  cases hi : s.inputs with
  | nil =>
    rw [step_nil hi]
    exact (sequencerStep_next_or_stops s).imp_right (.intro (.inl rfl))
  | cons e es =>
    rw [step_cons hi]
    exact (handle_next_or_stops e (s.setInputs es)).imp_right fun ⟨he, hstop⟩ => ⟨.inr ⟨es, by rw [he]⟩, hstop⟩

/-- Settles O55: a step answers a next state, or is the sequencer's turn on unwritten input. -/
theorem stepStopsOnlyOnUnwrittenInput : Obligations.StepStopsOnlyOnUnwrittenInput := by
  intro s
  rcases step_next_or_stops s with ⟨t, ht⟩ | ⟨hturn, hfault, hb, hw⟩
  · rw [ht]
    exact ⟨nofun, nofun⟩
  · rw [hfault]
    exact ⟨nofun, fun f hf => ⟨(Host.Outcome.fault.inj hf).symm, hb, hturn, hw⟩⟩

end Sys2Proof.Machine
end

section
/-! # Reset (70_reset R320) -/
namespace Sys2Proof.Machine

theorem step_powerOn {s : State} {es : List Event} (h : s.inputs = .powerOn :: es) :
    step s = .next (s.setInputs es).powerOn :=
  step_cons h

theorem State.written_nil {s : State} (h : s.inBuf = []) (i : Nat) : s.written i = false := by
  rw [State.written, h]
  rfl

/-- Two empty byte arrays are canonical and inside their buffers. -/
theorem State.memoryOk_nil {s : State} (hi : s.inBuf = []) (ho : s.outBuf = []) : s.MemoryOk := by
  rw [State.MemoryOk, hi, ho]
  exact ⟨Memory.wf_nil, nofun, Memory.wf_nil, nofun⟩

theorem State.reset_memoryOk : State.reset.MemoryOk := State.memoryOk_nil rfl rfl

theorem State.reset_statusOk : State.reset.StatusOk :=
  State.Cleared.statusOk ⟨rfl, rfl, rfl, rfl, rfl, rfl⟩ rfl rfl rfl nofun

/-- Settles O51: a reset event ends in `powerOn`, which gives every register the value it has in `State.reset` and empties
both byte arrays. -/
theorem resetValues : Obligations.ResetValues := by
  refine ⟨?_, rfl⟩
  rintro s (rfl | ⟨s₀, es, hi, hs⟩)
  on_goal 2 => cases (step_powerOn hi).symm.trans hs
  all_goals exact ⟨rfl, rfl, rfl, rfl, rfl, rfl, State.outByte_nil rfl, rfl, rfl, rfl, State.written_nil rfl⟩

/-- Settles O52: both byte arrays are empty, and no result, error or operation is recorded. -/
theorem invariantAtReset : Obligations.InvariantAtReset := ⟨State.reset_memoryOk, State.reset_statusOk⟩

end Sys2Proof.Machine
end
